-- ==== Sys2Proof/Word.lean ====
section
/-! DEFINITION. The word types of the block (00_scope.md R10): bytes, FAT12 entries, 16-bit units. -/

namespace Sys2Proof

/-- `u8` of R10: a port byte, a command byte, a media byte. -/
abbrev Byte := BitVec 8

/-- `u12` of R10: a FAT12 entry (R210). -/
abbrev U12 := BitVec 12

/-- `u16` of R10: a UTF-16 code unit of a name (R250), a little-endian field. -/
abbrev U16 := BitVec 16

end Sys2Proof
end

