-- ==== Sys2Proof/Config.lean ====
section
/-! DEFINITION. What an implementation fixes: the constants of 00_scope.md R8, the named parameters of
R9 with their defaults, and the free values (`openBus`, `portBase`), which have no body. -/

namespace Sys2Proof

/-- `SECTOR_BYTES` of R8. -/
abbrev Config.sectorBytes : Nat := 512
/-- `SPT` of R8: sectors per track, numbered from 1. -/
abbrev Config.spt : Nat := 18
/-- `HEADS` of R8. -/
abbrev Config.heads : Nat := 2
/-- `CYLS` of R8. -/
abbrev Config.cyls : Nat := 80
/-- `MAX_LBA` of R8. -/
abbrev Config.maxLba : Nat := 2879
/-- `CMD_TABLE_SIZE` of R8. -/
abbrev Config.cmdTableSize : Nat := 32
/-- `CMD_BUF_BYTES` of R8. -/
abbrev Config.cmdBufBytes : Nat := 10
/-- `RES_BUF_BYTES` of R8. -/
abbrev Config.resBufBytes : Nat := 8
/-- `DIR_ENTRY_BYTES` of R8. -/
abbrev Config.dirEntryBytes : Nat := 32
/-- `LFN_UNITS` of R8. -/
abbrev Config.lfnUnits : Nat := 13
/-- `EOC_MIN` of R8: a FAT value at or above it ends a chain. -/
abbrev Config.eocMin : Nat := 0xFF8
/-- `EOC_WRITE` of R8: what the allocator's caller (out of scope, R5) writes to end a chain. -/
abbrev Config.eocWrite : Nat := 0xFFF

/-- FREE VALUE (log 7): the byte of the `n`-th `draw()` (parameter `openBus` of R9, R11). Nothing
constrains it, and each draw reads it at a fresh `n`. -/
opaque Config.openBus (n : Nat) : Byte

/-- OPEN parameter `portBase` of R9 (D56, log 9): the bus address of port 0. No rule in scope reads it. -/
opaque Config.portBase : Nat

/-- The bus address of port `p` (R68, D56): the ports stand one after another from `portBase`. -/
def Config.portAddress (p : Fin 8) : Nat := Config.portBase + p.val

/-- The handlers a table entry may name (R84). -/
inductive Handler where
  | readTrack | specify | senseDriveStatus | writeData | readData | recalibrate
  | senseInterruptStatus | writeDeletedData | readId | readDeletedData | formatTrack | seek
  | scanEqual | scanLowOrEqual | scanHighOrEqual | invalid
deriving DecidableEq, Repr

/-- One entry of the command table (R83, R84): "required command-byte count, resulting result-byte
count, handler reference". -/
structure TableEntry where
  cmdLen : Nat
  resLen : Nat
  handler : Handler
deriving DecidableEq, Repr

/-- The entry of every unassigned index (R84, R88). -/
abbrev Config.invalidEntry : TableEntry := ⟨1, 1, .invalid⟩

/-- The default command table of R84, indices 0x00 to 0x0F. -/
def Config.defaultTableLow : List TableEntry :=
  [ invalidEntry,                    -- 0x00
    invalidEntry,                    -- 0x01
    ⟨9, 7, .readTrack⟩,              -- 0x02
    ⟨3, 0, .specify⟩,                -- 0x03
    ⟨2, 1, .senseDriveStatus⟩,       -- 0x04
    ⟨9, 7, .writeData⟩,              -- 0x05
    ⟨9, 7, .readData⟩,               -- 0x06
    ⟨2, 0, .recalibrate⟩,            -- 0x07
    ⟨1, 2, .senseInterruptStatus⟩,   -- 0x08
    ⟨9, 7, .writeDeletedData⟩,       -- 0x09
    ⟨2, 7, .readId⟩,                 -- 0x0A
    invalidEntry,                    -- 0x0B
    ⟨9, 7, .readDeletedData⟩,        -- 0x0C
    ⟨6, 7, .formatTrack⟩,            -- 0x0D
    invalidEntry,                    -- 0x0E
    ⟨3, 0, .seek⟩ ]                  -- 0x0F

/-- The default command table of R84, indices 0x10 to 0x1F. -/
def Config.defaultTableHigh : List TableEntry :=
  [ invalidEntry,                    -- 0x10
    ⟨9, 7, .scanEqual⟩,              -- 0x11
    invalidEntry,                    -- 0x12
    invalidEntry,                    -- 0x13
    invalidEntry,                    -- 0x14
    invalidEntry,                    -- 0x15
    invalidEntry,                    -- 0x16
    invalidEntry,                    -- 0x17
    invalidEntry,                    -- 0x18
    ⟨9, 7, .scanLowOrEqual⟩,         -- 0x19
    invalidEntry,                    -- 0x1A
    invalidEntry,                    -- 0x1B
    invalidEntry,                    -- 0x1C
    ⟨9, 7, .scanHighOrEqual⟩,        -- 0x1D
    invalidEntry,                    -- 0x1E
    invalidEntry ]                   -- 0x1F

/-- The default `CommandTable` of R84: 32 entries, indexed by command byte bits [4:0]. -/
def Config.defaultTable : Vector TableEntry 32 :=
  ⟨(defaultTableLow ++ defaultTableHigh).toArray, rfl⟩

/-- The named parameters of R9 that a rule in scope reads. They never change while the machine runs
(log 8). -/
structure Params where
  /-- `CommandTable` (D5). -/
  table : Vector TableEntry 32
  /-- `resetNonDma` (D6). -/
  resetNonDma : Bool
  /-- `statusBitPos` (D9). -/
  statusBitPos : Fin 8
  /-- `maxDirDepth` (D44). -/
  maxDirDepth : Nat
deriving DecidableEq, Repr

/-- The defaults of R9. -/
def Config.defaultParams : Params :=
  { table := defaultTable, resetNonDma := true, statusBitPos := 7, maxDirDepth := 16 }

end Sys2Proof
end

