-- ==== Sys2Proof/Syntax.lean ====
section
/-! DEFINITION. The syntax: one constructor per row of spec/opcode_table.json (bus operations and FDC
command sequences), the encoded forms of 30_encoding.md R80, and the host agent's requests
(00_scope.md R6, R12). -/

namespace Sys2Proof

/-- The instructions. A bus operation (R81) carries its data field `d`; in a read no rule uses it. A
command (R82, R85) carries the option bits [7:5] of its command byte and its parameter bytes, each a
whole byte (R86). -/
inductive Instr where
  /-- `IN_0`. IN 0: DMA data read; moves a pending ToHost window; stub access (R122) (R101). -/
  | in0 (d : Byte)
  /-- `IN_1`. IN 1: same as IN 0 (R101). -/
  | in1 (d : Byte)
  /-- `OUT_0`. OUT 0: DMA data write; moves a pending FromHost window; stub access (R122) (R102). -/
  | out0 (d : Byte)
  /-- `OUT_1`. OUT 1: same as OUT 0 (R102). -/
  | out1 (d : Byte)
  /-- `IN_2`. IN 2: DRQ status: bit statusBitPos = pending > 0 (R103). -/
  | in2 (d : Byte)
  /-- `OUT_2`. OUT 2: digital output register; bit 2 = 0 soft-resets (R332) (R104). -/
  | out2 (d : Byte)
  /-- `IN_3`. IN 3: IRQ status: bit statusBitPos = irq; does not clear it (R105). -/
  | in3 (d : Byte)
  /-- `OUT_3`. OUT 3: no effect (R108). -/
  | out3 (d : Byte)
  /-- `IN_4`. IN 4: main status register MSR(s) (R44, R45) (R109). -/
  | in4 (d : Byte)
  /-- `OUT_4`. OUT 4: bit 7 = 1 soft-resets (R332) (R106). -/
  | out4 (d : Byte)
  /-- `IN_5`. IN 5: data register read: Result byte (R115, R116), Execution data (R114), Idle/Command draw (R117) (R115). -/
  | in5 (d : Byte)
  /-- `OUT_5`. OUT 5: data register write: command byte in Idle (R110), parameter in Command (R111), Execution data (R112), ignored in Result (R113) (R110). -/
  | out5 (d : Byte)
  /-- `IN_6`. IN 6: unspecified byte, no state change (R119). -/
  | in6 (d : Byte)
  /-- `OUT_6`. OUT 6: no effect (R119). -/
  | out6 (d : Byte)
  /-- `IN_7`. IN 7: media-changed bit at statusBitPos; clears changed (R107). -/
  | in7 (d : Byte)
  /-- `OUT_7`. OUT 7: speed <- d[1:0] (R121). -/
  | out7 (d : Byte)
  /-- `INVALID_00`. Index 0x00, 1 command bytes, 1 result bytes (R175). -/
  | invalid00 (opt : BitVec 3)
  /-- `INVALID_01`. Index 0x01, 1 command bytes, 1 result bytes (R175). -/
  | invalid01 (opt : BitVec 3)
  /-- `READ_TRACK`. Index 0x02, 9 command bytes, 7 result bytes (R165). -/
  | readTrack (opt : BitVec 3) (hdus c h r n eot gpl dtl : Byte)
  /-- `SPECIFY`. Index 0x03, 3 command bytes, 0 result bytes (R142). -/
  | specify (opt : BitVec 3) (srtHut hltNd : Byte)
  /-- `SENSE_DRIVE_STATUS`. Index 0x04, 2 command bytes, 1 result bytes (R144). -/
  | senseDriveStatus (opt : BitVec 3) (hdus : Byte)
  /-- `WRITE_DATA`. Index 0x05, 9 command bytes, 7 result bytes (R152). -/
  | writeData (opt : BitVec 3) (hdus c h r n eot gpl dtl : Byte)
  /-- `READ_DATA`. Index 0x06, 9 command bytes, 7 result bytes (R150). -/
  | readData (opt : BitVec 3) (hdus c h r n eot gpl dtl : Byte)
  /-- `RECALIBRATE`. Index 0x07, 2 command bytes, 0 result bytes (R145). -/
  | recalibrate (opt : BitVec 3) (us : Byte)
  /-- `SENSE_INTERRUPT_STATUS`. Index 0x08, 1 command bytes, 2 result bytes (R143). -/
  | senseInterruptStatus (opt : BitVec 3)
  /-- `WRITE_DELETED_DATA`. Index 0x09, 9 command bytes, 7 result bytes (R167). -/
  | writeDeletedData (opt : BitVec 3) (hdus c h r n eot gpl dtl : Byte)
  /-- `READ_ID`. Index 0x0A, 2 command bytes, 7 result bytes (R160). -/
  | readId (opt : BitVec 3) (hdus : Byte)
  /-- `INVALID_0B`. Index 0x0B, 1 command bytes, 1 result bytes (R175). -/
  | invalid0B (opt : BitVec 3)
  /-- `READ_DELETED_DATA`. Index 0x0C, 9 command bytes, 7 result bytes (R166). -/
  | readDeletedData (opt : BitVec 3) (hdus c h r n eot gpl dtl : Byte)
  /-- `FORMAT_TRACK`. Index 0x0D, 6 command bytes, 7 result bytes (R162). -/
  | formatTrack (opt : BitVec 3) (hdus n sc gpl d : Byte)
  /-- `INVALID_0E`. Index 0x0E, 1 command bytes, 1 result bytes (R175). -/
  | invalid0E (opt : BitVec 3)
  /-- `SEEK`. Index 0x0F, 3 command bytes, 0 result bytes (R146). -/
  | seek (opt : BitVec 3) (hdus ncn : Byte)
  /-- `INVALID_10`. Index 0x10, 1 command bytes, 1 result bytes (R175). -/
  | invalid10 (opt : BitVec 3)
  /-- `SCAN_EQUAL`. Index 0x11, 9 command bytes, 7 result bytes (R168). -/
  | scanEqual (opt : BitVec 3) (hdus c h r n eot gpl dtl : Byte)
  /-- `INVALID_12`. Index 0x12, 1 command bytes, 1 result bytes (R175). -/
  | invalid12 (opt : BitVec 3)
  /-- `INVALID_13`. Index 0x13, 1 command bytes, 1 result bytes (R175). -/
  | invalid13 (opt : BitVec 3)
  /-- `INVALID_14`. Index 0x14, 1 command bytes, 1 result bytes (R175). -/
  | invalid14 (opt : BitVec 3)
  /-- `INVALID_15`. Index 0x15, 1 command bytes, 1 result bytes (R175). -/
  | invalid15 (opt : BitVec 3)
  /-- `INVALID_16`. Index 0x16, 1 command bytes, 1 result bytes (R175). -/
  | invalid16 (opt : BitVec 3)
  /-- `INVALID_17`. Index 0x17, 1 command bytes, 1 result bytes (R175). -/
  | invalid17 (opt : BitVec 3)
  /-- `INVALID_18`. Index 0x18, 1 command bytes, 1 result bytes (R175). -/
  | invalid18 (opt : BitVec 3)
  /-- `SCAN_LOW_OR_EQUAL`. Index 0x19, 9 command bytes, 7 result bytes (R169). -/
  | scanLowOrEqual (opt : BitVec 3) (hdus c h r n eot gpl dtl : Byte)
  /-- `INVALID_1A`. Index 0x1A, 1 command bytes, 1 result bytes (R175). -/
  | invalid1A (opt : BitVec 3)
  /-- `INVALID_1B`. Index 0x1B, 1 command bytes, 1 result bytes (R175). -/
  | invalid1B (opt : BitVec 3)
  /-- `INVALID_1C`. Index 0x1C, 1 command bytes, 1 result bytes (R175). -/
  | invalid1C (opt : BitVec 3)
  /-- `SCAN_HIGH_OR_EQUAL`. Index 0x1D, 9 command bytes, 7 result bytes (R170). -/
  | scanHighOrEqual (opt : BitVec 3) (hdus c h r n eot gpl dtl : Byte)
  /-- `INVALID_1E`. Index 0x1E, 1 command bytes, 1 result bytes (R175). -/
  | invalid1E (opt : BitVec 3)
  /-- `INVALID_1F`. Index 0x1F, 1 command bytes, 1 result bytes (R175). -/
  | invalid1F (opt : BitVec 3)
deriving DecidableEq, Repr

/-- The two encoded forms of R80. -/
inductive Encoded where
  /-- A bus operation word W[11] p[10:8] d[7:0] (R81). -/
  | bus (w : BitVec 12)
  /-- Bytes for port 5, in the order they are written (R82, R90). -/
  | command (bytes : List Byte)
deriving DecidableEq, Repr

/-- The geometry record of R200, the input of the walker and parser. -/
structure Geometry where
  bps : Nat
  spc : Nat
  rsv : Nat
  nfat : Nat
  rootEnt : Nat
  spf : Nat
  rootDirSectors : Nat
  fatStart : Nat
  rootStart : Nat
  dataStart : Nat
  bytesPerCluster : Nat
  totalClusters : Nat
deriving DecidableEq, Repr

/-- The host's calls of the codec, walker and parser (R12). A geometry record and a FAT buffer are
whatever the host passes: no register holds them between calls (R200). -/
inductive FatCall where
  /-- `LoadGeometry()` (R201). -/
  | loadGeometry
  /-- `FatBuffer(g)` (R203). -/
  | fatBuffer (g : Geometry)
  /-- `ReadEntry(fat, c)` (R210). -/
  | readEntry (fat : List Byte) (c : Nat)
  /-- `WriteEntry(fat, c, v)` (R211). -/
  | writeEntry (fat : List Byte) (c v : Nat)
  /-- `ReadChain(g, fat, start)` (R231). -/
  | readChain (g : Geometry) (fat : List Byte) (start : Nat)
  /-- `Allocate(g, fat, count)` (R233). -/
  | allocate (g : Geometry) (fat : List Byte) (count : Nat)
  /-- `FreeClusters(g, fat)` (R234). -/
  | freeClusters (g : Geometry) (fat : List Byte)
  /-- `ParseDirectory(g, fat, raw, depth)` (R251). -/
  | parseDirectory (g : Geometry) (fat raw : List Byte) (depth : Nat)
  /-- `BuildTree()` with the `diskName` the host supplies (R265). -/
  | buildTree (diskName : List U16)
deriving DecidableEq, Repr

/-- The bytes of an image file: how many, and those that may differ from 0x00 (log 10, log 11). -/
structure ImageFile where
  size : Nat
  bytes : List (Nat × Byte)
deriving DecidableEq, Repr

/-- The host agent's operations (R12). -/
inductive HostOp where
  /-- `Load(bytes)` of a file the host could open (R335). -/
  | load (file : ImageFile)
  /-- `Load` of a path the host cannot open (R337). -/
  | loadFailed
  /-- `Eject()` (R336, R338). -/
  | eject
  /-- `HardReset()` (R330). -/
  | hardReset
  /-- A mutating operation asks the exclusion gate whether it may run (R312). -/
  | mutationGate
  /-- A FAT12 query (R7). -/
  | fat (call : FatCall)
deriving DecidableEq, Repr

/-- One request of an agent: a step still to be taken (R6, R12, log 1). -/
inductive Request where
  | cpu (code : Encoded)
  | host (op : HostOp)
deriving DecidableEq, Repr

end Sys2Proof
end

