-- ==== Sys2Proof/WellFormed.lean ====
section
/-! DEFINITION. Well-formedness: the form R81 gives the word of a read, the capacities R25 and R26 give
a command table, and the offsets of an image file. Everything else is well formed by its type. -/

namespace Sys2Proof

/-- R81: the data field of a read is "0 for a read". The machine runs the other read words too (every
one of the 4096 words is valid, log 14). -/
def Instr.wf : Instr → Bool
  | .in0 d | .in1 d | .in2 d | .in3 d | .in4 d | .in5 d | .in6 d | .in7 d => d == 0
  | _ => true

/-- R25, R26: the counts of an entry fit the command buffer and the result buffer. -/
def TableEntry.wf (e : TableEntry) : Bool :=
  decide (e.cmdLen ≤ Config.cmdBufBytes) && decide (e.resLen ≤ Config.resBufBytes)

/-- Every entry of the command table fits the buffers. -/
def CommandTable.wf (t : Vector TableEntry 32) : Bool := t.toList.all TableEntry.wf

/-- Every listed byte of an image file lies inside it (R40: `size = len(img)`). -/
def ImageFile.wf (f : ImageFile) : Bool := f.bytes.all fun c => decide (c.1 < f.size)

end Sys2Proof
end

