-- ==== Sys2Proof/Decode.lean ====
section
/-! DEFINITION. The decoder and the encoder of both encoded forms (30_encoding.md R80): bus operation
words (R81) and command byte sequences (R82 to R86). -/

namespace Sys2Proof

/-- Why bytes are not a command sequence (R82, R83). -/
inductive DecodeError where
  /-- There is no command byte. -/
  | empty
  /-- The bytes end before the parameter bytes that the command byte `cmd` asks for. -/
  | truncated (cmd : Byte)
deriving DecidableEq, Repr

/-- R81, bits [11:8]: W and p. -/
def busSelector (w : BitVec 12) : BitVec 4 := w.extractLsb' 8 4

/-- R81, bits [7:0]: the byte written. -/
def busData (w : BitVec 12) : Byte := w.extractLsb' 0 8

/-- R81: the word of W and p (together `sel`) and the data byte. -/
def busWord (sel : BitVec 4) (d : Byte) : BitVec 12 := sel ++ d

/-- R82, bits [4:0] of a command byte: the table index. -/
def cmdIndex (b : Byte) : BitVec 5 := b.extractLsb' 0 5

/-- R82, bits [7:5] of a command byte: the option bits, which take no part in selection. -/
def cmdOpt (b : Byte) : BitVec 3 := b.extractLsb' 5 3

/-- R82: the command byte of an index and option bits. -/
def cmdByte (opt : BitVec 3) (idx : BitVec 5) : Byte := opt ++ idx

/-- R81: the bus operation a word stands for; each of the 4096 words is valid. -/
def decodeBus (w : BitVec 12) : Instr :=
  let d := busData w
  match (busSelector w).toNat with
  | 0x0 => .in0 d
  | 0x1 => .in1 d
  | 0x2 => .in2 d
  | 0x3 => .in3 d
  | 0x4 => .in4 d
  | 0x5 => .in5 d
  | 0x6 => .in6 d
  | 0x7 => .in7 d
  | 0x8 => .out0 d
  | 0x9 => .out1 d
  | 0xA => .out2 d
  | 0xB => .out3 d
  | 0xC => .out4 d
  | 0xD => .out5 d
  | 0xE => .out6 d
  | _ => .out7 d

/-- One parameter byte (R85), and the bytes after it. -/
def take1 (b : Byte) (ps : List Byte) (f : Byte → Instr) : Except DecodeError (Instr × List Byte) :=
  match ps with
  | p1 :: rest => .ok (f p1, rest)
  | _ => .error (.truncated b)

/-- Two parameter bytes (R85), and the bytes after them. -/
def take2 (b : Byte) (ps : List Byte) (f : Byte → Byte → Instr) :
    Except DecodeError (Instr × List Byte) :=
  match ps with
  | p1 :: p2 :: rest => .ok (f p1 p2, rest)
  | _ => .error (.truncated b)

/-- Five parameter bytes (R85), and the bytes after them. -/
def take5 (b : Byte) (ps : List Byte) (f : Byte → Byte → Byte → Byte → Byte → Instr) :
    Except DecodeError (Instr × List Byte) :=
  match ps with
  | p1 :: p2 :: p3 :: p4 :: p5 :: rest => .ok (f p1 p2 p3 p4 p5, rest)
  | _ => .error (.truncated b)

/-- Eight parameter bytes (R85), and the bytes after them. -/
def take8 (b : Byte) (ps : List Byte)
    (f : Byte → Byte → Byte → Byte → Byte → Byte → Byte → Byte → Instr) :
    Except DecodeError (Instr × List Byte) :=
  match ps with
  | p1 :: p2 :: p3 :: p4 :: p5 :: p6 :: p7 :: p8 :: rest => .ok (f p1 p2 p3 p4 p5 p6 p7 p8, rest)
  | _ => .error (.truncated b)

/-- R82, R83: the first command of a byte sequence and the bytes after it. The length is a function of
the index alone (R89): the counts of the default table of R84, which the opcode table lists. -/
def decodeCommand : List Byte → Except DecodeError (Instr × List Byte)
  | [] => .error .empty
  | b :: ps =>
    let opt := cmdOpt b
    match (cmdIndex b).toNat with
    | 0x00 => .ok (.invalid00 opt, ps)
    | 0x01 => .ok (.invalid01 opt, ps)
    | 0x02 => take8 b ps (.readTrack opt)
    | 0x03 => take2 b ps (.specify opt)
    | 0x04 => take1 b ps (.senseDriveStatus opt)
    | 0x05 => take8 b ps (.writeData opt)
    | 0x06 => take8 b ps (.readData opt)
    | 0x07 => take1 b ps (.recalibrate opt)
    | 0x08 => .ok (.senseInterruptStatus opt, ps)
    | 0x09 => take8 b ps (.writeDeletedData opt)
    | 0x0A => take1 b ps (.readId opt)
    | 0x0B => .ok (.invalid0B opt, ps)
    | 0x0C => take8 b ps (.readDeletedData opt)
    | 0x0D => take5 b ps (.formatTrack opt)
    | 0x0E => .ok (.invalid0E opt, ps)
    | 0x0F => take2 b ps (.seek opt)
    | 0x10 => .ok (.invalid10 opt, ps)
    | 0x11 => take8 b ps (.scanEqual opt)
    | 0x12 => .ok (.invalid12 opt, ps)
    | 0x13 => .ok (.invalid13 opt, ps)
    | 0x14 => .ok (.invalid14 opt, ps)
    | 0x15 => .ok (.invalid15 opt, ps)
    | 0x16 => .ok (.invalid16 opt, ps)
    | 0x17 => .ok (.invalid17 opt, ps)
    | 0x18 => .ok (.invalid18 opt, ps)
    | 0x19 => take8 b ps (.scanLowOrEqual opt)
    | 0x1A => .ok (.invalid1A opt, ps)
    | 0x1B => .ok (.invalid1B opt, ps)
    | 0x1C => .ok (.invalid1C opt, ps)
    | 0x1D => take8 b ps (.scanHighOrEqual opt)
    | 0x1E => .ok (.invalid1E opt, ps)
    | _ => .ok (.invalid1F opt, ps)

/-- The decoder of both forms: an instruction and, of a byte sequence, the bytes after it. -/
def decode : Encoded → Except DecodeError (Instr × List Byte)
  | .bus w => .ok (decodeBus w, [])
  | .command bs => decodeCommand bs

/-- The encoder (R81, R82, R85): the word of a bus operation, the bytes of a command. -/
def encode : Instr → Encoded
  | .in0 d => .bus (busWord 0x0#4 d)
  | .in1 d => .bus (busWord 0x1#4 d)
  | .out0 d => .bus (busWord 0x8#4 d)
  | .out1 d => .bus (busWord 0x9#4 d)
  | .in2 d => .bus (busWord 0x2#4 d)
  | .out2 d => .bus (busWord 0xA#4 d)
  | .in3 d => .bus (busWord 0x3#4 d)
  | .out3 d => .bus (busWord 0xB#4 d)
  | .in4 d => .bus (busWord 0x4#4 d)
  | .out4 d => .bus (busWord 0xC#4 d)
  | .in5 d => .bus (busWord 0x5#4 d)
  | .out5 d => .bus (busWord 0xD#4 d)
  | .in6 d => .bus (busWord 0x6#4 d)
  | .out6 d => .bus (busWord 0xE#4 d)
  | .in7 d => .bus (busWord 0x7#4 d)
  | .out7 d => .bus (busWord 0xF#4 d)
  | .invalid00 opt => .command [cmdByte opt 0x00#5]
  | .invalid01 opt => .command [cmdByte opt 0x01#5]
  | .readTrack opt hdus c h r n eot gpl dtl => .command [cmdByte opt 0x02#5, hdus, c, h, r, n, eot, gpl, dtl]
  | .specify opt srtHut hltNd => .command [cmdByte opt 0x03#5, srtHut, hltNd]
  | .senseDriveStatus opt hdus => .command [cmdByte opt 0x04#5, hdus]
  | .writeData opt hdus c h r n eot gpl dtl => .command [cmdByte opt 0x05#5, hdus, c, h, r, n, eot, gpl, dtl]
  | .readData opt hdus c h r n eot gpl dtl => .command [cmdByte opt 0x06#5, hdus, c, h, r, n, eot, gpl, dtl]
  | .recalibrate opt us => .command [cmdByte opt 0x07#5, us]
  | .senseInterruptStatus opt => .command [cmdByte opt 0x08#5]
  | .writeDeletedData opt hdus c h r n eot gpl dtl => .command [cmdByte opt 0x09#5, hdus, c, h, r, n, eot, gpl, dtl]
  | .readId opt hdus => .command [cmdByte opt 0x0A#5, hdus]
  | .invalid0B opt => .command [cmdByte opt 0x0B#5]
  | .readDeletedData opt hdus c h r n eot gpl dtl => .command [cmdByte opt 0x0C#5, hdus, c, h, r, n, eot, gpl, dtl]
  | .formatTrack opt hdus n sc gpl d => .command [cmdByte opt 0x0D#5, hdus, n, sc, gpl, d]
  | .invalid0E opt => .command [cmdByte opt 0x0E#5]
  | .seek opt hdus ncn => .command [cmdByte opt 0x0F#5, hdus, ncn]
  | .invalid10 opt => .command [cmdByte opt 0x10#5]
  | .scanEqual opt hdus c h r n eot gpl dtl => .command [cmdByte opt 0x11#5, hdus, c, h, r, n, eot, gpl, dtl]
  | .invalid12 opt => .command [cmdByte opt 0x12#5]
  | .invalid13 opt => .command [cmdByte opt 0x13#5]
  | .invalid14 opt => .command [cmdByte opt 0x14#5]
  | .invalid15 opt => .command [cmdByte opt 0x15#5]
  | .invalid16 opt => .command [cmdByte opt 0x16#5]
  | .invalid17 opt => .command [cmdByte opt 0x17#5]
  | .invalid18 opt => .command [cmdByte opt 0x18#5]
  | .scanLowOrEqual opt hdus c h r n eot gpl dtl => .command [cmdByte opt 0x19#5, hdus, c, h, r, n, eot, gpl, dtl]
  | .invalid1A opt => .command [cmdByte opt 0x1A#5]
  | .invalid1B opt => .command [cmdByte opt 0x1B#5]
  | .invalid1C opt => .command [cmdByte opt 0x1C#5]
  | .scanHighOrEqual opt hdus c h r n eot gpl dtl => .command [cmdByte opt 0x1D#5, hdus, c, h, r, n, eot, gpl, dtl]
  | .invalid1E opt => .command [cmdByte opt 0x1E#5]
  | .invalid1F opt => .command [cmdByte opt 0x1F#5]

/-- The instruction whose table row has `nbits` bits and whose bits are `w`, laid out as the block
receives it (log 15): a command row has 8 bits, its command byte, followed by eight parameter bytes of
0; a bus operation row has 16, the 12 bits of its word. -/
def layOut (nbits w : Nat) : Option Encoded :=
  if nbits ≤ 8 then
    if w < 256 then some (.command (BitVec.ofNat 8 w :: List.replicate 8 0)) else none
  else if w < 4096 then some (.bus (BitVec.ofNat 12 w)) else none

/-- The instruction the decoder reads from an instruction of the opcode table whose bits are `w`. -/
def decodeTableWord (nbits w : Nat) : Option Instr :=
  match layOut nbits w with
  | none => none
  | some code =>
    match decode code with
    | .ok (i, _) => some i
    | .error _ => none

end Sys2Proof
end

