-- ==== Sys2Proof/Machine/State.lean ====
section
/-! DEFINITION. The machine's state as plain data (10_state.md): FdcState, the media store, the outputs
of the step, the parameters of R9, the pending requests, and the state after power-on. -/

namespace Sys2Proof.Machine

/-- The phases of R23. -/
inductive Phase where
  | idle | command | execution | result
deriving DecidableEq, Repr

/-- The direction of the transfer window (R30). -/
inductive XferDir where
  | none | toHost | fromHost
deriving DecidableEq, Repr

/-- Output events of a step (R43, R307, R310, R311). -/
inductive Event where
  | irqRise | ioStarted | ioStopped | mediaLoaded | mediaEjected | flush
deriving DecidableEq, Repr

/-- FdcState: exactly the fields of R22. -/
structure FdcState where
  /-- R23. -/
  phase : Phase
  /-- R24: bytes received in Command, next result byte in Result, 0 otherwise. -/
  idx : Nat
  /-- R25. -/
  cmdBuf : Vector Byte 10
  /-- R26. -/
  resBuf : Vector Byte 8
  /-- R26. -/
  resLen : Nat
  /-- R27, R46. -/
  st0 : Byte
  /-- R27. -/
  st1 : Byte
  /-- R27. -/
  st2 : Byte
  /-- R27, R47. -/
  st3 : Byte
  /-- R28. -/
  lastCmd : Byte
  /-- R29: bytes of the transfer window not yet moved. -/
  pending : Nat
  /-- R30. -/
  xferDir : XferDir
  /-- R31: media offset of the next transfer; negative after a Write Data of a negative LBA. -/
  off : Int
  /-- R32. -/
  lba : Int
  /-- R33. -/
  curC : Byte
  /-- R33. -/
  curH : Byte
  /-- R33. -/
  curR : Byte
  /-- R33. -/
  curN : Byte
  /-- R34: the tracked cylinder. -/
  pcn : Byte
  /-- R35: the IRQ latch. -/
  irq : Bool
  /-- R36: non-DMA execution mode. -/
  nonDma : Bool
  /-- R49. -/
  dor : Byte
  /-- R51. -/
  speed : BitVec 2
  /-- R37: the value of "I/O active" last reported. -/
  activeReported : Bool
deriving DecidableEq, Repr

/-- The image bytes (R40, `img`): how many there are and those that are not 0x00, by rising offset
(log 10). -/
structure Memory where
  /-- `size = len(img)`. -/
  size : Nat
  /-- The non-zero bytes. -/
  cells : List Host.Cell
deriving DecidableEq, Repr

/-- What an offset that `cells` does not list reads as (log 10). -/
abbrev Memory.unlisted : Byte := 0

/-- The canonical form from offset `lo` on: offsets strictly rising and below `size`, no listed byte
equal to what an unlisted offset reads as. -/
def Memory.cellsWf (size : Nat) : Nat → List Host.Cell → Bool
  | _, [] => true
  | lo, c :: rest =>
    decide (lo ≤ c.1) && decide (c.1 < size) && (c.2 != Memory.unlisted) &&
      Memory.cellsWf size (c.1 + 1) rest

/-- The canonical form of an image. -/
def Memory.wf (m : Memory) : Bool := Memory.cellsWf m.size 0 m.cells

/-- The empty image (R40). -/
abbrev Memory.empty : Memory := ⟨0, []⟩

/-- The media store (R40). -/
structure MediaStore where
  present : Bool
  img : Memory
  /-- R42: the "media changed" latch. -/
  changed : Bool
deriving DecidableEq, Repr

/-- Kinds of node (R250). -/
inductive NodeKind where
  | disk | directory | file
deriving DecidableEq, Repr

/-- A node of R250 without its children. -/
structure NodeInfo where
  kind : NodeKind
  /-- 16-bit code units. -/
  name : List U16
  /-- A `u32` for files and directories, the image size for the disk (log 19). -/
  size : Nat
  firstCluster : U16
  /-- Text `YYYY-MM-DD HH:MM:SS`, as its characters. -/
  modified : Option (List Char)
  /-- Bytes, for the disk only. -/
  capacity : Option Nat
  /-- Bytes, for the disk only. -/
  free : Option Nat
deriving DecidableEq, Repr

/-- A list of nodes with their children (R250; log 19): `node i kids rest` is the list whose first node
is `i` with the children `kids`. -/
inductive Forest where
  | nil
  | node (info : NodeInfo) (children rest : Forest)
deriving DecidableEq, Repr

/-- What a step gives its agent (R12): the byte of a PortRead, the result of a host call. -/
inductive StepResult where
  | none
  | byte (v : Byte)
  | bool (b : Bool)
  | geometry (g : Option Geometry)
  | bytes (bs : Option (List Byte))
  | entry (v : Option U12)
  | clusters (cs : Option (List Nat))
  | count (n : Nat)
  | nodes (f : Forest)
  | tree (t : Option Forest)
deriving DecidableEq, Repr

/-- Reasons for a machine check. There are none: R300, "The block has no synchronous exception, trap or
fault". -/
inductive Fault : Type where
deriving DecidableEq, Repr

/-- Reasons to refuse an instruction. Only `exec`'s arms for instructions without a meaning would use
it; no arm does (safe: nothing is refused). -/
inductive Refusal where
  /-- Raised by an arm of `exec` whose instruction has no meaning. No arm raises it. Safe. -/
  | notModelled (mnemonic : String)
deriving DecidableEq, Repr

/-- The state of the machine. -/
structure State where
  /-- R22. -/
  fdc : FdcState
  /-- R40. -/
  media : MediaStore
  /-- R43: the output events of the last step, in order. -/
  events : List Event
  /-- R12: what the last step gave its agent (the model's own field, log 12). -/
  result : StepResult
  /-- R9: the parameters of this machine, never written (log 8). -/
  params : Params
  /-- How many free bytes have been drawn (the model's own field, log 7). -/
  draws : Nat
  /-- The steps the agents still take, first one first (the model's own field, log 1, log 3). -/
  inputs : List Request
deriving DecidableEq, Repr

/-- What the next request of the state is: nothing, an instruction, bytes too few for a command, or a
host operation; each with the state from which that request has been taken. -/
inductive Fetched where
  | nothing
  | instr (i : Instr) (s : State)
  | partialCommand (bytes : List Byte) (s : State)
  | host (op : HostOp) (s : State)
deriving DecidableEq, Repr

/-- FdcState at power-on: the `hard` column of R22 (R330), with `activeReported` false. -/
def FdcState.powerOn (p : Params) : FdcState :=
  { phase := .idle, idx := 0,
    cmdBuf := Vector.replicate 10 0, resBuf := Vector.replicate 8 0, resLen := 0,
    st0 := 0, st1 := 0, st2 := 0, st3 := 0, lastCmd := 0,
    pending := 0, xferDir := .none, off := 0, lba := 0,
    curC := 0, curH := 0, curR := 1, curN := 2,
    pcn := 0, irq := false, nonDma := p.resetNonDma, dor := 0x00, speed := 0,
    activeReported := false }

/-- The machine at power-on: R330 with R37's `false` for `activeReported`, the media store of R41, the
default parameters of R9, no request pending. -/
def State.reset : State :=
  { fdc := FdcState.powerOn Config.defaultParams,
    media := { present := false, img := Memory.empty, changed := false },
    events := [], result := .none, params := Config.defaultParams, draws := 0, inputs := [] }

end Sys2Proof.Machine
end

