-- ==== Sys2Proof/Machine/Operands.lean ====
section
/-! DEFINITION. Operand forms: the command table entry of a command byte (30_encoding.md R82 to R84), the
operand bytes of the command buffer (R85, R86), CHS translation (20_memory.md R69, R70) and the sector
advance (41_fdc_commands.md R151). -/

namespace Sys2Proof.Machine

/-- R82: the table entry that bits [4:0] of a command byte select. -/
def entryOf (p : Params) (cmd : Byte) : TableEntry := p.table[(cmdIndex cmd).toNat]'(cmdIndex cmd).isLt

/-- R83: the command-byte count; an entry with `cmdLen = 0` is treated as `cmdLen = 1`. -/
def cmdCount (e : TableEntry) : Nat := max e.cmdLen 1

/-- The command byte, `cmdBuf[0]` (R25). -/
def opCmd (f : FdcState) : Byte := f.cmdBuf[0]
/-- `cmdBuf[1]`: HDUS, SRT/HUT or US (R85). -/
def opHdus (f : FdcState) : Byte := f.cmdBuf[1]
/-- `cmdBuf[2]`: C of a data command, HLT/ND of Specify, NCN of Seek, N of Format Track (R85). -/
def opC (f : FdcState) : Byte := f.cmdBuf[2]
/-- `cmdBuf[3]`: H of a data command (R85). -/
def opH (f : FdcState) : Byte := f.cmdBuf[3]
/-- `cmdBuf[4]`: R of a data command (R85). -/
def opR (f : FdcState) : Byte := f.cmdBuf[4]
/-- `cmdBuf[5]`: N of a data command, D of Format Track (R85). -/
def opN (f : FdcState) : Byte := f.cmdBuf[5]

/-- HD and US of an HDUS byte, bits [2:0] (R85, R86). -/
def hdUs (b : Byte) : Byte := b &&& 0x07
/-- US of an HDUS byte, bits [1:0] (R85, R86). -/
def unitOf (b : Byte) : Byte := b &&& 0x03
/-- Specify's ND, bit 0 of its third byte (R86, R142). -/
def ndBit (b : Byte) : Bool := b.getLsbD 0

/-- R69: the LBA of a cylinder, head and sector, on `Int`. -/
def lbaOf (c h r : Byte) : Int := (c.toNat : Int) * 36 + (h.toNat : Int) * 18 + ((r.toNat : Int) - 1)

/-- R70: the clamp Read Data applies. -/
def clampRead (l : Int) : Int := min (max l 0) (Config.maxLba : Int)

/-- R151 on the numbers of the three bytes. -/
def advanceNat (c h r : Nat) : Nat × Nat × Nat :=
  if r + 1 > Config.spt then
    if h + 1 > Config.heads - 1 then
      if c + 1 > Config.cyls - 1 then (0, 0, 1) else (c + 1, 0, 1)
    else (c, h + 1, 1)
  else (c, h, r + 1)

/-- R151: the CHS of a following sector. -/
def advance (c h r : Byte) : Byte × Byte × Byte :=
  let a := advanceNat c.toNat h.toNat r.toNat
  (BitVec.ofNat 8 a.1, BitVec.ofNat 8 a.2.1, BitVec.ofNat 8 a.2.2)

end Sys2Proof.Machine
end

