-- ==== Sys2Proof/Machine/Flags.lean ====
section
/-! DEFINITION. Every status computation: the main status register (10_state.md R44), the one-bit status
bytes of ports 2, 3 and 7 (R48, R50), the values written to ST0 and ST3 (R46, R47, 41_fdc_commands.md
R144), and the two output levels (60_exceptions.md R307, R309). -/

namespace Sys2Proof.Machine

/-- R44, DIO: the next byte of the data register goes to the host. -/
def dioBit (f : FdcState) : Bool :=
  decide (f.phase = .result) || (decide (f.phase = .execution) && decide (f.xferDir = .toHost))

/-- R44: the main status register, computed from the state at the read. RQM is always 1 and no unit is
ever seek-busy. -/
def msr (f : FdcState) : Byte :=
  BitVec.ofBool true ++ BitVec.ofBool (dioBit f) ++ BitVec.ofBool (decide (f.phase = .execution)) ++
    BitVec.ofBool (decide (f.phase ≠ .idle)) ++ 0#4

/-- R48: one bit at `statusBitPos`, every other bit 0. -/
def statusByte (p : Params) (b : Bool) : Byte :=
  if b then 1#8 <<< p.statusBitPos.val else 0

/-- R48: DRQ. -/
def drq (f : FdcState) : Bool := decide (0 < f.pending)

/-- R46: ST0 after a command that ends normally, IC = 00. -/
def st0Normal (hdus : Byte) : Byte := hdUs hdus
/-- R46, R146: ST0 after Seek, SE = 1. -/
def st0Seek (hdus : Byte) : Byte := 0x20 ||| hdUs hdus
/-- R46, R145: ST0 after Recalibrate, SE = 1, HD not reported. -/
def st0Recalibrate (us : Byte) : Byte := 0x20 ||| unitOf us
/-- R46, R175: ST0 after an invalid command, IC = 10. -/
def st0Invalid : Byte := 0x80

/-- R47, R144: ST3 with TS = 1, T0 from the tracked cylinder and RY from the medium. -/
def st3Of (hdus pcn : Byte) (present : Bool) : Byte :=
  0x08 ||| hdUs hdus ||| (if pcn = 0 then 0x10 else 0x00) ||| (if present then 0x20 else 0x00)

/-- R309: "I/O active". -/
def ioActive (s : State) : Bool :=
  s.media.present && (decide (s.fdc.phase ≠ .idle) || decide (0 < s.fdc.pending))

/-- R307: the level of the interrupt output line. -/
def irqLine (s : State) : Bool := s.fdc.irq

/-- R312: a mutating FAT12 operation must be refused whenever `ioActive` is true. -/
def mutationAllowed (s : State) : Bool := !ioActive s

end Sys2Proof.Machine
end

