-- ==== Sys2Proof/Machine/Ops.lean ====
section
/-! DEFINITION. The shared operations: the frame of a step (events, result, activity rule of
60_exceptions.md R310), the interrupt latch (R304, R305), `draw()` (00_scope.md R11), the image bytes
and the FDC's media accesses (20_memory.md R62 to R64), and the resets (70_reset_and_hazards.md R330,
R332).

The block takes no exception and returns from none (R300, R313, R314): its whole part of an interrupt
is `setIrq`, whose acknowledgement is `clearIrq`. -/

namespace Sys2Proof.Machine

/-! ### The step's outputs -/

/-- `emit E` of R11. -/
def emit (e : Event) (s : State) : State := { s with events := s.events ++ [e] }

/-- The step gives its agent the value `r` (R12). -/
def answer (r : StepResult) (s : State) : State := { s with result := r }

/-- A step begins: no event and no result yet (R43, log 12). -/
def openStep (s : State) : State := { s with events := [], result := .none }

/-- R310: the activity rule. -/
def activityRule (s : State) : State :=
  if ioActive s = s.fdc.activeReported then s
  else
    { emit (if ioActive s then .ioStarted else .ioStopped) s with
      fdc := { s.fdc with activeReported := ioActive s } }

/-- One atomic step of an agent (R12): the access or operation, then the activity rule. -/
def atomically (body : State → State) (s : State) : State := activityRule (body (openStep s))

/-- `draw()` of R11 as the byte read: a fresh free byte (log 7). -/
def answerDraw (s : State) : State :=
  { s with result := .byte (Config.openBus s.draws), draws := s.draws + 1 }

/-! ### The interrupt latch -/

/-- R304. -/
def setIrq (s : State) : State :=
  { s with
    fdc := { s.fdc with irq := true },
    events := if s.fdc.irq then s.events else s.events ++ [.irqRise] }

/-- R305. -/
def clearIrq (s : State) : State := { s with fdc := { s.fdc with irq := false } }

/-! ### The image bytes -/

/-- The listed byte of an offset, or what an unlisted offset reads as. -/
def Memory.lookup : List Host.Cell → Nat → Byte
  | [], _ => Memory.unlisted
  | c :: rest, a => if a = c.1 then c.2 else Memory.lookup rest a

/-- `img[a]`, for `a` below the size. -/
def Memory.read (m : Memory) (a : Nat) : Byte := if a < m.size then Memory.lookup m.cells a else 0

/-- Write one byte into a rising list, keeping its canonical form: a byte equal to what an unlisted
offset reads as is not listed. -/
def Memory.insert (a : Nat) (v : Byte) : List Host.Cell → List Host.Cell
  | [] => if v = Memory.unlisted then [] else [(a, v)]
  | c :: rest =>
    if a < c.1 then (if v = Memory.unlisted then c :: rest else (a, v) :: c :: rest)
    else if a = c.1 then (if v = Memory.unlisted then rest else (a, v) :: rest)
    else c :: Memory.insert a v rest

/-- `img[a] <- v`; the image never grows (R63). -/
def Memory.write (m : Memory) (a : Nat) (v : Byte) : Memory :=
  if a < m.size then { m with cells := Memory.insert a v m.cells } else m

/-- The image of a file the host loads (R335): bytes it lists outside its size do not exist. -/
def Memory.ofFile (f : ImageFile) : Memory :=
  f.bytes.foldl (fun m c => m.write c.1 c.2) { size := f.size, cells := [] }

/-- The file whose bytes are `bs`. -/
def ImageFile.ofBytes (bs : List Byte) : ImageFile :=
  { size := bs.length, bytes := bs.zipIdx.map fun x => (x.2, x.1) }

/-- The bytes of the image in order (R40). -/
def Memory.toBytes (m : Memory) : List Byte := (List.range m.size).map m.read

/-! ### Media accesses -/

/-- The offset names a byte of the image. -/
def inImage (s : State) (off : Int) : Bool := decide (0 ≤ off) && decide (off < (s.media.img.size : Int))

/-- A media access with no medium sets the "media changed" latch (R42). -/
def latchChanged (s : State) : State := { s with media := { s.media with changed := true } }

/-- R62: the byte `MemRead(off, 1)` returns. -/
def memReadByte (off : Int) (s : State) : Byte :=
  if s.media.present && inImage s off then s.media.img.read off.toNat else 0x00

/-- R62: the state after `MemRead(off, 1)`. -/
def memReadState (s : State) : State := if s.media.present then s else latchChanged s

/-- R63: `MemWrite(off, 1, v)`. -/
def memWrite (off : Int) (v : Byte) (s : State) : State :=
  if s.media.present then
    if inImage s off then { s with media := { s.media with img := s.media.img.write off.toNat v } } else s
  else latchChanged s

/-- The same byte written at `n` offsets from `off` on, in rising order (R162). -/
def memFill (off : Int) (v : Byte) (n : Nat) (s : State) : State :=
  (List.range n).foldl (fun s i => memWrite (off + (i : Int)) v s) s

/-- `Flush` when a medium is present (R120, R162, R73). -/
def flushMedium (s : State) : State := if s.media.present then emit .flush s else s

/-- R64: `RangeRead(off, n)` of the FAT12 units. -/
def rangeRead (m : MediaStore) (off : Int) (n : Nat) : Option (List Byte) :=
  if m.present && decide (0 ≤ off) && decide (off + (n : Int) ≤ (m.img.size : Int)) then
    some ((List.range n).map fun i => m.img.read (off.toNat + i))
  else none

/-! ### Resets -/

/-- R332: the fields of the `soft` column of R22 that are not `keep`. -/
def softReset (s : State) : State :=
  { s with fdc := { s.fdc with
      phase := .idle, idx := 0, cmdBuf := Vector.replicate 10 0, resBuf := Vector.replicate 8 0,
      resLen := 0, pending := 0, xferDir := .none, off := 0 } }

/-- R330, R331: the `hard` column of R22; `activeReported` and the media store are kept. -/
def hardReset (s : State) : State :=
  { s with fdc := { FdcState.powerOn s.params with activeReported := s.fdc.activeReported } }

end Sys2Proof.Machine
end

