-- ==== Sys2Proof/Machine/Transfer.lean ====
section
/-! DEFINITION. The transfer window and the phase transitions it causes (40_fdc_ports.md): ExecDone R118,
XferStep R120, StubAccess R122, ResultDrained R116. -/

namespace Sys2Proof.Machine

/-- R118: Execution to Result (to Idle where there is no result byte). -/
def execDone (s : State) : State :=
  let s := setIrq s
  { s with fdc := { s.fdc with
      idx := 0, phase := if s.fdc.resLen = 0 then .idle else .result } }

/-- R120 after the byte has moved: the counters, and the end of the window. -/
def moveWindow (dir : XferDir) (s : State) : State :=
  let s := { s with fdc := { s.fdc with off := s.fdc.off + 1, pending := s.fdc.pending - 1 } }
  if s.fdc.pending = 0 then
    let s := if dir = .fromHost then flushMedium s else s
    if s.fdc.phase = .execution then execDone s else s
  else s

/-- R120, `XferStep(s, ToHost, 0)`: one media byte goes to the host. -/
def xferToHost (s : State) : State :=
  moveWindow .toHost (answer (.byte (memReadByte s.fdc.off s)) (memReadState s))

/-- R120, `XferStep(s, FromHost, v)`: one byte goes to the media. -/
def xferFromHost (v : Byte) (s : State) : State :=
  moveWindow .fromHost (memWrite s.fdc.off v s)

/-- R122: a data-port read while a stub's Execution phase holds no window. -/
def stubRead (s : State) : State := execDone (answerDraw s)

/-- R122: a data-port write while a stub's Execution phase holds no window. -/
def stubWrite (s : State) : State := execDone s

/-- R116: Result to Idle, and the latch is cleared. -/
def resultDrained (s : State) : State :=
  clearIrq { s with fdc := { s.fdc with phase := .idle, idx := 0 } }

/-- The byte of `resBuf[idx]`; past the buffer's end, which no run reaches, a free byte (log 16). -/
def answerResult (s : State) : State :=
  match s.fdc.resBuf[s.fdc.idx]? with
  | some v => answer (.byte v) s
  | none => answerDraw s

/-- R115: the next result byte. -/
def readResult (s : State) : State :=
  let s := answerResult s
  let s := { s with fdc := { s.fdc with idx := s.fdc.idx + 1 } }
  if s.fdc.idx = s.fdc.resLen then resultDrained s else s

end Sys2Proof.Machine
end

