-- ==== Sys2Proof/Machine/Handlers.lean ====
section
/-! DEFINITION. The command handlers of 41_fdc_commands.md (R140 to R175) and the command byte and
parameter byte accesses that reach them (40_fdc_ports.md R110, R111). -/

namespace Sys2Proof.Machine

/-- R141: `Conclude(s, next, setIrq)`. -/
def conclude (next : Phase) (raise : Bool) (s : State) : State :=
  let s := if raise then setIrq s else s
  { s with fdc := { s.fdc with
      idx := 0,
      phase :=
        if next = .execution then .execution
        else if next = .idle ∨ s.fdc.resLen = 0 then .idle
        else .result } }

/-- The phase a data command asks for: Execution in non-DMA mode, Result in DMA mode (R150, R152,
R164). -/
def dataPhase (f : FdcState) : Phase := if f.nonDma then .execution else .result

/-- ST0, ST1, ST2 of a command that ends normally (R46, R150). -/
def withNormalStatus (f : FdcState) : FdcState :=
  { f with st0 := st0Normal (opHdus f), st1 := 0, st2 := 0 }

/-- `resBuf[0..6]` of R87: ST0, ST1 = 0, ST2 = 0 and four address bytes; `resBuf[7]` is kept. -/
def withSevenResults (c h r n : Byte) (f : FdcState) : FdcState :=
  { f with
    resBuf :=
      ((((((f.resBuf.set 0 f.st0).set 1 0x00).set 2 0x00).set 3 c).set 4 h).set 5 r).set 6 n }

/-- R142. -/
def handleSpecify (s : State) : State :=
  conclude .result false { s with fdc := { s.fdc with nonDma := ndBit (opC s.fdc) } }

/-- R143. -/
def handleSenseInterruptStatus (s : State) : State :=
  let s := clearIrq s
  conclude .result false
    { s with fdc := { s.fdc with resBuf := (s.fdc.resBuf.set 0 s.fdc.st0).set 1 s.fdc.pcn } }

/-- R144. -/
def handleSenseDriveStatus (s : State) : State :=
  let v := st3Of (opHdus s.fdc) s.fdc.pcn s.media.present
  conclude .result false { s with fdc := { s.fdc with st3 := v, resBuf := s.fdc.resBuf.set 0 v } }

/-- R145. -/
def handleRecalibrate (s : State) : State :=
  conclude .idle true { s with fdc := { s.fdc with pcn := 0, st0 := st0Recalibrate (opHdus s.fdc) } }

/-- R146. -/
def handleSeek (s : State) : State :=
  conclude .idle true
    { s with fdc := { s.fdc with pcn := opC s.fdc, st0 := st0Seek (opHdus s.fdc) } }

/-- R150, R152: open a 512-byte window at the sector `l`, and advance the CHS registers. -/
def openWindow (dir : XferDir) (l : Int) (f : FdcState) : FdcState :=
  let a := advance (opC f) (opH f) (opR f)
  let f := { f with
    lba := l, off := l * (Config.sectorBytes : Int), pending := Config.sectorBytes, xferDir := dir,
    curC := a.1, curH := a.2.1, curR := a.2.2, curN := opN f }
  let f := withNormalStatus f
  withSevenResults f.curC f.curH f.curR f.curN f

/-- R150. -/
def handleReadData (s : State) : State :=
  conclude (dataPhase s.fdc) true
    { s with fdc :=
      openWindow .toHost (clampRead (lbaOf (opC s.fdc) (opH s.fdc) (opR s.fdc))) s.fdc }

/-- R152: the LBA is not clamped. -/
def handleWriteData (s : State) : State :=
  conclude (dataPhase s.fdc) true
    { s with fdc := openWindow .fromHost (lbaOf (opC s.fdc) (opH s.fdc) (opR s.fdc)) s.fdc }

/-- R160. -/
def handleReadId (s : State) : State :=
  if s.media.present then
    let f := withNormalStatus s.fdc
    conclude .result true { s with fdc := withSevenResults f.curC f.curH f.curR f.curN f }
  else conclude .idle false { s with fdc := { s.fdc with resLen := 0 } }

/-- R162. -/
def handleFormatTrack (s : State) : State :=
  let s := memFill (s.fdc.lba * (Config.sectorBytes : Int)) (opN s.fdc) Config.sectorBytes s
  let s := flushMedium s
  let f := withNormalStatus s.fdc
  conclude .result true { s with fdc := withSevenResults f.curC f.curH f.curR (opC f) f }

/-- R164: `Stub(s, dir)`. -/
def handleStub (dir : XferDir) (s : State) : State :=
  let f := withNormalStatus { s.fdc with xferDir := dir, pending := 0 }
  conclude (dataPhase s.fdc) true
    { s with fdc := withSevenResults (opC f) (opH f) (opR f) (opN f) f }

/-- R165. -/
def handleReadTrack (s : State) : State := handleStub .toHost s
/-- R166. -/
def handleReadDeletedData (s : State) : State := handleStub .toHost s
/-- R167. -/
def handleWriteDeletedData (s : State) : State := handleStub .fromHost s
/-- R168. -/
def handleScanEqual (s : State) : State := handleStub .fromHost s
/-- R169. -/
def handleScanLowOrEqual (s : State) : State := handleStub .fromHost s
/-- R170. -/
def handleScanHighOrEqual (s : State) : State := handleStub .fromHost s

/-- R175. -/
def handleInvalid (s : State) : State :=
  conclude .result false
    { s with fdc := { s.fdc with st0 := st0Invalid, resBuf := s.fdc.resBuf.set 0 st0Invalid } }

/-- The action of a handler. -/
def handle : Handler → State → State
  | .readTrack => handleReadTrack
  | .specify => handleSpecify
  | .senseDriveStatus => handleSenseDriveStatus
  | .writeData => handleWriteData
  | .readData => handleReadData
  | .recalibrate => handleRecalibrate
  | .senseInterruptStatus => handleSenseInterruptStatus
  | .writeDeletedData => handleWriteDeletedData
  | .readId => handleReadId
  | .readDeletedData => handleReadDeletedData
  | .formatTrack => handleFormatTrack
  | .seek => handleSeek
  | .scanEqual => handleScanEqual
  | .scanLowOrEqual => handleScanLowOrEqual
  | .scanHighOrEqual => handleScanHighOrEqual
  | .invalid => handleInvalid

/-- R140. -/
def runHandler (s : State) : State :=
  let e := entryOf s.params (opCmd s.fdc)
  handle e.handler { s with fdc := { s.fdc with lastCmd := opCmd s.fdc, resLen := e.resLen } }

/-- R110: a command byte is stored and Command phase begins. -/
def receiveCommand (v : Byte) (s : State) : State :=
  { s with fdc := { s.fdc with cmdBuf := s.fdc.cmdBuf.set 0 v, phase := .command, idx := 1 } }

/-- R110: a command byte. -/
def commandByte (v : Byte) (s : State) : State :=
  if (entryOf s.params v).cmdLen ≤ 1 then runHandler (receiveCommand v s) else receiveCommand v s

/-- R111: a parameter byte is stored. A byte past the buffer's end, which no run reaches, is dropped
(log 16). -/
def receiveParameter (v : Byte) (s : State) : State :=
  { s with fdc := { s.fdc with
    cmdBuf := s.fdc.cmdBuf.setIfInBounds s.fdc.idx v, idx := s.fdc.idx + 1 } }

/-- R111: all bytes of the command are in the buffer. -/
def commandComplete (s : State) : Bool :=
  decide (s.fdc.idx = cmdCount (entryOf s.params (opCmd s.fdc)))

/-- R111: a parameter byte. -/
def parameterByte (v : Byte) (s : State) : State :=
  if commandComplete (receiveParameter v s) then runHandler (receiveParameter v s)
  else receiveParameter v s

end Sys2Proof.Machine
end

