-- ==== Sys2Proof/Machine/Ports.lean ====
section
/-! DEFINITION. The sixteen bus operations (40_fdc_ports.md R100 to R123): what each access does to the
state, and the meaning of each as one atomic step. -/

namespace Sys2Proof.Machine

/-- R122: the FDC stands in a stub's Execution phase, with no window. -/
def inStub (f : FdcState) : Bool := decide (f.phase = .execution) && decide (f.pending = 0)

/-- A window is pending in the direction `dir` (R101, R102). -/
def windowPending (dir : XferDir) (f : FdcState) : Bool :=
  decide (0 < f.pending) && decide (f.xferDir = dir)

/-- R101: a DMA data read. -/
def dataPortRead (s : State) : State :=
  if inStub s.fdc then stubRead s
  else if windowPending .toHost s.fdc then xferToHost s
  else answerDraw s

/-- R102: a DMA data write. -/
def dataPortWrite (v : Byte) (s : State) : State :=
  if inStub s.fdc then stubWrite s
  else if windowPending .fromHost s.fdc then xferFromHost v s
  else s

/-- R103. -/
def drqRead (s : State) : State := answer (.byte (statusByte s.params (drq s.fdc))) s

/-- R104, R49, R333. -/
def dorWrite (v : Byte) (s : State) : State :=
  let s := { s with fdc := { s.fdc with dor := v } }
  if v.getLsbD 2 then s else softReset s

/-- R105: the latch is not cleared. -/
def irqRead (s : State) : State := answer (.byte (statusByte s.params s.fdc.irq)) s

/-- R109. -/
def msrRead (s : State) : State := answer (.byte (msr s.fdc)) s

/-- R106, R52, R333. -/
def pinResetWrite (v : Byte) (s : State) : State := if v.getLsbD 7 then softReset s else s

/-- R114: port 5 read in Execution phase. -/
def executionRead (s : State) : State :=
  if s.fdc.pending = 0 then stubRead s
  else if s.fdc.xferDir = .toHost then xferToHost s
  else answerDraw s

/-- R114, R115, R117: port 5 read, by phase. -/
def dataRegisterRead (s : State) : State :=
  match s.fdc.phase with
  | .idle => answerDraw s
  | .command => answerDraw s
  | .execution => executionRead s
  | .result => readResult s

/-- R112: port 5 write in Execution phase. -/
def executionWrite (v : Byte) (s : State) : State :=
  if s.fdc.pending = 0 then stubWrite s
  else if s.fdc.xferDir = .fromHost then xferFromHost v s
  else s

/-- R110 to R113: port 5 write, by phase. -/
def dataRegisterWrite (v : Byte) (s : State) : State :=
  match s.fdc.phase with
  | .idle => commandByte v s
  | .command => parameterByte v s
  | .execution => executionWrite v s
  | .result => s

/-- R107. -/
def mediaChangedRead (s : State) : State :=
  { answer (.byte (statusByte s.params s.media.changed)) s with
    media := { s.media with changed := false } }

/-- R121, R51. -/
def speedWrite (v : Byte) (s : State) : State :=
  { s with fdc := { s.fdc with speed := v.extractLsb' 0 2 } }

/-! ### The meanings -/

/-- `IN_0` (R101). The word's data field is read by no rule (R81, log 14). -/
def execIn0 (_d : Byte) (s : State) : Host.Outcome State Fault Refusal :=
  .next (atomically dataPortRead s)
/-- `IN_1` (R101). -/
def execIn1 (_d : Byte) (s : State) : Host.Outcome State Fault Refusal :=
  .next (atomically dataPortRead s)
/-- `OUT_0` (R102). -/
def execOut0 (d : Byte) (s : State) : Host.Outcome State Fault Refusal :=
  .next (atomically (dataPortWrite d) s)
/-- `OUT_1` (R102). -/
def execOut1 (d : Byte) (s : State) : Host.Outcome State Fault Refusal :=
  .next (atomically (dataPortWrite d) s)
/-- `IN_2` (R103). -/
def execIn2 (_d : Byte) (s : State) : Host.Outcome State Fault Refusal :=
  .next (atomically drqRead s)
/-- `OUT_2` (R104). -/
def execOut2 (d : Byte) (s : State) : Host.Outcome State Fault Refusal :=
  .next (atomically (dorWrite d) s)
/-- `IN_3` (R105). -/
def execIn3 (_d : Byte) (s : State) : Host.Outcome State Fault Refusal :=
  .next (atomically irqRead s)
/-- `OUT_3` (R108): no effect. -/
def execOut3 (_d : Byte) (s : State) : Host.Outcome State Fault Refusal :=
  .next (atomically (fun s => s) s)
/-- `IN_4` (R109). -/
def execIn4 (_d : Byte) (s : State) : Host.Outcome State Fault Refusal :=
  .next (atomically msrRead s)
/-- `OUT_4` (R106). -/
def execOut4 (d : Byte) (s : State) : Host.Outcome State Fault Refusal :=
  .next (atomically (pinResetWrite d) s)
/-- `IN_5` (R114, R115, R117). -/
def execIn5 (_d : Byte) (s : State) : Host.Outcome State Fault Refusal :=
  .next (atomically dataRegisterRead s)
/-- `OUT_5` (R110 to R113). -/
def execOut5 (d : Byte) (s : State) : Host.Outcome State Fault Refusal :=
  .next (atomically (dataRegisterWrite d) s)
/-- `IN_6` (R119): a free byte. -/
def execIn6 (_d : Byte) (s : State) : Host.Outcome State Fault Refusal :=
  .next (atomically answerDraw s)
/-- `OUT_6` (R119): no effect. -/
def execOut6 (_d : Byte) (s : State) : Host.Outcome State Fault Refusal :=
  .next (atomically (fun s => s) s)
/-- `IN_7` (R107). -/
def execIn7 (_d : Byte) (s : State) : Host.Outcome State Fault Refusal :=
  .next (atomically mediaChangedRead s)
/-- `OUT_7` (R121). -/
def execOut7 (d : Byte) (s : State) : Host.Outcome State Fault Refusal :=
  .next (atomically (speedWrite d) s)

end Sys2Proof.Machine
end

