-- ==== Sys2Proof/Machine/Commands.lean ====
section
/-! DEFINITION. The thirty-two command rows: each is the command's byte sequence (30_encoding.md R82, R84,
R85) written to port 5 as `CMD b0, ..., bn` of R90 expands, one port access a byte. In Idle phase the
last byte runs the handler of 41_fdc_commands.md; in another phase each byte does what R111 to R113
give a write there (log 4). -/

namespace Sys2Proof.Machine

/-- One byte of a sequence: a port 5 write and the activity rule after it (R12, R90, R310). -/
def writeByte (s : State) (v : Byte) : State := activityRule (dataRegisterWrite v s)

/-- The bytes of a sequence, written to port 5 in order. -/
def issue (bytes : List Byte) (s : State) : State := bytes.foldl writeByte (openStep s)

/-- `INVALID_00` (R175): its 1 byte written to port 5. -/
def execInvalid00 (opt : BitVec 3) (s : State) :
    Host.Outcome State Fault Refusal :=
  .next (issue [cmdByte opt 0x00#5] s)

/-- `INVALID_01` (R175): its 1 byte written to port 5. -/
def execInvalid01 (opt : BitVec 3) (s : State) :
    Host.Outcome State Fault Refusal :=
  .next (issue [cmdByte opt 0x01#5] s)

/-- `READ_TRACK` (R164, R165): its 9 bytes written to port 5. -/
def execReadTrack (opt : BitVec 3) (hdus c h r n eot gpl dtl : Byte) (s : State) :
    Host.Outcome State Fault Refusal :=
  .next (issue [cmdByte opt 0x02#5, hdus, c, h, r, n, eot, gpl, dtl] s)

/-- `SPECIFY` (R142): its 3 bytes written to port 5. -/
def execSpecify (opt : BitVec 3) (srtHut hltNd : Byte) (s : State) :
    Host.Outcome State Fault Refusal :=
  .next (issue [cmdByte opt 0x03#5, srtHut, hltNd] s)

/-- `SENSE_DRIVE_STATUS` (R144): its 2 bytes written to port 5. -/
def execSenseDriveStatus (opt : BitVec 3) (hdus : Byte) (s : State) :
    Host.Outcome State Fault Refusal :=
  .next (issue [cmdByte opt 0x04#5, hdus] s)

/-- `WRITE_DATA` (R152): its 9 bytes written to port 5. -/
def execWriteData (opt : BitVec 3) (hdus c h r n eot gpl dtl : Byte) (s : State) :
    Host.Outcome State Fault Refusal :=
  .next (issue [cmdByte opt 0x05#5, hdus, c, h, r, n, eot, gpl, dtl] s)

/-- `READ_DATA` (R150): its 9 bytes written to port 5. -/
def execReadData (opt : BitVec 3) (hdus c h r n eot gpl dtl : Byte) (s : State) :
    Host.Outcome State Fault Refusal :=
  .next (issue [cmdByte opt 0x06#5, hdus, c, h, r, n, eot, gpl, dtl] s)

/-- `RECALIBRATE` (R145): its 2 bytes written to port 5. -/
def execRecalibrate (opt : BitVec 3) (us : Byte) (s : State) :
    Host.Outcome State Fault Refusal :=
  .next (issue [cmdByte opt 0x07#5, us] s)

/-- `SENSE_INTERRUPT_STATUS` (R143): its 1 byte written to port 5. -/
def execSenseInterruptStatus (opt : BitVec 3) (s : State) :
    Host.Outcome State Fault Refusal :=
  .next (issue [cmdByte opt 0x08#5] s)

/-- `WRITE_DELETED_DATA` (R164, R167): its 9 bytes written to port 5. -/
def execWriteDeletedData (opt : BitVec 3) (hdus c h r n eot gpl dtl : Byte) (s : State) :
    Host.Outcome State Fault Refusal :=
  .next (issue [cmdByte opt 0x09#5, hdus, c, h, r, n, eot, gpl, dtl] s)

/-- `READ_ID` (R160): its 2 bytes written to port 5. -/
def execReadId (opt : BitVec 3) (hdus : Byte) (s : State) :
    Host.Outcome State Fault Refusal :=
  .next (issue [cmdByte opt 0x0A#5, hdus] s)

/-- `INVALID_0B` (R175): its 1 byte written to port 5. -/
def execInvalid0B (opt : BitVec 3) (s : State) :
    Host.Outcome State Fault Refusal :=
  .next (issue [cmdByte opt 0x0B#5] s)

/-- `READ_DELETED_DATA` (R164, R166): its 9 bytes written to port 5. -/
def execReadDeletedData (opt : BitVec 3) (hdus c h r n eot gpl dtl : Byte) (s : State) :
    Host.Outcome State Fault Refusal :=
  .next (issue [cmdByte opt 0x0C#5, hdus, c, h, r, n, eot, gpl, dtl] s)

/-- `FORMAT_TRACK` (R162): its 6 bytes written to port 5. -/
def execFormatTrack (opt : BitVec 3) (hdus n sc gpl d : Byte) (s : State) :
    Host.Outcome State Fault Refusal :=
  .next (issue [cmdByte opt 0x0D#5, hdus, n, sc, gpl, d] s)

/-- `INVALID_0E` (R175): its 1 byte written to port 5. -/
def execInvalid0E (opt : BitVec 3) (s : State) :
    Host.Outcome State Fault Refusal :=
  .next (issue [cmdByte opt 0x0E#5] s)

/-- `SEEK` (R146): its 3 bytes written to port 5. -/
def execSeek (opt : BitVec 3) (hdus ncn : Byte) (s : State) :
    Host.Outcome State Fault Refusal :=
  .next (issue [cmdByte opt 0x0F#5, hdus, ncn] s)

/-- `INVALID_10` (R175): its 1 byte written to port 5. -/
def execInvalid10 (opt : BitVec 3) (s : State) :
    Host.Outcome State Fault Refusal :=
  .next (issue [cmdByte opt 0x10#5] s)

/-- `SCAN_EQUAL` (R164, R168): its 9 bytes written to port 5. -/
def execScanEqual (opt : BitVec 3) (hdus c h r n eot gpl dtl : Byte) (s : State) :
    Host.Outcome State Fault Refusal :=
  .next (issue [cmdByte opt 0x11#5, hdus, c, h, r, n, eot, gpl, dtl] s)

/-- `INVALID_12` (R175): its 1 byte written to port 5. -/
def execInvalid12 (opt : BitVec 3) (s : State) :
    Host.Outcome State Fault Refusal :=
  .next (issue [cmdByte opt 0x12#5] s)

/-- `INVALID_13` (R175): its 1 byte written to port 5. -/
def execInvalid13 (opt : BitVec 3) (s : State) :
    Host.Outcome State Fault Refusal :=
  .next (issue [cmdByte opt 0x13#5] s)

/-- `INVALID_14` (R175): its 1 byte written to port 5. -/
def execInvalid14 (opt : BitVec 3) (s : State) :
    Host.Outcome State Fault Refusal :=
  .next (issue [cmdByte opt 0x14#5] s)

/-- `INVALID_15` (R175): its 1 byte written to port 5. -/
def execInvalid15 (opt : BitVec 3) (s : State) :
    Host.Outcome State Fault Refusal :=
  .next (issue [cmdByte opt 0x15#5] s)

/-- `INVALID_16` (R175): its 1 byte written to port 5. -/
def execInvalid16 (opt : BitVec 3) (s : State) :
    Host.Outcome State Fault Refusal :=
  .next (issue [cmdByte opt 0x16#5] s)

/-- `INVALID_17` (R175): its 1 byte written to port 5. -/
def execInvalid17 (opt : BitVec 3) (s : State) :
    Host.Outcome State Fault Refusal :=
  .next (issue [cmdByte opt 0x17#5] s)

/-- `INVALID_18` (R175): its 1 byte written to port 5. -/
def execInvalid18 (opt : BitVec 3) (s : State) :
    Host.Outcome State Fault Refusal :=
  .next (issue [cmdByte opt 0x18#5] s)

/-- `SCAN_LOW_OR_EQUAL` (R164, R169): its 9 bytes written to port 5. -/
def execScanLowOrEqual (opt : BitVec 3) (hdus c h r n eot gpl dtl : Byte) (s : State) :
    Host.Outcome State Fault Refusal :=
  .next (issue [cmdByte opt 0x19#5, hdus, c, h, r, n, eot, gpl, dtl] s)

/-- `INVALID_1A` (R175): its 1 byte written to port 5. -/
def execInvalid1A (opt : BitVec 3) (s : State) :
    Host.Outcome State Fault Refusal :=
  .next (issue [cmdByte opt 0x1A#5] s)

/-- `INVALID_1B` (R175): its 1 byte written to port 5. -/
def execInvalid1B (opt : BitVec 3) (s : State) :
    Host.Outcome State Fault Refusal :=
  .next (issue [cmdByte opt 0x1B#5] s)

/-- `INVALID_1C` (R175): its 1 byte written to port 5. -/
def execInvalid1C (opt : BitVec 3) (s : State) :
    Host.Outcome State Fault Refusal :=
  .next (issue [cmdByte opt 0x1C#5] s)

/-- `SCAN_HIGH_OR_EQUAL` (R164, R170): its 9 bytes written to port 5. -/
def execScanHighOrEqual (opt : BitVec 3) (hdus c h r n eot gpl dtl : Byte) (s : State) :
    Host.Outcome State Fault Refusal :=
  .next (issue [cmdByte opt 0x1D#5, hdus, c, h, r, n, eot, gpl, dtl] s)

/-- `INVALID_1E` (R175): its 1 byte written to port 5. -/
def execInvalid1E (opt : BitVec 3) (s : State) :
    Host.Outcome State Fault Refusal :=
  .next (issue [cmdByte opt 0x1E#5] s)

/-- `INVALID_1F` (R175): its 1 byte written to port 5. -/
def execInvalid1F (opt : BitVec 3) (s : State) :
    Host.Outcome State Fault Refusal :=
  .next (issue [cmdByte opt 0x1F#5] s)

end Sys2Proof.Machine
end

