-- ==== Sys2Proof/Machine/Dispatch.lean ====
section
/-! DEFINITION. One arm per row of spec/opcode_table.json. -/

namespace Sys2Proof.Machine

/-- The meaning of an instruction, by its row. -/
def exec (i : Instr) (s : State) : Host.Outcome State Fault Refusal :=
  match i with
  | .in0 d => Sys2Proof.Machine.execIn0 d s
  | .in1 d => Sys2Proof.Machine.execIn1 d s
  | .out0 d => Sys2Proof.Machine.execOut0 d s
  | .out1 d => Sys2Proof.Machine.execOut1 d s
  | .in2 d => Sys2Proof.Machine.execIn2 d s
  | .out2 d => Sys2Proof.Machine.execOut2 d s
  | .in3 d => Sys2Proof.Machine.execIn3 d s
  | .out3 d => Sys2Proof.Machine.execOut3 d s
  | .in4 d => Sys2Proof.Machine.execIn4 d s
  | .out4 d => Sys2Proof.Machine.execOut4 d s
  | .in5 d => Sys2Proof.Machine.execIn5 d s
  | .out5 d => Sys2Proof.Machine.execOut5 d s
  | .in6 d => Sys2Proof.Machine.execIn6 d s
  | .out6 d => Sys2Proof.Machine.execOut6 d s
  | .in7 d => Sys2Proof.Machine.execIn7 d s
  | .out7 d => Sys2Proof.Machine.execOut7 d s
  | .invalid00 opt => Sys2Proof.Machine.execInvalid00 opt s
  | .invalid01 opt => Sys2Proof.Machine.execInvalid01 opt s
  | .readTrack opt hdus c h r n eot gpl dtl => Sys2Proof.Machine.execReadTrack opt hdus c h r n eot gpl dtl s
  | .specify opt srtHut hltNd => Sys2Proof.Machine.execSpecify opt srtHut hltNd s
  | .senseDriveStatus opt hdus => Sys2Proof.Machine.execSenseDriveStatus opt hdus s
  | .writeData opt hdus c h r n eot gpl dtl => Sys2Proof.Machine.execWriteData opt hdus c h r n eot gpl dtl s
  | .readData opt hdus c h r n eot gpl dtl => Sys2Proof.Machine.execReadData opt hdus c h r n eot gpl dtl s
  | .recalibrate opt us => Sys2Proof.Machine.execRecalibrate opt us s
  | .senseInterruptStatus opt => Sys2Proof.Machine.execSenseInterruptStatus opt s
  | .writeDeletedData opt hdus c h r n eot gpl dtl => Sys2Proof.Machine.execWriteDeletedData opt hdus c h r n eot gpl dtl s
  | .readId opt hdus => Sys2Proof.Machine.execReadId opt hdus s
  | .invalid0B opt => Sys2Proof.Machine.execInvalid0B opt s
  | .readDeletedData opt hdus c h r n eot gpl dtl => Sys2Proof.Machine.execReadDeletedData opt hdus c h r n eot gpl dtl s
  | .formatTrack opt hdus n sc gpl d => Sys2Proof.Machine.execFormatTrack opt hdus n sc gpl d s
  | .invalid0E opt => Sys2Proof.Machine.execInvalid0E opt s
  | .seek opt hdus ncn => Sys2Proof.Machine.execSeek opt hdus ncn s
  | .invalid10 opt => Sys2Proof.Machine.execInvalid10 opt s
  | .scanEqual opt hdus c h r n eot gpl dtl => Sys2Proof.Machine.execScanEqual opt hdus c h r n eot gpl dtl s
  | .invalid12 opt => Sys2Proof.Machine.execInvalid12 opt s
  | .invalid13 opt => Sys2Proof.Machine.execInvalid13 opt s
  | .invalid14 opt => Sys2Proof.Machine.execInvalid14 opt s
  | .invalid15 opt => Sys2Proof.Machine.execInvalid15 opt s
  | .invalid16 opt => Sys2Proof.Machine.execInvalid16 opt s
  | .invalid17 opt => Sys2Proof.Machine.execInvalid17 opt s
  | .invalid18 opt => Sys2Proof.Machine.execInvalid18 opt s
  | .scanLowOrEqual opt hdus c h r n eot gpl dtl => Sys2Proof.Machine.execScanLowOrEqual opt hdus c h r n eot gpl dtl s
  | .invalid1A opt => Sys2Proof.Machine.execInvalid1A opt s
  | .invalid1B opt => Sys2Proof.Machine.execInvalid1B opt s
  | .invalid1C opt => Sys2Proof.Machine.execInvalid1C opt s
  | .scanHighOrEqual opt hdus c h r n eot gpl dtl => Sys2Proof.Machine.execScanHighOrEqual opt hdus c h r n eot gpl dtl s
  | .invalid1E opt => Sys2Proof.Machine.execInvalid1E opt s
  | .invalid1F opt => Sys2Proof.Machine.execInvalid1F opt s

end Sys2Proof.Machine
end

