-- ==== Sys2Proof/Machine/Fetch.lean ====
section
/-! DEFINITION. Where the next step comes from: the block fetches no instruction (10_state.md R21), its
agents bring their accesses (00_scope.md R6), which stand in `inputs` (log 1). -/

namespace Sys2Proof.Machine

/-- What is left to request after an instruction: the bytes of the sequence that follow it (log 25),
then the other requests. -/
def requeue (left : List Byte) (rest : List Request) : List Request :=
  match left with
  | [] => rest
  | _ :: _ => .cpu (.command left) :: rest

/-- Take the next request. -/
def fetch (s : State) : Fetched :=
  match s.inputs with
  | [] => .nothing
  | .host op :: rest => .host op { s with inputs := rest }
  | .cpu (.bus w) :: rest => .instr (decodeBus w) { s with inputs := rest }
  | .cpu (.command bytes) :: rest =>
    match decodeCommand bytes with
    | .ok (i, left) => .instr i { s with inputs := requeue left rest }
    | .error _ => .partialCommand bytes { s with inputs := rest }

/-- The bytes of the first command of a sequence, without those that follow it. -/
def firstCommand (bytes : List Byte) : List Byte :=
  match decodeCommand bytes with
  | .ok (_, left) => bytes.take (bytes.length - left.length)
  | .error _ => bytes

/-- An instruction of the opcode table put first among the requests (log 1, log 15). -/
def placeFirst (s : State) (nbits w : Nat) : State :=
  match layOut nbits w with
  | none => s
  | some (.bus word) => { s with inputs := .cpu (.bus word) :: s.inputs }
  | some (.command bytes) => { s with inputs := .cpu (.command (firstCommand bytes)) :: s.inputs }

end Sys2Proof.Machine
end

