-- ==== Sys2Proof/Machine/Codec.lean ====
section
/-! DEFINITION. The FAT12 geometry input and the 12-bit entry codec (42_fat12_codec.md R200 to R214).
Everything here is a function of the media store and of byte lists; nothing writes a state (R7). -/

namespace Sys2Proof.Machine

/-- Byte `i` of a byte list. -/
def byteAt (b : List Byte) (i : Nat) : Byte := b.getD i 0

/-- `le16(b, i)` of R10. -/
def le16 (b : List Byte) (i : Nat) : U16 := byteAt b (i + 1) ++ byteAt b i

/-- `le32(b, i)` of R10. -/
def le32 (b : List Byte) (i : Nat) : BitVec 32 := le16 b (i + 2) ++ le16 b i

/-- `ceil(a / b)` of R10. -/
def ceilDiv (a b : Nat) : Nat := (a + b - 1) / b

/-- R202: the derived fields, from the BPB fields and the total sector count `ts`. -/
def deriveGeometry (bps spc rsv nfat rootEnt spf ts : Nat) : Geometry :=
  let rootDirSectors := ceilDiv (rootEnt * Config.dirEntryBytes) bps
  let fatStart := rsv * bps
  let rootStart := fatStart + nfat * spf * bps
  let dataSectors : Int := (ts : Int) - ((rsv : Int) + (nfat : Int) * (spf : Int) + (rootDirSectors : Int))
  { bps := bps, spc := spc, rsv := rsv, nfat := nfat, rootEnt := rootEnt, spf := spf,
    rootDirSectors := rootDirSectors, fatStart := fatStart, rootStart := rootStart,
    dataStart := rootStart + rootDirSectors * bps,
    bytesPerCluster := spc * bps,
    totalClusters := if dataSectors > 0 then dataSectors.toNat / spc else 0 }

/-- R201, total sectors: the 16-bit field, else the 32-bit field, else from the image size. -/
def totalSectors (b : List Byte) (size bps : Nat) : Nat :=
  if le16 b 0x13 ≠ 0 then (le16 b 0x13).toNat
  else if le32 b 0x20 ≠ 0 then (le32 b 0x20).toNat
  else size / bps

/-- R201 on the first 512 bytes of the image. -/
def geometryOf (b : List Byte) (size : Nat) : Option Geometry :=
  let bps := (le16 b 0x0B).toNat
  let spc := (byteAt b 0x0D).toNat
  let rsv := (le16 b 0x0E).toNat
  let nfat := (byteAt b 0x10).toNat
  let rootEnt := (le16 b 0x11).toNat
  let spf := (le16 b 0x16).toNat
  if bps = 0 ∨ spc = 0 ∨ nfat = 0 ∨ spf = 0 then none
  else some (deriveGeometry bps spc rsv nfat rootEnt spf (totalSectors b size bps))

/-- R201: `LoadGeometry()`. -/
def loadGeometry (m : MediaStore) : Option Geometry :=
  match rangeRead m 0 512 with
  | none => none
  | some b => geometryOf b m.img.size

/-- R203: `FatBuffer(g)`, FAT copy 0. -/
def fatBuffer (m : MediaStore) (g : Geometry) : Option (List Byte) :=
  rangeRead m (g.fatStart : Int) (g.spf * g.bps)

/-- R210: the byte index of entry `c`. -/
def entryIndex (c : Nat) : Nat := c + c / 2

/-- R210: the 12 bits of entry `c` in the 16-bit word at its byte index. -/
def entryOfWord (c : Nat) (w : U16) : U12 :=
  if c % 2 = 0 then w.extractLsb' 0 12 else w.extractLsb' 4 12

/-- R210, R212: `ReadEntry(fat, c)`. -/
def readEntry (fat : List Byte) (c : Nat) : Option U12 :=
  let i := entryIndex c
  if i + 1 ≥ fat.length then none else some (entryOfWord c (le16 fat i))

/-- R211: `fat[i]` after the write. -/
def entryLowByte (c : Nat) (v : U12) (old : Byte) : Byte :=
  if c % 2 = 0 then v.extractLsb' 0 8 else (v.extractLsb' 0 4 ++ old.extractLsb' 0 4 : BitVec 8)

/-- R211: `fat[i+1]` after the write. -/
def entryHighByte (c : Nat) (v : U12) (old : Byte) : Byte :=
  if c % 2 = 0 then (old.extractLsb' 4 4 ++ v.extractLsb' 8 4 : BitVec 8) else v.extractLsb' 4 8

/-- R211, R212: `WriteEntry(fat, c, v)`; bits of `v` above bit 11 are discarded. -/
def writeEntry (fat : List Byte) (c v : Nat) : Option (List Byte) :=
  let i := entryIndex c
  let v12 : U12 := BitVec.ofNat 12 v
  if i + 1 ≥ fat.length then none
  else
    some ((fat.set i (entryLowByte c v12 (byteAt fat i))).set (i + 1)
      (entryHighByte c v12 (byteAt fat (i + 1))))

end Sys2Proof.Machine
end

