-- ==== Sys2Proof/Machine/Walker.lean ====
section
/-! DEFINITION. The cluster-chain traversal engine (43_cluster_chain.md R230 to R234): functions of the
media store, a geometry record and a FAT buffer. -/

namespace Sys2Proof.Machine

/-- R230: `2 .. totalClusters + 1`. -/
def validCluster (g : Geometry) (c : Nat) : Bool :=
  decide (2 ≤ c) && decide (c < g.totalClusters + 2)

/-- R230: the media byte offset of cluster `c`. -/
def clusterOffset (g : Geometry) (c : Nat) : Nat := g.dataStart + (c - 2) * g.bytesPerCluster

/-- R231: the bytes of cluster `c`. -/
def clusterBytes (m : MediaStore) (g : Geometry) (c : Nat) : Option (List Byte) :=
  rangeRead m (clusterOffset g c : Int) g.bytesPerCluster

/-- R231: the cluster that follows `c`; none at an end of chain, a free entry, or an index past the
buffer. -/
def nextCluster (fat : List Byte) (c : Nat) : Option Nat :=
  match readEntry fat c with
  | none => none
  | some e => if Config.eocMin ≤ e.toNat ∨ e = 0 then none else some e.toNat

/-- R231: the loop, with at most `steps` iterations left and `out` collected so far. -/
def readChainFrom (m : MediaStore) (g : Geometry) (fat : List Byte) :
    (steps c : Nat) → (out : List Byte) → Option (List Byte)
  | 0, _, out => some out
  | steps + 1, c, out =>
    if validCluster g c then
      match clusterBytes m g c with
      | none => none
      | some d =>
        match nextCluster fat c with
        | none => some (out ++ d)
        | some e => readChainFrom m g fat steps e (out ++ d)
    else some out

/-- R231: `ReadChain(g, fat, start)`. -/
def readChain (m : MediaStore) (g : Geometry) (fat : List Byte) (start : Nat) : Option (List Byte) :=
  readChainFrom m g fat (g.totalClusters + 2) start []

/-- FAT value 0 (R214); an index past the buffer is not free (R233). -/
def isFree (fat : List Byte) (c : Nat) : Bool := readEntry fat c == some 0

/-- The free clusters of `2 .. totalClusters + 1`, ascending (R233, R234). -/
def freeList (g : Geometry) (fat : List Byte) : List Nat :=
  (List.range' 2 g.totalClusters).filter (isFree fat)

/-- R233: `Allocate(g, fat, count)`. -/
def allocate (g : Geometry) (fat : List Byte) (count : Nat) : Option (List Nat) :=
  let found := (freeList g fat).take count
  if found.length < count then none else some found

/-- R234: `FreeClusters(g, fat)`. -/
def freeClusters (g : Geometry) (fat : List Byte) : Nat := (freeList g fat).length

end Sys2Proof.Machine
end

