-- ==== Sys2Proof/Machine/Directory.lean ====
section
/-! DEFINITION. The directory parser (44_directory_parser.md R250 to R265). -/

namespace Sys2Proof.Machine

/-! ### Long names -/

/-- R256: where the 13 units of a fragment stand. -/
def unitPositions : List Nat := [1, 3, 5, 7, 9, 14, 16, 18, 20, 22, 24, 28, 30]

/-- R256: the units of `e` at the positions left, into `acc` from index `k` on, stopping at a NUL or
filler unit. -/
def putUnits (e : List Byte) : (positions : List Nat) → (k : Nat) → (acc : List U16) → List U16
  | [], _, acc => acc
  | p :: ps, k, acc =>
    let u := le16 e p
    if u = 0x0000 ∨ u = 0xFFFF then acc else putUnits e ps (k + 1) (acc.set k u)

/-- R255: the sequence number of a fragment. -/
def lfnSeq (e : List Byte) : Nat := (byteAt e 0 &&& 0x1F).toNat

/-- R255: the accumulator after the resizing bit. -/
def lfnResize (acc : List U16) (e : List Byte) : List U16 :=
  if byteAt e 0 &&& 0x40 ≠ 0 then List.replicate (lfnSeq e * Config.lfnUnits) 0x0000 else acc

/-- R255: `LfnFragment(acc, e)`. -/
def lfnFragment (acc : List U16) (e : List Byte) : List U16 :=
  let acc := lfnResize acc e
  if lfnSeq e = 0 ∨ lfnSeq e * Config.lfnUnits > acc.length then acc
  else putUnits e unitPositions ((lfnSeq e - 1) * Config.lfnUnits) acc

/-- R259. -/
def longName (acc : List U16) : List U16 := acc.takeWhile fun u => u != 0x0000

/-! ### Short names -/

/-- R260: trailing 0x20 bytes removed. -/
def trimSpaces (b : List Byte) : List Byte := (b.reverse.dropWhile fun x => x == 0x20).reverse

/-- R260: the first-byte escape undone. -/
def unescapeFirst : List Byte → List Byte
  | [] => []
  | x :: rest => (if x = 0x05 then 0xE5 else x) :: rest

/-- Bytes `lo .. lo + n - 1` of an entry. -/
def entryBytes (e : List Byte) (lo n : Nat) : List Byte := (List.range n).map fun i => byteAt e (lo + i)

/-- R260: the short name as bytes. -/
def shortNameBytes (e : List Byte) : List Byte :=
  let b := trimSpaces (unescapeFirst (entryBytes e 0 8))
  let x := trimSpaces (entryBytes e 8 3)
  if x = [] then b else b ++ [0x2E] ++ x

/-- R260: `ShortName(e)`, each byte zero-extended to 16 bits. -/
def shortName (e : List Byte) : List U16 := (shortNameBytes e).map fun b => b.zeroExtend 16

/-- R261: the names "." and "..". -/
def isDotName (name : List U16) : Bool := name == [0x2E] || name == [0x2E, 0x2E]

/-! ### Times -/

/-- The decimal digit `d mod 10`. -/
def digitChar (d : Nat) : Char := Char.ofNat (48 + d % 10)

/-- Two digits, zero-padded (R263). -/
def twoDigits (n : Nat) : List Char := [digitChar (n / 10), digitChar n]

/-- Four digits, zero-padded (R263). -/
def fourDigits (n : Nat) : List Char :=
  [digitChar (n / 1000), digitChar (n / 100), digitChar (n / 10), digitChar n]

/-- R262: `t[15:11]`. -/
def hourOf (t : U16) : Nat := (t.extractLsb' 11 5).toNat
/-- R262: `t[10:5]`. -/
def minuteOf (t : U16) : Nat := (t.extractLsb' 5 6).toNat
/-- R262: `t[4:0] * 2`. -/
def secondOf (t : U16) : Nat := (t.extractLsb' 0 5).toNat * 2
/-- R262: `1980 + d[15:9]`. -/
def yearOf (d : U16) : Nat := 1980 + (d.extractLsb' 9 7).toNat
/-- R262: `d[8:5]`. -/
def monthOf (d : U16) : Nat := (d.extractLsb' 5 4).toNat
/-- R262: `d[4:0]`. -/
def dayOf (d : U16) : Nat := (d.extractLsb' 0 5).toNat

/-- R263: `Timestamp(t, d)`. -/
def timestamp (t d : U16) : Option (List Char) :=
  if t = 0 ∧ d = 0 then none
  else
    some (fourDigits (yearOf d) ++ ['-'] ++ twoDigits (monthOf d) ++ ['-'] ++ twoDigits (dayOf d) ++
      [' '] ++ twoDigits (hourOf t) ++ [':'] ++ twoDigits (minuteOf t) ++ [':'] ++
      twoDigits (secondOf t))

/-! ### Entries -/

/-- The attribute byte (R254). -/
def attrOf (e : List Byte) : Byte := byteAt e 11

/-- R258: `le16(e, 26)`. -/
def firstClusterOf (e : List Byte) : U16 := le16 e 26

/-- R258: the directory bit. -/
def isDirectory (e : List Byte) : Bool := attrOf e &&& 0x10 != 0

/-- R258: the display name. -/
def displayName (acc : List U16) (e : List Byte) : List U16 :=
  if longName acc ≠ [] then longName acc else shortName e

/-- R258: the node of a normal entry, without its children. -/
def entryInfo (acc : List U16) (e : List Byte) : NodeInfo :=
  { kind := if isDirectory e then .directory else .file,
    name := displayName acc e,
    size := (le32 e 28).toNat,
    firstCluster := firstClusterOf e,
    modified := timestamp (le16 e 22) (le16 e 24),
    capacity := none, free := none }

/-- R251: entry `k` is bytes `32k .. 32k+31`; a trailing part shorter than 32 bytes is ignored. -/
def directoryEntries (raw : List Byte) : List (List Byte) :=
  (List.range (raw.length / Config.dirEntryBytes)).map fun k =>
    (raw.drop (Config.dirEntryBytes * k)).take Config.dirEntryBytes

/-- R251 to R258: the scan, with the accumulator `acc`; `sub` gives the children of a directory from its
first cluster. -/
def parseEntries (sub : Nat → Forest) : List (List Byte) → (acc : List U16) → Forest
  | [], _ => .nil
  | e :: rest, acc =>
    if byteAt e 0 = 0x00 then .nil
    else if byteAt e 0 = 0xE5 then parseEntries sub rest []
    else if attrOf e = 0x0F then parseEntries sub rest (lfnFragment acc e)
    else if attrOf e &&& 0x08 ≠ 0 then parseEntries sub rest []
    else if isDotName (shortName e) then parseEntries sub rest []
    else
      .node (entryInfo acc e)
        (if isDirectory e then sub (firstClusterOf e).toNat else .nil)
        (parseEntries sub rest [])

/-- R251 with `levels` more levels of directories below this one (R264). -/
def parseLevels (m : MediaStore) (g : Geometry) (fat : List Byte) : (levels : Nat) → List Byte → Forest
  | 0, raw => parseEntries (fun _ => .nil) (directoryEntries raw) []
  | levels + 1, raw =>
    parseEntries
      (fun c =>
        match readChain m g fat c with
        | none => .nil
        | some r => parseLevels m g fat levels r)
      (directoryEntries raw) []

/-- R251, R264: `ParseDirectory(g, fat, raw, depth)`: directories at `depth + 1 > maxDirDepth` have no
children. -/
def parseDirectory (p : Params) (m : MediaStore) (g : Geometry) (fat raw : List Byte) (depth : Nat) :
    Forest :=
  parseLevels m g fat (p.maxDirDepth - depth) raw

/-- R265: the disk root. -/
def diskInfo (m : MediaStore) (g : Geometry) (fat : List Byte) (diskName : List U16) : NodeInfo :=
  { kind := .disk, name := diskName, size := m.img.size, firstCluster := 0, modified := none,
    capacity := some (g.totalClusters * g.bytesPerCluster),
    free := some (freeClusters g fat * g.bytesPerCluster) }

/-- R265: `BuildTree()`. -/
def buildTree (p : Params) (m : MediaStore) (diskName : List U16) : Option Forest :=
  match loadGeometry m with
  | none => none
  | some g =>
    match fatBuffer m g with
    | none => none
    | some fat =>
      match rangeRead m (g.rootStart : Int) (g.rootDirSectors * g.bps) with
      | none => none
      | some raw =>
        some (.node (diskInfo m g fat diskName) (parseDirectory p m g fat raw 0) .nil)

end Sys2Proof.Machine
end

