-- ==== Sys2Proof/Machine/HostOps.lean ====
section
/-! DEFINITION. The host agent's operations (00_scope.md R6, R12; 70_reset_and_hazards.md R330 to R338;
60_exceptions.md R312), each one atomic step. -/

namespace Sys2Proof.Machine

/-- R335: `Load(bytes)` of a file the host could open. -/
def loadImage (file : ImageFile) (s : State) : State :=
  answer (.bool true) (emit .mediaLoaded
    { s with
      media := { present := true, img := Memory.ofFile file, changed := true },
      fdc := { s.fdc with off := 0 } })

/-- R336, R338: `Eject()`. -/
def ejectImage (s : State) : State :=
  if s.media.present then
    answer (.bool true) (emit .mediaEjected
      { s with
        media := { present := false, img := Memory.empty, changed := true },
        fdc := { s.fdc with
          phase := .idle, idx := 0, resLen := 0, pending := 0, xferDir := .none, off := 0 } })
  else answer (.bool false) s

/-- The value of a FAT12 call: a function of the media store, the parameters and the operands (R7). -/
def fatResult (p : Params) (m : MediaStore) : FatCall → StepResult
  | .loadGeometry => .geometry (loadGeometry m)
  | .fatBuffer g => .bytes (fatBuffer m g)
  | .readEntry fat c => .entry (readEntry fat c)
  | .writeEntry fat c v => .bytes (writeEntry fat c v)
  | .readChain g fat start => .bytes (readChain m g fat start)
  | .allocate g fat count => .clusters (allocate g fat count)
  | .freeClusters g fat => .count (freeClusters g fat)
  | .parseDirectory g fat raw depth => .nodes (parseDirectory p m g fat raw depth)
  | .buildTree diskName => .tree (buildTree p m diskName)

/-- What a host operation does, before the activity rule. -/
def hostBody (op : HostOp) (s : State) : State :=
  match op with
  | .load file => loadImage file s
  | .loadFailed => answer (.bool false) s
  | .eject => ejectImage s
  | .hardReset => hardReset s
  | .mutationGate => answer (.bool (mutationAllowed s)) s
  | .fat call => answer (fatResult s.params s.media call) s

/-- A step of the host agent. -/
def hostStep (op : HostOp) (s : State) : State := atomically (hostBody op) s

end Sys2Proof.Machine
end

