-- ==== Sys2Proof/Machine/Step.lean ====
section
/-! DEFINITION. One step of the block: the next request of an agent (00_scope.md R6, R12). -/

namespace Sys2Proof.Machine

/-- The step takes the next request. With none pending nothing happens (R14: the block has no clock,
log 2). A sequence that ends within a command leaves the FDC waiting for the rest (R89, log 5). -/
def step (s : State) : Host.Outcome State Fault Refusal :=
  match fetch s with
  | .nothing => .next s
  | .instr i s' => exec i s'
  | .partialCommand bytes s' => .next (issue bytes s')
  | .host op s' => .next (hostStep op s')

/-- `s` with the instruction of a table row of `nbits` bits, whose bits are `w`, as its next request. -/
def State.withFetchWord (s : State) (nbits w : Nat) : State := placeFirst s nbits w

end Sys2Proof.Machine
end

