-- ==== Sys2Proof/Safety.lean ====
section
/-! DEFINITION. What counts as a safe run, in the terms the statements use: the invariant of the machine
and the frames "everything but …". -/

namespace Sys2Proof.Machine

/-- R310: the value last reported is the value of "I/O active". -/
abbrev Settled (s : State) : Prop := s.fdc.activeReported = ioActive s

/-- R24, R26: what `idx` counts in each phase. -/
abbrev IdxOk (s : State) : Prop :=
  (s.fdc.phase = .idle → s.fdc.idx = 0) ∧
    (s.fdc.phase = .command → 1 ≤ s.fdc.idx ∧ s.fdc.idx < cmdCount (entryOf s.params s.fdc.cmdBuf[0])) ∧
    (s.fdc.phase = .execution → s.fdc.idx = 0) ∧
    (s.fdc.phase = .result → s.fdc.idx < s.fdc.resLen)

/-- R29, R30, R36: a window has at most 512 bytes and a direction; Execution phase has a direction and
is entered in non-DMA mode only. -/
abbrev WindowOk (f : FdcState) : Prop :=
  f.pending ≤ 512 ∧ (f.pending ≠ 0 → f.xferDir ≠ .none) ∧
    (f.phase = .execution → f.xferDir ≠ .none ∧ f.nonDma = true)

/-- R27, R46, R47, R302: the only values the status bytes take. ST0 is 0x80, or has IC = 00, EC = 0 and
NR = 0; ST1 and ST2 are 0; ST3 has FT = 0 and WP = 0. -/
abbrev StatusOk (f : FdcState) : Prop :=
  (f.st0 = 0x80 ∨ f.st0 &&& 0xD8 = 0) ∧ f.st1 = 0 ∧ f.st2 = 0 ∧ f.st3 &&& 0xC0 = 0

/-- R33, R69, R151: the sector register names a sector 1 to 18, and the LBA is one the formula of R69
gives for some three bytes. -/
abbrev AddressOk (f : FdcState) : Prop :=
  1 ≤ f.curR.toNat ∧ f.curR.toNat ≤ 18 ∧ -1 ≤ f.lba ∧ f.lba ≤ 14024

/-- R40: the image is in its canonical form, and no medium means no bytes. -/
abbrev MediaOk (m : MediaStore) : Prop := m.img.wf = true ∧ (m.present = false → m.img = Memory.empty)

/-- The invariant of the machine. -/
abbrev Invariant (s : State) : Prop :=
  IdxOk s ∧ WindowOk s.fdc ∧ StatusOk s.fdc ∧ AddressOk s.fdc ∧ s.fdc.resLen ≤ 8 ∧ MediaOk s.media ∧
    CommandTable.wf s.params.table = true ∧ Settled s

/-- The media store, the parameters, the draws and the pending requests are unchanged. -/
abbrev SameOutsideFdc (s t : State) : Prop :=
  t.media = s.media ∧ t.params = s.params ∧ t.draws = s.draws ∧ t.inputs = s.inputs

/-- Nothing but the step's outputs (events and result) may differ. -/
abbrev SameButOutputs (s t : State) : Prop := t.fdc = s.fdc ∧ SameOutsideFdc s t

/-- The command buffer after the bytes `bs` have been received (R25): the rest keeps its value. -/
def storedBytes (buf : Vector Byte 10) (bs : List Byte) : Vector Byte 10 :=
  Vector.ofFn fun i => bs.getD i.val buf[i]

/-- The result buffer whose first bytes are `bs` (R26, R87): the rest keeps its value. -/
def resultBytes (buf : Vector Byte 8) (bs : List Byte) : Vector Byte 8 :=
  Vector.ofFn fun i => bs.getD i.val buf[i]

/-- How often an event occurs among a step's events (R307, R310). -/
def eventCount (e : Event) (s : State) : Nat := s.events.count e

/-- The state with these bus operation words as its only requests. -/
def withWords (s : State) (words : List (BitVec 12)) : State :=
  { s with inputs := words.map fun w => .cpu (.bus w) }

/-- A request that is one atomic step of an agent (R6, R12): one port access or one host operation. A
command sequence is several port accesses. -/
def isSingleStep : Request → Bool
  | .cpu (.bus _) => true
  | .cpu (.command _) => false
  | .host _ => true

/-- The command table is the default one (R84). -/
abbrev DefaultTable (s : State) : Prop := s.params.table = Config.defaultTable

/-- R110, R111: the byte `d` written to port 5 is the last one of a command whose table entry names the
handler `h`, so that `h` runs in this step. The command byte is `d` in Idle phase and `cmdBuf[0]` in
Command phase (`d` too where `idx` is 0 there, which no run reaches, R24). -/
abbrev CompletesCommand (s : State) (d : Byte) (h : Handler) : Prop :=
  (s.fdc.phase = .idle ∧ cmdCount (entryOf s.params d) = 1 ∧ (entryOf s.params d).handler = h) ∨
    (s.fdc.phase = .command ∧ ∃ b, b = (if s.fdc.idx = 0 then d else s.fdc.cmdBuf[0]) ∧
      s.fdc.idx + 1 = cmdCount (entryOf s.params b) ∧ (entryOf s.params b).handler = h)

/-- FdcState after one byte of the transfer window has moved (R120): the last byte of a window in
Execution phase ends it (R118). -/
def windowAfter (f : FdcState) : FdcState :=
  if f.pending = 1 ∧ f.phase = .execution then
    { f with
      off := f.off + 1, pending := 0, irq := true, idx := 0,
      phase := if f.resLen = 0 then .idle else .result }
  else { f with off := f.off + 1, pending := f.pending - 1 }

/-- FdcState after a stub's Execution phase has ended (R118, R122). -/
def stubEnded (f : FdcState) : FdcState :=
  { f with irq := true, idx := 0, phase := if f.resLen = 0 then .idle else .result }

/-- FdcState after a soft reset (R332). -/
def softResetFdc (f : FdcState) : FdcState :=
  { f with
    phase := .idle, idx := 0, cmdBuf := Vector.replicate 10 0, resBuf := Vector.replicate 8 0,
    resLen := 0, pending := 0, xferDir := .none, off := 0 }

/-- `t` is `s` after a read with no defined value (R9 `openBus`, R117): a free byte is drawn, nothing
else changes. -/
abbrev ReadsFreeByte (s t : State) : Prop :=
  t.result = .byte (Config.openBus s.draws) ∧ t.draws = s.draws + 1 ∧
    t.fdc = { s.fdc with activeReported := ioActive s } ∧ t.media = s.media ∧
    t.params = s.params ∧ t.inputs = s.inputs

/-- `t` is `s` after a write with no effect (R108, R113, R119). -/
abbrev IgnoresWrite (s t : State) : Prop :=
  t.fdc = { s.fdc with activeReported := ioActive s } ∧ SameOutsideFdc s t ∧ t.result = .none

/-- `t` is `s` after one byte of the window has gone to the host (R120, R62). -/
abbrev MovesByteToHost (s t : State) : Prop :=
  t.result =
      .byte (if s.media.present = true ∧ 0 ≤ s.fdc.off ∧ s.fdc.off < (s.media.img.size : Int) then
        s.media.img.read s.fdc.off.toNat else 0x00) ∧
    t.media = (if s.media.present then s.media else { s.media with changed := true }) ∧
    t.fdc = { windowAfter s.fdc with activeReported := ioActive t } ∧
    t.params = s.params ∧ t.draws = s.draws ∧ t.inputs = s.inputs

/-- `t` is `s` after the byte `v` has gone to the media at `off` (R120, R63): every other offset of the
image keeps its byte. -/
abbrev MovesByteFromHost (v : Byte) (s t : State) : Prop :=
  (∀ a : Nat, (a : Int) ≠ s.fdc.off → t.media.img.read a = s.media.img.read a) ∧
    (s.media.present = true → s.media.img.wf = true → 0 ≤ s.fdc.off →
      s.fdc.off < (s.media.img.size : Int) → t.media.img.read s.fdc.off.toNat = v) ∧
    t.media.present = s.media.present ∧ t.media.img.size = s.media.img.size ∧
    t.media.changed = (s.media.changed || !s.media.present) ∧
    (s.media.present = false → t.media.img = s.media.img) ∧
    t.fdc = { windowAfter s.fdc with activeReported := ioActive t } ∧
    t.params = s.params ∧ t.draws = s.draws ∧ t.inputs = s.inputs ∧ t.result = .none ∧
    eventCount .flush t = (if s.fdc.pending = 1 ∧ s.media.present = true then 1 else 0)

/-- What a command written from Idle phase leaves besides its handler's fields: its bytes in the buffer,
its command byte in `lastCmd` (R140), `idx` 0 (R141), and nothing changed outside FdcState. `f` holds
the fields that the handler gives. -/
abbrev CommandLeaves (bytes : List Byte) (f : FdcState) (s t : State) : Prop :=
  t.fdc =
      { f with
        cmdBuf := storedBytes s.fdc.cmdBuf bytes, lastCmd := bytes.getD 0 0, idx := 0,
        activeReported := ioActive t } ∧
    t.params = s.params ∧ t.draws = s.draws ∧ t.inputs = s.inputs ∧ t.result = .none

/-- FdcState fields that a stub command leaves (R164). -/
def stubFields (dir : XferDir) (hdus c h r n : Byte) (f : FdcState) : FdcState :=
  { f with
    xferDir := dir, pending := 0, st0 := hdus &&& 0x07, st1 := 0, st2 := 0, resLen := 7,
    resBuf := resultBytes f.resBuf [hdus &&& 0x07, 0x00, 0x00, c, h, r, n], irq := true,
    phase := if f.nonDma then .execution else .result }

/-- FdcState fields that an invalid command leaves (R175). -/
def invalidFields (f : FdcState) : FdcState :=
  { f with st0 := 0x80, resLen := 1, resBuf := resultBytes f.resBuf [0x80], phase := .result }

/-! ### Terms of the FAT12 statements -/

/-- The number that the `n` bytes from index `i` on give, the first byte lowest (R10, R65). -/
def leNat (b : List Byte) (i : Nat) : (n : Nat) → Nat
  | 0 => 0
  | n + 1 => (byteAt b i).toNat + 256 * leNat b (i + 1) n

/-- R231: the cluster that the walk goes to after `c`; none where it stops: an index past the buffer, a
free entry, an end of chain, or a value out of range. -/
def chainLink (g : Geometry) (fat : List Byte) (c : Nat) : Option Nat :=
  (readEntry fat c).bind fun e =>
    if e.toNat ≠ 0 ∧ e.toNat < 0xFF8 ∧ 2 ≤ e.toNat ∧ e.toNat < g.totalClusters + 2 then some e.toNat
    else none

/-- R231: the `k`-th cluster of the walk from `start`, counted from 0; none where the walk has
stopped. -/
def chainCluster (g : Geometry) (fat : List Byte) (start : Nat) : (k : Nat) → Option Nat
  | 0 => if 2 ≤ start ∧ start < g.totalClusters + 2 then some start else none
  | k + 1 => (chainCluster g fat start k).bind (chainLink g fat)

/-- R254: a long-name fragment that the scan takes (R252 and R253 do not apply to it). -/
abbrev IsFragment (e : List Byte) : Prop :=
  e.length = 32 ∧ byteAt e 0 ≠ 0x00 ∧ byteAt e 0 ≠ 0xE5 ∧ byteAt e 11 = 0x0F

/-- R258: an entry to which none of R252 to R257 applies and whose short name is not a dot name
(R261). -/
abbrev IsNormalEntry (e : List Byte) : Prop :=
  e.length = 32 ∧ byteAt e 0 ≠ 0x00 ∧ byteAt e 0 ≠ 0xE5 ∧ byteAt e 11 ≠ 0x0F ∧
    byteAt e 11 &&& 0x08 = 0 ∧ shortName e ≠ [0x2E] ∧ shortName e ≠ [0x2E, 0x2E]

/-- R251, R255: the accumulator after the fragments `fs`, from an empty one. -/
def pendingName (fs : List (List Byte)) : List U16 := fs.foldl lfnFragment []

/-- R256: unit `j` of a fragment, in bytes 1 to 10, 14 to 25 and 28 to 31. -/
def fragmentUnit (e : List Byte) (j : Nat) : U16 :=
  BitVec.ofNat 16 (leNat e ([1, 3, 5, 7, 9, 14, 16, 18, 20, 22, 24, 28, 30].getD j 0) 2)

/-- R260: a name field of `n` bytes: its bytes, filled up with spaces. -/
def paddedField (b : List Byte) (n : Nat) : List Byte := b ++ List.replicate (n - b.length) 0x20

/-- The number of nested levels of a list of nodes. -/
def Forest.height : Forest → Nat
  | .nil => 0
  | .node _ kids rest => max (kids.height + 1) rest.height

end Sys2Proof.Machine
end

