-- ==== Sys2Proof/Certificates/Slice0/Obligations.lean ====
section
/-! DEFINITION. The statements for the provers. Each formalises the rules of spec/ that its docstring and
OBLIGATIONS.json name; what rests on a choice of the model names its log entry. -/

open Sys2Proof Sys2Proof.Machine

/-- Decoding the encoding of any instruction gives the instruction back (30_encoding.md R81,
30_encoding.md R82, 30_encoding.md R83, 30_encoding.md R85). -/
def Obligations.DecodeAfterEncodeIsIdentity : Prop :=
  ∀ i : Instr, decode (encode i) = .ok (i, []) ∧
    ∀ bs rest, encode i = .command bs → decodeCommand (bs ++ rest) = .ok (i, rest)

/-- Every one of the 4096 bus operation words is an instruction that encodes to it (30_encoding.md
R81). -/
def Obligations.EveryBusWordDecodesAndEncodesBack : Prop :=
  ∀ w : BitVec 12, ∃ i, decode (.bus w) = .ok (i, []) ∧ encode i = .bus w

/-- A decoded command encodes back to the bytes it was read from, and its length is its first byte's
(30_encoding.md R82, 30_encoding.md R83, 30_encoding.md R84). -/
def Obligations.DecodedCommandIsItsBytes : Prop :=
  (∀ (bs : List Byte) (i : Instr) (rest : List Byte), decodeCommand bs = .ok (i, rest) →
    ∃ pre, encode i = .command pre ∧ bs = pre ++ rest) ∧
  (∀ (b : Byte) (ps : List Byte),
    (∃ r, decodeCommand (b :: ps) = .ok r) ↔
      (entryOf Config.defaultParams b).cmdLen ≤ ps.length + 1)

/-- Words of the spec's programs decode to their instructions (30_encoding.md R81, 30_encoding.md R84,
30_encoding.md R85, 95_test_vectors.md programs P1 to P5). -/
def Obligations.SampleWordsDecode : Prop :=
  decode (.bus 0x400) = .ok (.in4 0x00, []) ∧
  decode (.bus 0x700) = .ok (.in7 0x00, []) ∧
  decode (.bus 0xD06) = .ok (.out5 0x06, []) ∧
  decode (.bus 0xA1C) = .ok (.out2 0x1C, []) ∧
  decode (.command [0x0F, 0x04, 0x50]) = .ok (.seek 0 0x04 0x50, []) ∧
  decode (.command [0x03, 0xDF, 0x02]) = .ok (.specify 0 0xDF 0x02, []) ∧
  decode (.command [0x08]) = .ok (.senseInterruptStatus 0, []) ∧
  decode (.command [0xE6, 0x00, 0x00, 0x00, 0x01, 0x02, 0x12, 0x1B, 0xFF]) =
    .ok (.readData 7 0x00 0x00 0x00 0x01 0x02 0x12 0x1B 0xFF, []) ∧
  decode (.command [0x0D, 0x00, 0x02, 0x12, 0x1B, 0xE5]) =
    .ok (.formatTrack 0 0x00 0x02 0x12 0x1B 0xE5, []) ∧
  decode (.command [0x1F]) = .ok (.invalid1F 0, [])

/-- A step whose next request decodes to i runs i on the state without that request (00_scope.md R6,
R12, 30_encoding.md R80, log 1, log 25). -/
def Obligations.StepRunsTheDecodedInstruction : Prop :=
  ∀ (s : State) (code : Encoded) (i : Instr) (left : List Byte) (rest : List Request),
    s.inputs = .cpu code :: rest → decode code = .ok (i, left) →
      step s = exec i { s with
        inputs := if left = [] then rest else .cpu (.command left) :: rest }

/-- A step with a host request runs that operation; with no request it changes nothing (00_scope.md
R6, R12, 30_encoding.md R89, log 2, log 5). -/
def Obligations.StepRunsHostRequestsAndWaits : Prop :=
  (∀ (s : State) (op : HostOp) (rest : List Request), s.inputs = .host op :: rest →
    step s = .next (hostStep op { s with inputs := rest })) ∧
  (∀ (s : State) (bytes : List Byte) (e : DecodeError) (rest : List Request),
    s.inputs = .cpu (.command bytes) :: rest → decodeCommand bytes = .error e →
      step s = .next (issue bytes { s with inputs := rest })) ∧
  (∀ s : State, s.inputs = [] → step s = .next s)

/-- An instruction word placed as the next request is the one the next step runs (30_encoding.md R80,
log 1, log 15). -/
def Obligations.PlacedTableWordRuns : Prop :=
  ∀ (s : State) (nbits w : Nat) (i : Instr), decodeTableWord nbits w = some i →
    step (s.withFetchWord nbits w) = exec i s

/-- No port access and no host call traps: every step answers a next state (R300). -/
def Obligations.StepAlwaysCompletes : Prop :=
  ∀ s : State, ∃ t, step s = .next t

/-- The invariant holds right after power-on; its clauses on the image's form and the table's fit are
the model's choice (10_state.md R22 to R30, 10_state.md R33, 10_state.md R37, 10_state.md R41,
20_memory.md R69, 30_encoding.md R84, 60_exceptions.md R302, 60_exceptions.md R310,
70_reset_and_hazards.md R330, log 8, log 10, log 16). The canonical form of the image (log 10) and
the fit of the command table in the buffers (log 8, log 16) are clauses of the model's own
representation, no rule of the spec. That the reported activity is the actual one is R37 and R310. -/
def Obligations.InvariantHoldsAtReset : Prop :=
  Invariant State.reset

/-- Every step keeps the invariant; its clauses on the image's form and the table's fit are the
model's choice (10_state.md R24, R26, R27, R29, R30, R33, R36, R37, R40, 10_state.md R46, R47,
20_memory.md R69, 30_encoding.md R84, 41_fdc_commands.md R144, 41_fdc_commands.md R150, R151,
R164, 60_exceptions.md R302, 60_exceptions.md R309, R310, log 8, log 10, log 16). The canonical
form of the image (log 10) and the fit of the command table in the buffers (log 8, log 16) are
clauses of the model's own representation, no rule of the spec. -/
def Obligations.StepKeepsTheInvariant : Prop :=
  ∀ s t : State, Invariant s → step s = .next t → Invariant t

/-- No step changes a parameter of the machine (00_scope.md R9, log 8). -/
def Obligations.StepKeepsTheParameters : Prop :=
  ∀ s t : State, step s = .next t → t.params = s.params

/-- After every access and host operation, exactly one activity event if "I/O active" differs from the
reported value (R310). -/
def Obligations.ActivityIsReportedOncePerTransition : Prop :=
  ∀ (s t : State) (r : Request) (rest : List Request), s.inputs = r :: rest →
    isSingleStep r = true → step s = .next t →
      t.fdc.activeReported = ioActive t ∧
      eventCount .ioStarted t = (if ioActive t && !s.fdc.activeReported then 1 else 0) ∧
      eventCount .ioStopped t = (if !ioActive t && s.fdc.activeReported then 1 else 0)

/-- Each port access or host operation emits IrqRise exactly when the latch goes from 0 to 1
(60_exceptions.md R304, 60_exceptions.md R305, 60_exceptions.md R307, 60_exceptions.md R308). -/
def Obligations.IrqRiseOncePerRisingEdge : Prop :=
  ∀ (s t : State) (r : Request) (rest : List Request), s.inputs = r :: rest →
    isSingleStep r = true → step s = .next t →
      eventCount .irqRise t = (if !s.fdc.irq && t.fdc.irq then 1 else 0)

/-- The IRQ latch is cleared only by the last result byte, Sense Interrupt Status and hard reset
(60_exceptions.md R306, 40_fdc_ports.md R110, R111, R116, 41_fdc_commands.md R143,
70_reset_and_hazards.md R330). -/
def Obligations.LatchIsClearedOnlyAtTheListedPoints : Prop :=
  ∀ (s t : State) (r : Request) (rest : List Request), s.inputs = r :: rest →
    isSingleStep r = true → step s = .next t → s.fdc.irq = true → t.fdc.irq = false →
      r = .host .hardReset ∨
      (∃ d, r = .cpu (.bus (busWord 0x5#4 d)) ∧ s.fdc.phase = .result ∧
        s.fdc.idx + 1 = s.fdc.resLen) ∨
      (∃ d, r = .cpu (.bus (busWord 0xD#4 d)) ∧ CompletesCommand s d .senseInterruptStatus)

/-- dor, speed, nonDma and pcn change only through their port or command, or by hard reset
(10_state.md R34, 10_state.md R36, 10_state.md R49, 10_state.md R51, 40_fdc_ports.md R110, R111,
70_reset_and_hazards.md R330). -/
def Obligations.RegistersAreWrittenOnlyByTheirOwners : Prop :=
  ∀ (s t : State) (r : Request) (rest : List Request), s.inputs = r :: rest →
    isSingleStep r = true → step s = .next t → r ≠ .host .hardReset →
      (t.fdc.dor ≠ s.fdc.dor → ∃ d, r = .cpu (.bus (busWord 0xA#4 d))) ∧
      (t.fdc.speed ≠ s.fdc.speed → ∃ d, r = .cpu (.bus (busWord 0xF#4 d))) ∧
      (t.fdc.nonDma ≠ s.fdc.nonDma → ∃ d, r = .cpu (.bus (busWord 0xD#4 d)) ∧
        CompletesCommand s d .specify) ∧
      (t.fdc.pcn ≠ s.fdc.pcn → ∃ d, r = .cpu (.bus (busWord 0xD#4 d)) ∧
        (CompletesCommand s d .seek ∨ CompletesCommand s d .recalibrate))

/-- A command row, one step by the model's choice (log 4), reaches the state its bytes reach as single
OUT 5 accesses (30_encoding.md R82, 30_encoding.md R90, 00_scope.md R12, log 4). -/
def Obligations.CommandEqualsItsByteAccesses : Prop :=
  ∀ (i : Instr) (bs : List Byte) (s : State), encode i = .command bs →
    ∃ t u, exec i s = .next t ∧
      Host.Core.run Sys2Proof.core bs.length (withWords s (bs.map (busWord 0xD#4))) = .next u ∧
      u.fdc = t.fdc ∧ u.media = t.media ∧ u.params = t.params ∧ u.draws = t.draws ∧ u.inputs = []

/-- IN 4 reads 0x80, 0x90, 0xF0, 0xB0 or 0xD0 by phase and direction, and changes nothing else
(10_state.md R44, 10_state.md R45, 40_fdc_ports.md R109). -/
def Obligations.MainStatusReadsThePhase : Prop :=
  ∀ (d : Byte) (s : State), ∃ t, exec (.in4 d) s = .next t ∧
    t.result = .byte (match s.fdc.phase with
      | .idle => 0x80
      | .command => 0x90
      | .execution => if s.fdc.xferDir = .toHost then 0xF0 else 0xB0
      | .result => 0xD0) ∧
    t.fdc = { s.fdc with activeReported := ioActive s } ∧ SameOutsideFdc s t

/-- IN 2 and IN 3 read DRQ and the IRQ latch at statusBitPos with no side effect; IN 7 reads media-
changed and clears it (10_state.md R50, 10_state.md R42, 20_memory.md R67, 40_fdc_ports.md R103,
40_fdc_ports.md R105, 40_fdc_ports.md R107). -/
def Obligations.StatusBitPortsReadOneBit : Prop :=
  ∀ (d : Byte) (s : State),
    (∃ t, exec (.in2 d) s = .next t ∧
      t.result = .byte (BitVec.ofNat 8 (if 0 < s.fdc.pending then 2 ^ s.params.statusBitPos.val else 0)) ∧
      t.fdc = { s.fdc with activeReported := ioActive s } ∧ SameOutsideFdc s t) ∧
    (∃ t, exec (.in3 d) s = .next t ∧
      t.result = .byte (BitVec.ofNat 8 (if s.fdc.irq then 2 ^ s.params.statusBitPos.val else 0)) ∧
      t.fdc = { s.fdc with activeReported := ioActive s } ∧ SameOutsideFdc s t) ∧
    (∃ t, exec (.in7 d) s = .next t ∧
      t.result = .byte (BitVec.ofNat 8 (if s.media.changed then 2 ^ s.params.statusBitPos.val else 0)) ∧
      t.media = { s.media with changed := false } ∧
      t.fdc = { s.fdc with activeReported := ioActive s } ∧ t.params = s.params ∧
      t.draws = s.draws ∧ t.inputs = s.inputs)

/-- OUT 3, OUT 6, OUT 5 in Result or during a ToHost window, and OUT 0/1 with no window change nothing
(40_fdc_ports.md R102, 40_fdc_ports.md R108, 40_fdc_ports.md R112, 40_fdc_ports.md R113,
40_fdc_ports.md R119). -/
def Obligations.WritesWithoutMeaningChangeNothing : Prop :=
  ∀ (d : Byte) (s : State),
    (∃ t, exec (.out3 d) s = .next t ∧ IgnoresWrite s t) ∧
    (∃ t, exec (.out6 d) s = .next t ∧ IgnoresWrite s t) ∧
    (s.fdc.phase = .result → ∃ t, exec (.out5 d) s = .next t ∧ IgnoresWrite s t) ∧
    (s.fdc.phase = .execution → 0 < s.fdc.pending → s.fdc.xferDir ≠ .fromHost →
      ∃ t, exec (.out5 d) s = .next t ∧ IgnoresWrite s t) ∧
    (¬ (s.fdc.phase = .execution ∧ s.fdc.pending = 0) →
      ¬ (0 < s.fdc.pending ∧ s.fdc.xferDir = .fromHost) →
      (∃ t, exec (.out0 d) s = .next t ∧ IgnoresWrite s t) ∧
      (∃ t, exec (.out1 d) s = .next t ∧ IgnoresWrite s t))

/-- IN 6, IN 5 in Idle, Command or a FromHost window, and IN 0/1 with no window draw a free byte and
change nothing (00_scope.md R9, 40_fdc_ports.md R101, 40_fdc_ports.md R114, 40_fdc_ports.md R117,
40_fdc_ports.md R119, log 7). -/
def Obligations.ReadsWithoutValueDrawAFreeByte : Prop :=
  ∀ (d : Byte) (s : State),
    (∃ t, exec (.in6 d) s = .next t ∧ ReadsFreeByte s t) ∧
    (s.fdc.phase = .idle ∨ s.fdc.phase = .command →
      ∃ t, exec (.in5 d) s = .next t ∧ ReadsFreeByte s t) ∧
    (s.fdc.phase = .execution → 0 < s.fdc.pending → s.fdc.xferDir ≠ .toHost →
      ∃ t, exec (.in5 d) s = .next t ∧ ReadsFreeByte s t) ∧
    (¬ (s.fdc.phase = .execution ∧ s.fdc.pending = 0) →
      ¬ (0 < s.fdc.pending ∧ s.fdc.xferDir = .toHost) →
      (∃ t, exec (.in0 d) s = .next t ∧ ReadsFreeByte s t) ∧
      (∃ t, exec (.in1 d) s = .next t ∧ ReadsFreeByte s t))

/-- A data read of a ToHost window returns the image byte at off and advances the window
(40_fdc_ports.md R101, 40_fdc_ports.md R114, 40_fdc_ports.md R118, 40_fdc_ports.md R120,
20_memory.md R62). -/
def Obligations.DataReadMovesOneWindowByte : Prop :=
  ∀ (d : Byte) (s : State), 0 < s.fdc.pending → s.fdc.xferDir = .toHost →
    (∃ t, exec (.in0 d) s = .next t ∧ MovesByteToHost s t) ∧
    (∃ t, exec (.in1 d) s = .next t ∧ MovesByteToHost s t) ∧
    (s.fdc.phase = .execution → ∃ t, exec (.in5 d) s = .next t ∧ MovesByteToHost s t)

/-- A data write of a FromHost window stores the byte at off alone and advances the window
(40_fdc_ports.md R102, 40_fdc_ports.md R112, 40_fdc_ports.md R118, 40_fdc_ports.md R120,
20_memory.md R63). -/
def Obligations.DataWriteMovesOneWindowByte : Prop :=
  ∀ (d : Byte) (s : State), 0 < s.fdc.pending → s.fdc.xferDir = .fromHost →
    (∃ t, exec (.out0 d) s = .next t ∧ MovesByteFromHost d s t) ∧
    (∃ t, exec (.out1 d) s = .next t ∧ MovesByteFromHost d s t) ∧
    (s.fdc.phase = .execution → ∃ t, exec (.out5 d) s = .next t ∧ MovesByteFromHost d s t)

/-- In a stub's Execution phase the first data access, read or write, ends the phase and moves no
byte; a read draws (log 7) (40_fdc_ports.md R118, 40_fdc_ports.md R122, 00_scope.md R9, R11, log
7). That the free byte of a read is `openBus` of the count of draws is the model's choice (log 7). -/
def Obligations.StubAccessEndsExecution : Prop :=
  ∀ (d : Byte) (s : State), s.fdc.phase = .execution → s.fdc.pending = 0 →
    (∀ i ∈ [Instr.in0 d, Instr.in1 d, Instr.in5 d], ∃ t, exec i s = .next t ∧
      t.result = .byte (Config.openBus s.draws) ∧ t.draws = s.draws + 1 ∧
      t.fdc = { stubEnded s.fdc with activeReported := ioActive t } ∧ t.media = s.media ∧
      t.params = s.params ∧ t.inputs = s.inputs) ∧
    (∀ i ∈ [Instr.out0 d, Instr.out1 d, Instr.out5 d], ∃ t, exec i s = .next t ∧
      t.result = .none ∧ t.fdc = { stubEnded s.fdc with activeReported := ioActive t } ∧
      SameOutsideFdc s t)

/-- IN 5 in Result reads resBuf[idx]; the last byte ends the phase and clears the latch
(40_fdc_ports.md R115, 40_fdc_ports.md R116, 60_exceptions.md R305). -/
def Obligations.ResultByteIsReadAndDrained : Prop :=
  ∀ (d : Byte) (s : State) (h : s.fdc.idx < 8), s.fdc.phase = .result →
    ∃ t, exec (.in5 d) s = .next t ∧ t.result = .byte s.fdc.resBuf[s.fdc.idx] ∧
      t.fdc = { (if s.fdc.idx + 1 = s.fdc.resLen then
          { s.fdc with phase := .idle, idx := 0, irq := false }
        else { s.fdc with idx := s.fdc.idx + 1 }) with activeReported := ioActive t } ∧
      SameOutsideFdc s t

/-- OUT 5 stores a command byte in Idle and a parameter byte in Command, until the count is reached
(40_fdc_ports.md R110, 40_fdc_ports.md R111, 10_state.md R24, 10_state.md R25). -/
def Obligations.CommandBytesAreCollected : Prop :=
  (∀ (d : Byte) (s : State), s.fdc.phase = .idle → 1 < (entryOf s.params d).cmdLen →
    ∃ t, exec (.out5 d) s = .next t ∧
      t.fdc = { s.fdc with
        cmdBuf := storedBytes s.fdc.cmdBuf [d], phase := .command, idx := 1,
        activeReported := ioActive t } ∧
      SameOutsideFdc s t ∧ t.result = .none) ∧
  (∀ (d : Byte) (s : State) (h : s.fdc.idx < 10), s.fdc.phase = .command → 1 ≤ s.fdc.idx →
    s.fdc.idx + 1 < cmdCount (entryOf s.params s.fdc.cmdBuf[0]) →
    ∃ t, exec (.out5 d) s = .next t ∧
      t.fdc = { s.fdc with
        cmdBuf := s.fdc.cmdBuf.set s.fdc.idx d, idx := s.fdc.idx + 1,
        activeReported := ioActive t } ∧
      SameOutsideFdc s t ∧ t.result = .none)

/-- OUT 2 stores dor and resets if bit 2 is 0; OUT 4 resets if bit 7 is 1; OUT 7 stores two bits
(40_fdc_ports.md R104, 40_fdc_ports.md R106, 40_fdc_ports.md R121, 70_reset_and_hazards.md R332,
70_reset_and_hazards.md R333, 10_state.md R51). -/
def Obligations.ControlPortsResetOrLatch : Prop :=
  ∀ (v : Byte) (s : State),
    (∃ t, exec (.out2 v) s = .next t ∧
      t.fdc = { (if v.getLsbD 2 then { s.fdc with dor := v }
        else softResetFdc { s.fdc with dor := v }) with activeReported := ioActive t } ∧
      SameOutsideFdc s t ∧ t.result = .none) ∧
    (∃ t, exec (.out4 v) s = .next t ∧
      t.fdc = { (if v.getLsbD 7 then softResetFdc s.fdc else s.fdc) with
        activeReported := ioActive t } ∧
      SameOutsideFdc s t ∧ t.result = .none) ∧
    (∃ t, exec (.out7 v) s = .next t ∧
      t.fdc = { s.fdc with speed := BitVec.ofNat 2 v.toNat, activeReported := ioActive t } ∧
      SameOutsideFdc s t ∧ t.result = .none)

/-- Specify sets nonDma from bit 0 of its third byte and returns to Idle (R142). -/
def Obligations.SpecifySetsTheTransferMode : Prop :=
  ∀ (opt : BitVec 3) (srtHut hltNd : Byte) (s : State), s.fdc.phase = .idle → DefaultTable s →
    ∃ t, exec (.specify opt srtHut hltNd) s = .next t ∧
      CommandLeaves [cmdByte opt 0x03#5, srtHut, hltNd]
        { s.fdc with nonDma := hltNd.getLsbD 0, resLen := 0 } s t ∧
      t.media = s.media ∧ eventCount .irqRise t = 0

/-- Sense Interrupt Status clears the latch and offers ST0 and the tracked cylinder (R143). -/
def Obligations.SenseInterruptStatusReportsSt0AndCylinder : Prop :=
  ∀ (opt : BitVec 3) (s : State), s.fdc.phase = .idle → DefaultTable s →
    ∃ t, exec (.senseInterruptStatus opt) s = .next t ∧
      CommandLeaves [cmdByte opt 0x08#5]
        { s.fdc with
          irq := false, resLen := 2, phase := .result,
          resBuf := resultBytes s.fdc.resBuf [s.fdc.st0, s.fdc.pcn] } s t ∧
      t.media = s.media ∧ eventCount .irqRise t = 0

/-- Sense Drive Status composes ST3 from HDUS, the tracked cylinder and the medium, and offers it
(R144). -/
def Obligations.SenseDriveStatusReportsSt3 : Prop :=
  ∀ (opt : BitVec 3) (hdus : Byte) (s : State), s.fdc.phase = .idle → DefaultTable s →
    ∃ t v, exec (.senseDriveStatus opt hdus) s = .next t ∧
      v = (0x08 ||| (hdus &&& 0x07) ||| (if s.fdc.pcn = 0 then 0x10 else 0x00) |||
        (if s.media.present then 0x20 else 0x00) : Byte) ∧
      CommandLeaves [cmdByte opt 0x04#5, hdus]
        { s.fdc with
          st3 := v, resLen := 1, phase := .result, resBuf := resultBytes s.fdc.resBuf [v] } s t ∧
      t.media = s.media ∧ eventCount .irqRise t = 0

/-- Recalibrate sets pcn to 0, Seek to NCN; both set SE in ST0 and the latch and return to Idle (R145,
R146). -/
def Obligations.RecalibrateAndSeekTrackTheCylinder : Prop :=
  ∀ (opt : BitVec 3) (s : State), s.fdc.phase = .idle → DefaultTable s →
    (∀ us : Byte, ∃ t, exec (.recalibrate opt us) s = .next t ∧
      CommandLeaves [cmdByte opt 0x07#5, us]
        { s.fdc with pcn := 0, st0 := 0x20 ||| (us &&& 0x03), resLen := 0, irq := true } s t ∧
      t.media = s.media ∧ eventCount .irqRise t = (if s.fdc.irq then 0 else 1)) ∧
    (∀ hdus ncn : Byte, ∃ t, exec (.seek opt hdus ncn) s = .next t ∧
      CommandLeaves [cmdByte opt 0x0F#5, hdus, ncn]
        { s.fdc with pcn := ncn, st0 := 0x20 ||| (hdus &&& 0x07), resLen := 0, irq := true } s t ∧
      t.media = s.media ∧ eventCount .irqRise t = (if s.fdc.irq then 0 else 1))

/-- Read Data opens a 512-byte ToHost window at the clamped LBA and advances the sector
(41_fdc_commands.md R150, 20_memory.md R69, 20_memory.md R70, 30_encoding.md R87). -/
def Obligations.ReadDataOpensAToHostWindow : Prop :=
  ∀ (opt : BitVec 3) (hdus c h r n eot gpl dtl : Byte) (s : State), s.fdc.phase = .idle →
    DefaultTable s →
    ∃ t, exec (.readData opt hdus c h r n eot gpl dtl) s = .next t ∧
      CommandLeaves [cmdByte opt 0x06#5, hdus, c, h, r, n, eot, gpl, dtl]
        { s.fdc with
          lba := min (max ((c.toNat : Int) * 36 + (h.toNat : Int) * 18 + ((r.toNat : Int) - 1)) 0) 2879,
          off := (min (max ((c.toNat : Int) * 36 + (h.toNat : Int) * 18 + ((r.toNat : Int) - 1)) 0) 2879) * 512,
          pending := 512, xferDir := .toHost,
          curC := (advance c h r).1, curH := (advance c h r).2.1, curR := (advance c h r).2.2,
          curN := n, st0 := hdus &&& 0x07, st1 := 0, st2 := 0, resLen := 7,
          resBuf := resultBytes s.fdc.resBuf
            [hdus &&& 0x07, 0x00, 0x00, (advance c h r).1, (advance c h r).2.1,
              (advance c h r).2.2, n],
          irq := true, phase := if s.fdc.nonDma then .execution else .result } s t ∧
      t.media = s.media ∧ eventCount .irqRise t = (if s.fdc.irq then 0 else 1)

/-- Write Data opens a 512-byte FromHost window at the unclamped LBA and advances the sector
(41_fdc_commands.md R152, 20_memory.md R69, 20_memory.md R70, 30_encoding.md R87). -/
def Obligations.WriteDataOpensAFromHostWindow : Prop :=
  ∀ (opt : BitVec 3) (hdus c h r n eot gpl dtl : Byte) (s : State), s.fdc.phase = .idle →
    DefaultTable s →
    ∃ t, exec (.writeData opt hdus c h r n eot gpl dtl) s = .next t ∧
      CommandLeaves [cmdByte opt 0x05#5, hdus, c, h, r, n, eot, gpl, dtl]
        { s.fdc with
          lba := (c.toNat : Int) * 36 + (h.toNat : Int) * 18 + ((r.toNat : Int) - 1),
          off := ((c.toNat : Int) * 36 + (h.toNat : Int) * 18 + ((r.toNat : Int) - 1)) * 512,
          pending := 512, xferDir := .fromHost,
          curC := (advance c h r).1, curH := (advance c h r).2.1, curR := (advance c h r).2.2,
          curN := n, st0 := hdus &&& 0x07, st1 := 0, st2 := 0, resLen := 7,
          resBuf := resultBytes s.fdc.resBuf
            [hdus &&& 0x07, 0x00, 0x00, (advance c h r).1, (advance c h r).2.1,
              (advance c h r).2.2, n],
          irq := true, phase := if s.fdc.nonDma then .execution else .result } s t ∧
      t.media = s.media ∧ eventCount .irqRise t = (if s.fdc.irq then 0 else 1)

/-- Read ID reports the CHS registers with a medium, and returns to Idle with no result without one
(R160). -/
def Obligations.ReadIdNeedsAMedium : Prop :=
  ∀ (opt : BitVec 3) (hdus : Byte) (s : State), s.fdc.phase = .idle → DefaultTable s →
    (s.media.present = true → ∃ t, exec (.readId opt hdus) s = .next t ∧
      CommandLeaves [cmdByte opt 0x0A#5, hdus]
        { s.fdc with
          st0 := hdus &&& 0x07, st1 := 0, st2 := 0, resLen := 7,
          resBuf := resultBytes s.fdc.resBuf
            [hdus &&& 0x07, 0x00, 0x00, s.fdc.curC, s.fdc.curH, s.fdc.curR, s.fdc.curN],
          irq := true, phase := .result } s t ∧
      t.media = s.media ∧ eventCount .irqRise t = (if s.fdc.irq then 0 else 1)) ∧
    (s.media.present = false → ∃ t, exec (.readId opt hdus) s = .next t ∧
      CommandLeaves [cmdByte opt 0x0A#5, hdus] { s.fdc with resLen := 0 } s t ∧
      t.media = s.media ∧ eventCount .irqRise t = 0)

/-- Format Track fills the 512 bytes at lba*512 with the pattern byte and no other byte (R162). -/
def Obligations.FormatTrackFillsTheCurrentSector : Prop :=
  ∀ (opt : BitVec 3) (hdus n sc gpl d : Byte) (s : State), s.fdc.phase = .idle → DefaultTable s →
    ∃ t, exec (.formatTrack opt hdus n sc gpl d) s = .next t ∧
      CommandLeaves [cmdByte opt 0x0D#5, hdus, n, sc, gpl, d]
        { s.fdc with
          st0 := hdus &&& 0x07, st1 := 0, st2 := 0, resLen := 7,
          resBuf := resultBytes s.fdc.resBuf
            [hdus &&& 0x07, 0x00, 0x00, s.fdc.curC, s.fdc.curH, s.fdc.curR, n],
          irq := true, phase := .result } s t ∧
      (∀ a : Nat, ((a : Int) < s.fdc.lba * 512 ∨ s.fdc.lba * 512 + 512 ≤ (a : Int)) →
        t.media.img.read a = s.media.img.read a) ∧
      (∀ a : Nat, s.media.present = true → s.media.img.wf = true → a < s.media.img.size →
        s.fdc.lba * 512 ≤ (a : Int) → (a : Int) < s.fdc.lba * 512 + 512 →
        t.media.img.read a = d) ∧
      t.media.img.size = s.media.img.size ∧ t.media.present = s.media.present ∧
      t.media.changed = (s.media.changed || !s.media.present) ∧
      (s.media.present = false → t.media.img = s.media.img) ∧
      eventCount .flush t = (if s.media.present then 1 else 0) ∧
      eventCount .irqRise t = (if s.fdc.irq then 0 else 1)

/-- The six stubs set the direction, drop the window and enter Execution or Result without moving a
byte (41_fdc_commands.md R164, 41_fdc_commands.md R165, 41_fdc_commands.md R166,
41_fdc_commands.md R167, 41_fdc_commands.md R168, 41_fdc_commands.md R169, 41_fdc_commands.md
R170). -/
def Obligations.StubsOnlyEnterTheirPhase : Prop :=
  ∀ (opt : BitVec 3) (hdus c h r n eot gpl dtl : Byte) (s : State), s.fdc.phase = .idle →
    DefaultTable s →
    (∃ t, exec (.readTrack opt hdus c h r n eot gpl dtl) s = .next t ∧
      CommandLeaves [cmdByte opt 0x02#5, hdus, c, h, r, n, eot, gpl, dtl]
        (stubFields .toHost hdus c h r n s.fdc) s t ∧ t.media = s.media ∧
      eventCount .irqRise t = (if s.fdc.irq then 0 else 1)) ∧
    (∃ t, exec (.readDeletedData opt hdus c h r n eot gpl dtl) s = .next t ∧
      CommandLeaves [cmdByte opt 0x0C#5, hdus, c, h, r, n, eot, gpl, dtl]
        (stubFields .toHost hdus c h r n s.fdc) s t ∧ t.media = s.media ∧
      eventCount .irqRise t = (if s.fdc.irq then 0 else 1)) ∧
    (∃ t, exec (.writeDeletedData opt hdus c h r n eot gpl dtl) s = .next t ∧
      CommandLeaves [cmdByte opt 0x09#5, hdus, c, h, r, n, eot, gpl, dtl]
        (stubFields .fromHost hdus c h r n s.fdc) s t ∧ t.media = s.media ∧
      eventCount .irqRise t = (if s.fdc.irq then 0 else 1)) ∧
    (∃ t, exec (.scanEqual opt hdus c h r n eot gpl dtl) s = .next t ∧
      CommandLeaves [cmdByte opt 0x11#5, hdus, c, h, r, n, eot, gpl, dtl]
        (stubFields .fromHost hdus c h r n s.fdc) s t ∧ t.media = s.media ∧
      eventCount .irqRise t = (if s.fdc.irq then 0 else 1)) ∧
    (∃ t, exec (.scanLowOrEqual opt hdus c h r n eot gpl dtl) s = .next t ∧
      CommandLeaves [cmdByte opt 0x19#5, hdus, c, h, r, n, eot, gpl, dtl]
        (stubFields .fromHost hdus c h r n s.fdc) s t ∧ t.media = s.media ∧
      eventCount .irqRise t = (if s.fdc.irq then 0 else 1)) ∧
    (∃ t, exec (.scanHighOrEqual opt hdus c h r n eot gpl dtl) s = .next t ∧
      CommandLeaves [cmdByte opt 0x1D#5, hdus, c, h, r, n, eot, gpl, dtl]
        (stubFields .fromHost hdus c h r n s.fdc) s t ∧ t.media = s.media ∧
      eventCount .irqRise t = (if s.fdc.irq then 0 else 1))

/-- Each of the 17 unassigned indices reports ST0 = 0x80 in one result byte and leaves the latch
(41_fdc_commands.md R175, 30_encoding.md R84, 30_encoding.md R88). -/
def Obligations.InvalidCommandsReportInvalid : Prop :=
  ∀ (opt : BitVec 3) (s : State), s.fdc.phase = .idle → DefaultTable s →
    (∃ t, exec (.invalid00 opt) s = .next t ∧
      CommandLeaves [cmdByte opt 0x00#5] (invalidFields s.fdc) s t ∧ t.media = s.media ∧
      eventCount .irqRise t = 0) ∧
    (∃ t, exec (.invalid01 opt) s = .next t ∧
      CommandLeaves [cmdByte opt 0x01#5] (invalidFields s.fdc) s t ∧ t.media = s.media ∧
      eventCount .irqRise t = 0) ∧
    (∃ t, exec (.invalid0B opt) s = .next t ∧
      CommandLeaves [cmdByte opt 0x0B#5] (invalidFields s.fdc) s t ∧ t.media = s.media ∧
      eventCount .irqRise t = 0) ∧
    (∃ t, exec (.invalid0E opt) s = .next t ∧
      CommandLeaves [cmdByte opt 0x0E#5] (invalidFields s.fdc) s t ∧ t.media = s.media ∧
      eventCount .irqRise t = 0) ∧
    (∃ t, exec (.invalid10 opt) s = .next t ∧
      CommandLeaves [cmdByte opt 0x10#5] (invalidFields s.fdc) s t ∧ t.media = s.media ∧
      eventCount .irqRise t = 0) ∧
    (∃ t, exec (.invalid12 opt) s = .next t ∧
      CommandLeaves [cmdByte opt 0x12#5] (invalidFields s.fdc) s t ∧ t.media = s.media ∧
      eventCount .irqRise t = 0) ∧
    (∃ t, exec (.invalid13 opt) s = .next t ∧
      CommandLeaves [cmdByte opt 0x13#5] (invalidFields s.fdc) s t ∧ t.media = s.media ∧
      eventCount .irqRise t = 0) ∧
    (∃ t, exec (.invalid14 opt) s = .next t ∧
      CommandLeaves [cmdByte opt 0x14#5] (invalidFields s.fdc) s t ∧ t.media = s.media ∧
      eventCount .irqRise t = 0) ∧
    (∃ t, exec (.invalid15 opt) s = .next t ∧
      CommandLeaves [cmdByte opt 0x15#5] (invalidFields s.fdc) s t ∧ t.media = s.media ∧
      eventCount .irqRise t = 0) ∧
    (∃ t, exec (.invalid16 opt) s = .next t ∧
      CommandLeaves [cmdByte opt 0x16#5] (invalidFields s.fdc) s t ∧ t.media = s.media ∧
      eventCount .irqRise t = 0) ∧
    (∃ t, exec (.invalid17 opt) s = .next t ∧
      CommandLeaves [cmdByte opt 0x17#5] (invalidFields s.fdc) s t ∧ t.media = s.media ∧
      eventCount .irqRise t = 0) ∧
    (∃ t, exec (.invalid18 opt) s = .next t ∧
      CommandLeaves [cmdByte opt 0x18#5] (invalidFields s.fdc) s t ∧ t.media = s.media ∧
      eventCount .irqRise t = 0) ∧
    (∃ t, exec (.invalid1A opt) s = .next t ∧
      CommandLeaves [cmdByte opt 0x1A#5] (invalidFields s.fdc) s t ∧ t.media = s.media ∧
      eventCount .irqRise t = 0) ∧
    (∃ t, exec (.invalid1B opt) s = .next t ∧
      CommandLeaves [cmdByte opt 0x1B#5] (invalidFields s.fdc) s t ∧ t.media = s.media ∧
      eventCount .irqRise t = 0) ∧
    (∃ t, exec (.invalid1C opt) s = .next t ∧
      CommandLeaves [cmdByte opt 0x1C#5] (invalidFields s.fdc) s t ∧ t.media = s.media ∧
      eventCount .irqRise t = 0) ∧
    (∃ t, exec (.invalid1E opt) s = .next t ∧
      CommandLeaves [cmdByte opt 0x1E#5] (invalidFields s.fdc) s t ∧ t.media = s.media ∧
      eventCount .irqRise t = 0) ∧
    (∃ t, exec (.invalid1F opt) s = .next t ∧
      CommandLeaves [cmdByte opt 0x1F#5] (invalidFields s.fdc) s t ∧ t.media = s.media ∧
      eventCount .irqRise t = 0)

/-- A whole command written in Result phase is lost (40_fdc_ports.md R113, 70_reset_and_hazards.md
R340, log 4). -/
def Obligations.CommandInResultPhaseIsLost : Prop :=
  ∀ (i : Instr) (bs : List Byte) (s : State), encode i = .command bs → s.fdc.phase = .result →
    ∃ t, exec i s = .next t ∧ IgnoresWrite s t

/-- A byte sequence that ends within a command leaves the FDC in Command phase with its bytes stored
(30_encoding.md R89, 10_state.md R24, log 5). -/
def Obligations.IncompleteCommandWaits : Prop :=
  ∀ (b : Byte) (ps : List Byte) (rest : List Request) (s : State), s.fdc.phase = .idle →
    DefaultTable s → ps.length + 1 < cmdCount (entryOf s.params b) →
    s.inputs = .cpu (.command (b :: ps)) :: rest →
    ∃ t, step s = .next t ∧
      t.fdc = { s.fdc with
        cmdBuf := storedBytes s.fdc.cmdBuf (b :: ps), phase := .command, idx := ps.length + 1,
        activeReported := ioActive t } ∧
      t.media = s.media ∧ t.params = s.params ∧ t.draws = s.draws ∧ t.inputs = rest

/-- The advance is R151's for all bytes; on the disk's geometry it goes to the next LBA and wraps
after 2879 (41_fdc_commands.md R151, 20_memory.md R69). -/
def Obligations.SectorAdvanceIsTheNextLba : Prop :=
  (∀ c h r : Byte,
    (r.toNat < 18 → advance c h r = (c, h, r + 1)) ∧
    (18 ≤ r.toNat → h = 0 → advance c h r = (c, 1, 1)) ∧
    (18 ≤ r.toNat → h ≠ 0 → c.toNat < 79 → advance c h r = (c + 1, 0, 1)) ∧
    (18 ≤ r.toNat → h ≠ 0 → 79 ≤ c.toNat → advance c h r = (0, 0, 1))) ∧
  (∀ c h r : Byte, c.toNat ≤ 79 → h.toNat ≤ 1 → 1 ≤ r.toNat → r.toNat ≤ 18 →
    (advance c h r).1.toNat ≤ 79 ∧ (advance c h r).2.1.toNat ≤ 1 ∧
    lbaOf (advance c h r).1 (advance c h r).2.1 (advance c h r).2.2 = (lbaOf c h r + 1) % 2880) ∧
  (∀ c h r : Byte, 1 ≤ (advance c h r).2.2.toNat ∧ (advance c h r).2.2.toNat ≤ 18)

/-- LBA is C*36 + H*18 + (R-1), injective on the geometry and bounded in 0..2879 (R69). -/
def Obligations.LbaIsInjectiveAndBounded : Prop :=
  (∀ c h r : Byte, lbaOf c h r = (c.toNat : Int) * 36 + (h.toNat : Int) * 18 + ((r.toNat : Int) - 1)) ∧
  (∀ c h r : Byte, c.toNat ≤ 79 → h.toNat ≤ 1 → 1 ≤ r.toNat → r.toNat ≤ 18 →
    0 ≤ lbaOf c h r ∧ lbaOf c h r ≤ 2879 ∧
    ∀ c' h' r' : Byte, c'.toNat ≤ 79 → h'.toNat ≤ 1 → 1 ≤ r'.toNat → r'.toNat ≤ 18 →
      lbaOf c' h' r' = lbaOf c h r → c' = c ∧ h' = h ∧ r' = r) ∧
  (∀ c h r : Byte, -1 ≤ lbaOf c h r ∧ lbaOf c h r ≤ 14024) ∧
  lbaOf 0 0 0 = -1 ∧ lbaOf 255 255 255 = 14024

/-- State.reset holds the power-on values of R22 and R41 (10_state.md R22, 10_state.md R41,
70_reset_and_hazards.md R330). -/
def Obligations.ResetStateIsTheSpecs : Prop :=
  State.reset.fdc =
    { phase := .idle, idx := 0, cmdBuf := Vector.replicate 10 0, resBuf := Vector.replicate 8 0,
      resLen := 0, st0 := 0, st1 := 0, st2 := 0, st3 := 0, lastCmd := 0, pending := 0,
      xferDir := .none, off := 0, lba := 0, curC := 0, curH := 0, curR := 1, curN := 2, pcn := 0,
      irq := false, nonDma := true, dor := 0, speed := 0, activeReported := false } ∧
  State.reset.media = { present := false, img := ⟨0, []⟩, changed := false }

/-- HardReset gives every FdcState field its hard value and keeps the media store
(70_reset_and_hazards.md R330, 70_reset_and_hazards.md R331, 60_exceptions.md R310). -/
def Obligations.HardResetKeepsTheMedia : Prop :=
  ∀ s : State,
    (hostStep .hardReset s).fdc =
      { phase := .idle, idx := 0, cmdBuf := Vector.replicate 10 0, resBuf := Vector.replicate 8 0,
        resLen := 0, st0 := 0, st1 := 0, st2 := 0, st3 := 0, lastCmd := 0, pending := 0,
        xferDir := .none, off := 0, lba := 0, curC := 0, curH := 0, curR := 1, curN := 2, pcn := 0,
        irq := false, nonDma := s.params.resetNonDma, dor := 0, speed := 0,
        activeReported := false } ∧
    SameOutsideFdc s (hostStep .hardReset s) ∧
    (hostStep .hardReset s).events = (if s.fdc.activeReported then [.ioStopped] else [])

/-- Load of a file's bytes makes them the image, marks media changed and resets the offset
(70_reset_and_hazards.md R335, 10_state.md R40, log 10, log 11). -/
def Obligations.LoadReplacesTheImage : Prop :=
  ∀ (bs : List Byte) (s : State), ∃ t, hostStep (.load (ImageFile.ofBytes bs)) s = t ∧
    t.media.img.toBytes = bs ∧ t.media.img.size = bs.length ∧ t.media.present = true ∧
    t.media.changed = true ∧ t.result = .bool true ∧
    t.fdc = { s.fdc with off := 0, activeReported := ioActive t } ∧
    t.params = s.params ∧ t.draws = s.draws ∧ t.inputs = s.inputs ∧
    t.events.head? = some .mediaLoaded ∧ eventCount .mediaLoaded t = 1

/-- Eject empties the media store and the transfer; without a medium it fails and, like a failed Load,
changes nothing (70_reset_and_hazards.md R336, 70_reset_and_hazards.md R338,
70_reset_and_hazards.md R337, 60_exceptions.md R310). -/
def Obligations.EjectClearsMediaAndPhase : Prop :=
  (∀ s : State, s.media.present = true → ∃ t, hostStep .eject s = t ∧
    t.media = { present := false, img := ⟨0, []⟩, changed := true } ∧ t.result = .bool true ∧
    t.fdc = { s.fdc with
      phase := .idle, idx := 0, resLen := 0, pending := 0, xferDir := .none, off := 0,
      activeReported := false } ∧
    t.params = s.params ∧ t.draws = s.draws ∧ t.inputs = s.inputs ∧
    t.events = (if s.fdc.activeReported then [.mediaEjected, .ioStopped] else [.mediaEjected])) ∧
  (∀ s : State, s.media.present = false → Settled s →
    SameButOutputs s (hostStep .eject s) ∧ (hostStep .eject s).result = .bool false ∧
    (hostStep .eject s).events = []) ∧
  (∀ s : State, Settled s →
    SameButOutputs s (hostStep .loadFailed s) ∧ (hostStep .loadFailed s).result = .bool false ∧
    (hostStep .loadFailed s).events = [])

/-- Each FAT12 call answers its function of the media store, the parameters and its operands, and
disturbs nothing (00_scope.md R7, R12, 20_memory.md R64, 42_fat12_codec.md R201, R203,
42_fat12_codec.md R210, R211, 43_cluster_chain.md R231, R233, R234, 44_directory_parser.md R251,
R265, 60_exceptions.md R312, log 8, log 12, log 20). That the mutation gate is a request which
answers true exactly if "I/O active" is false is the model's choice (log 20): R312 says only that
a mutation is refused while it is true. -/
def Obligations.FatQueriesDisturbNothing : Prop :=
  (∀ (call : FatCall) (s : State), Settled s →
    SameButOutputs s (hostStep (.fat call) s) ∧ (hostStep (.fat call) s).events = []) ∧
  (∀ (call : FatCall) (s u : State), u.media = s.media → u.params = s.params →
    (hostStep (.fat call) u).result = (hostStep (.fat call) s).result) ∧
  (∀ s : State,
    (hostStep (.fat .loadGeometry) s).result = .geometry (loadGeometry s.media) ∧
    (∀ g, (hostStep (.fat (.fatBuffer g)) s).result =
      .bytes (rangeRead s.media (g.fatStart : Int) (g.spf * g.bps))) ∧
    (∀ fat c, (hostStep (.fat (.readEntry fat c)) s).result = .entry (readEntry fat c)) ∧
    (∀ fat c v, (hostStep (.fat (.writeEntry fat c v)) s).result = .bytes (writeEntry fat c v)) ∧
    (∀ g fat start, (hostStep (.fat (.readChain g fat start)) s).result =
      .bytes (readChain s.media g fat start)) ∧
    (∀ g fat count, (hostStep (.fat (.allocate g fat count)) s).result =
      .clusters (allocate g fat count)) ∧
    (∀ g fat, (hostStep (.fat (.freeClusters g fat)) s).result = .count (freeClusters g fat)) ∧
    (∀ g fat raw depth, (hostStep (.fat (.parseDirectory g fat raw depth)) s).result =
      .nodes (parseDirectory s.params s.media g fat raw depth)) ∧
    (∀ name, (hostStep (.fat (.buildTree name)) s).result =
      .tree (buildTree s.params s.media name))) ∧
  (∀ s : State, Settled s →
    SameButOutputs s (hostStep .mutationGate s) ∧
    (hostStep .mutationGate s).result = .bool (!ioActive s))

/-- Codec laws: an entry reads back as written, every other entry and the length are kept (R213). -/
def Obligations.CodecLaws : Prop :=
  ∀ (fat fat' : List Byte) (c v : Nat), writeEntry fat c v = some fat' →
    readEntry fat' c = some (BitVec.ofNat 12 v) ∧
    (∀ d, d ≠ c → readEntry fat' d = readEntry fat d) ∧
    fat'.length = fat.length

/-- Reading and writing an entry fail exactly when its second byte lies past the buffer (R212). -/
def Obligations.CodecFailsExactlyPastTheBuffer : Prop :=
  ∀ (fat : List Byte) (c v : Nat),
    (readEntry fat c = none ↔ c + c / 2 + 1 ≥ fat.length) ∧
    (writeEntry fat c v = none ↔ c + c / 2 + 1 ≥ fat.length)

/-- A chain read gives its clusters' bytes in chain order, at most totalClusters + 2 clusters, and
fails only on an unreadable one (43_cluster_chain.md R230, 43_cluster_chain.md R231,
43_cluster_chain.md R232, 42_fat12_codec.md R214). -/
def Obligations.ChainIsBoundedAndFailsOnlyOnIo : Prop :=
  (∀ (m : MediaStore) (g : Geometry) (fat out : List Byte) (start : Nat),
    readChain m g fat start = some out →
      ∃ n, n ≤ g.totalClusters + 2 ∧ out.length = n * g.bytesPerCluster ∧
        (∀ k, k < n → ∃ c, chainCluster g fat start k = some c ∧
          rangeRead m ((g.dataStart + (c - 2) * g.bytesPerCluster : Nat) : Int) g.bytesPerCluster =
            some ((out.drop (k * g.bytesPerCluster)).take g.bytesPerCluster)) ∧
        (n = g.totalClusters + 2 ∨ chainCluster g fat start n = none)) ∧
  (∀ (m : MediaStore) (g : Geometry) (fat : List Byte) (start : Nat),
    readChain m g fat start = none ↔
      ∃ k c, k < g.totalClusters + 2 ∧ chainCluster g fat start k = some c ∧
        rangeRead m ((g.dataStart + (c - 2) * g.bytesPerCluster : Nat) : Int) g.bytesPerCluster =
          none) ∧
  (∀ (m : MediaStore) (g : Geometry) (fat : List Byte) (start : Nat),
    (∀ c, 2 ≤ c → c < g.totalClusters + 2 → clusterBytes m g c ≠ none) →
      ∃ out, readChain m g fat start = some out) ∧
  (∀ (m : MediaStore) (g : Geometry) (fat : List Byte) (start : Nat),
    (start < 2 ∨ g.totalClusters + 2 ≤ start) → readChain m g fat start = some [])

/-- Allocate gives the lowest count free clusters, ascending; it fails exactly if there are fewer;
FreeClusters counts them (43_cluster_chain.md R233, 43_cluster_chain.md R234). -/
def Obligations.AllocateTakesTheFirstFreeClusters : Prop :=
  ∀ (g : Geometry) (fat : List Byte) (count : Nat),
    (∀ cs, allocate g fat count = some cs →
      cs.length = count ∧ cs.Pairwise (· < ·) ∧
      (∀ c ∈ cs, 2 ≤ c ∧ c < g.totalClusters + 2 ∧ readEntry fat c = some 0) ∧
      (∀ c, 2 ≤ c → c < g.totalClusters + 2 → readEntry fat c = some 0 → c ∉ cs →
        ∀ d ∈ cs, d < c)) ∧
    (allocate g fat count = none ↔ freeClusters g fat < count) ∧
    freeClusters g fat = (List.range (g.totalClusters + 2)).countP fun c =>
      decide (2 ≤ c) && decide (readEntry fat c = some 0)

/-- LoadGeometry fails exactly with no boot sector or a zero field, and otherwise gives the fields of
R201 and R202 (42_fat12_codec.md R201, 42_fat12_codec.md R202). -/
def Obligations.GeometryIsReadFromTheBootSector : Prop :=
  ∀ (m : MediaStore) (b : List Byte), b = m.img.toBytes →
    (m.present = false ∨ m.img.size < 512 ∨ leNat b 0x0B 2 = 0 ∨ leNat b 0x0D 1 = 0 ∨
        leNat b 0x10 1 = 0 ∨ leNat b 0x16 2 = 0 → loadGeometry m = none) ∧
    (m.present = true → 512 ≤ m.img.size → leNat b 0x0B 2 ≠ 0 → leNat b 0x0D 1 ≠ 0 →
        leNat b 0x10 1 ≠ 0 → leNat b 0x16 2 ≠ 0 →
      ∃ g ts, loadGeometry m = some g ∧
        g.bps = leNat b 0x0B 2 ∧ g.spc = leNat b 0x0D 1 ∧ g.rsv = leNat b 0x0E 2 ∧
        g.nfat = leNat b 0x10 1 ∧ g.rootEnt = leNat b 0x11 2 ∧ g.spf = leNat b 0x16 2 ∧
        g.rootEnt * 32 ≤ g.rootDirSectors * g.bps ∧
        g.rootDirSectors * g.bps < g.rootEnt * 32 + g.bps ∧
        g.fatStart = g.rsv * g.bps ∧ g.rootStart = g.fatStart + g.nfat * g.spf * g.bps ∧
        g.dataStart = g.rootStart + g.rootDirSectors * g.bps ∧ g.bytesPerCluster = g.spc * g.bps ∧
        ts = (if leNat b 0x13 2 ≠ 0 then leNat b 0x13 2
          else if leNat b 0x20 4 ≠ 0 then leNat b 0x20 4 else m.img.size / g.bps) ∧
        g.totalClusters = (if g.rsv + g.nfat * g.spf + g.rootDirSectors < ts then
          (ts - (g.rsv + g.nfat * g.spf + g.rootDirSectors)) / g.spc else 0))

/-- A directory ends at its end marker or last whole entry; deleted, label and dot entries add nothing
and drop a pending name (44_directory_parser.md R251, 44_directory_parser.md R252,
44_directory_parser.md R253, 44_directory_parser.md R254, 44_directory_parser.md R257,
44_directory_parser.md R261). -/
def Obligations.DirectoryScanSkipsAndStops : Prop :=
  ∀ (p : Params) (m : MediaStore) (g : Geometry) (fat : List Byte) (fs : List (List Byte))
    (e rest : List Byte) (depth : Nat), (∀ f ∈ fs, IsFragment f) →
    (rest.length < 32 → parseDirectory p m g fat (fs.flatten ++ rest) depth = .nil) ∧
    (e.length = 32 → byteAt e 0 = 0x00 →
      parseDirectory p m g fat (fs.flatten ++ (e ++ rest)) depth = .nil) ∧
    (e.length = 32 → byteAt e 0 ≠ 0x00 →
      (byteAt e 0 = 0xE5 ∨ (byteAt e 11 ≠ 0x0F ∧ byteAt e 11 &&& 0x08 ≠ 0) ∨
        (byteAt e 11 ≠ 0x0F ∧ (shortName e = [0x2E] ∨ shortName e = [0x2E, 0x2E]))) →
      parseDirectory p m g fat (fs.flatten ++ (e ++ rest)) depth =
        parseDirectory p m g fat rest depth)

/-- The tree of a directory has at most maxDirDepth - depth + 1 levels (44_directory_parser.md R264,
44_directory_parser.md R251). -/
def Obligations.DirectoryDepthIsCapped : Prop :=
  ∀ (p : Params) (m : MediaStore) (g : Geometry) (fat raw : List Byte) (depth : Nat),
    (parseDirectory p m g fat raw depth).height ≤ p.maxDirDepth - depth + 1

/-- A timestamp is none exactly when both words are 0, and else 19 characters YYYY-MM-DD HH:MM:SS
(R263). -/
def Obligations.TimestampOnlyWhenNonZero : Prop :=
  (∀ t d : U16, timestamp t d = none ↔ t = 0 ∧ d = 0) ∧
  (∀ t d : U16, ∀ text, timestamp t d = some text →
    text = fourDigits (1980 + d.toNat / 512) ++ '-' :: twoDigits (d.toNat / 32 % 16) ++
      '-' :: twoDigits (d.toNat % 32) ++ ' ' :: twoDigits (t.toNat / 2048) ++
      ':' :: twoDigits (t.toNat / 32 % 64) ++ ':' :: twoDigits (t.toNat % 32 * 2)) ∧
  timestamp 0x6000 0x5A21 = some ['2', '0', '2', '5', '-', '0', '1', '-', '0', '1', ' ', '1', '2',
    ':', '0', '0', ':', '0', '0']

/-- A long-name fragment sizes the accumulator, at most 403 units, and writes its units up to the
first NUL or filler (44_directory_parser.md R255, 44_directory_parser.md R256, 00_scope.md R10). -/
def Obligations.LongNameFragmentFillsTheAccumulator : Prop :=
  ∀ (acc acc0 : List U16) (e : List Byte) (seq : Nat), seq = (byteAt e 0).toNat % 32 →
    acc0 = (if byteAt e 0 &&& 0x40 ≠ 0 then List.replicate (seq * 13) 0x0000 else acc) →
    (seq = 0 ∨ acc0.length < seq * 13 → lfnFragment acc e = acc0) ∧
    (1 ≤ seq → seq * 13 ≤ acc0.length →
      (lfnFragment acc e).length = acc0.length ∧
      (∀ i, i < (seq - 1) * 13 ∨ seq * 13 ≤ i → (lfnFragment acc e)[i]? = acc0[i]?) ∧
      (∀ j, j < 13 → (∀ k, k ≤ j → fragmentUnit e k ≠ 0x0000 ∧ fragmentUnit e k ≠ 0xFFFF) →
        (lfnFragment acc e)[(seq - 1) * 13 + j]? = some (fragmentUnit e j)) ∧
      (∀ j, j < 13 → (∃ k, k ≤ j ∧ (fragmentUnit e k = 0x0000 ∨ fragmentUnit e k = 0xFFFF)) →
        (lfnFragment acc e)[(seq - 1) * 13 + j]? = acc0[(seq - 1) * 13 + j]?)) ∧
    (byteAt e 0 &&& 0x40 ≠ 0 → (lfnFragment acc e).length = seq * 13 ∧
      (lfnFragment acc e).length ≤ 403) ∧
    (byteAt e 0 &&& 0x40 = 0 → (lfnFragment acc e).length = acc.length ∧ lfnFragment [] e = [])

/-- BuildTree gives a disk root with its capacity and free bytes, or none if geometry, FAT or root
cannot be read (44_directory_parser.md R265, 43_cluster_chain.md R234). -/
def Obligations.TreeNeedsGeometryFatAndRoot : Prop :=
  ∀ (p : Params) (m : MediaStore) (name : List U16),
    (buildTree p m name = none ↔
      ∀ g, loadGeometry m = some g → rangeRead m (g.fatStart : Int) (g.spf * g.bps) = none ∨
        rangeRead m (g.rootStart : Int) (g.rootDirSectors * g.bps) = none) ∧
    (∀ g fat raw, loadGeometry m = some g →
      rangeRead m (g.fatStart : Int) (g.spf * g.bps) = some fat →
      rangeRead m (g.rootStart : Int) (g.rootDirSectors * g.bps) = some raw →
      buildTree p m name = some (.node
        { kind := .disk, name := name, size := m.img.size, firstCluster := 0, modified := none,
          capacity := some (g.totalClusters * g.bytesPerCluster),
          free := some (freeClusters g fat * g.bytesPerCluster) }
        (parseDirectory p m g fat raw 0) .nil))

/-- A FDC media write is seen by the next read of its offset and by no other offset (20_memory.md R62,
20_memory.md R63, 20_memory.md R72). -/
def Obligations.ImageWriteThenReadGivesTheByte : Prop :=
  (∀ (off : Int) (v : Byte) (s : State), s.media.present = true → s.media.img.wf = true →
    0 ≤ off → off < (s.media.img.size : Int) →
      memReadByte off (memWrite off v s) = v ∧
      ∀ o : Int, o ≠ off → memReadByte o (memWrite off v s) = memReadByte o s) ∧
  (∀ (off : Int) (v : Byte) (s : State), s.media.present = true →
    off < 0 ∨ (s.media.img.size : Int) ≤ off → memWrite off v s = s) ∧
  (∀ (off : Int) (v : Byte) (s : State), s.media.present = false →
    memWrite off v s = { s with media := { s.media with changed := true } })

/-- A normal entry adds its node: kind, long or short name, size, first cluster, time, and a
directory's children (44_directory_parser.md R250, 44_directory_parser.md R251,
44_directory_parser.md R258, 44_directory_parser.md R259, 44_directory_parser.md R264, 00_scope.md
R10, log 19). -/
def Obligations.NormalEntryGivesItsNode : Prop :=
  ∀ (p : Params) (m : MediaStore) (g : Geometry) (fat : List Byte) (fs : List (List Byte))
    (e rest : List Byte) (depth : Nat), (∀ f ∈ fs, IsFragment f) → IsNormalEntry e →
    parseDirectory p m g fat (fs.flatten ++ (e ++ rest)) depth =
      .node
        { kind := if byteAt e 11 &&& 0x10 ≠ 0 then .directory else .file,
          name := if longName (pendingName fs) ≠ [] then longName (pendingName fs)
            else shortName e,
          size := leNat e 28 4, firstCluster := BitVec.ofNat 16 (leNat e 26 2),
          modified := timestamp (BitVec.ofNat 16 (leNat e 22 2)) (BitVec.ofNat 16 (leNat e 24 2)),
          capacity := none, free := none }
        (if byteAt e 11 &&& 0x10 ≠ 0 ∧ depth + 1 ≤ p.maxDirDepth then
          (readChain m g fat (leNat e 26 2)).elim .nil fun r =>
            parseDirectory p m g fat r (depth + 1)
        else .nil)
        (parseDirectory p m g fat rest depth)

/-- A long name ends before its first NUL unit; a short name is its two trimmed fields, joined by a
dot, the escape undone (44_directory_parser.md R259, 44_directory_parser.md R260). -/
def Obligations.NamesAreReadFromTheirFields : Prop :=
  (∀ acc : List U16, longName acc <+: acc ∧ 0x0000 ∉ longName acc ∧
    (longName acc = acc ∨ acc[(longName acc).length]? = some 0x0000)) ∧
  (∀ b x rest : List Byte, b.length ≤ 8 → x.length ≤ 3 → b.getLast? ≠ some 0x20 →
    x.getLast? ≠ some 0x20 →
    shortName (paddedField b 8 ++ (paddedField x 3 ++ rest)) =
      ((if b.head? = some 0x05 then 0xE5 :: b.tail else b) ++
        (if x = [] then [] else 0x2E :: x)).map fun v => v.zeroExtend 16) ∧
  (∀ e : List Byte, 11 ≤ e.length → ∃ b x rest : List Byte, b.length ≤ 8 ∧ x.length ≤ 3 ∧
    b.getLast? ≠ some 0x20 ∧ x.getLast? ≠ some 0x20 ∧
    e = paddedField b 8 ++ (paddedField x 3 ++ rest))

/-- A range read gives the image bytes of its range, and fails exactly with no medium or a range
outside the image (20_memory.md R64). -/
def Obligations.RangeReadGivesTheImageBytes : Prop :=
  ∀ (m : MediaStore) (off : Int) (n : Nat),
    (rangeRead m off n = none ↔
      m.present = false ∨ off < 0 ∨ (m.img.size : Int) < off + (n : Int)) ∧
    (∀ bs, rangeRead m off n = some bs → bs.length = n ∧
      ∀ i, i < n → bs[i]? = some (m.img.read (off.toNat + i)))

/-- An entry is the low or high 12 bits of its little-endian word; a write changes these 12 bits and
nothing else (42_fat12_codec.md R210, 42_fat12_codec.md R211, 00_scope.md R10). -/
def Obligations.CodecPacksTwelveBits : Prop :=
  ∀ (fat : List Byte) (c i : Nat), i = c + c / 2 → i + 1 < fat.length →
    (∃ v, readEntry fat c = some v ∧
      v.toNat = if c % 2 = 0 then leNat fat i 2 % 4096 else leNat fat i 2 / 16) ∧
    ∀ v : Nat, ∃ fat', writeEntry fat c v = some fat' ∧ fat'.length = fat.length ∧
      (∀ j, j ≠ i → j ≠ i + 1 → byteAt fat' j = byteAt fat j) ∧
      (byteAt fat' i).toNat =
        (if c % 2 = 0 then v % 256 else (byteAt fat i).toNat % 16 + v % 16 * 16) ∧
      (byteAt fat' (i + 1)).toNat =
        (if c % 2 = 0 then (byteAt fat (i + 1)).toNat / 16 * 16 + v % 4096 / 256
        else v % 4096 / 16)
end

