-- ==== Sys2Proof/Laws/State.lean ====
section
/-! SUPPORT. One lemma per field per update of the state. -/

namespace Sys2Proof.Machine

@[simp] theorem emit_fdc (e : Event) (s : State) : (emit e s).fdc = s.fdc := rfl
@[simp] theorem emit_media (e : Event) (s : State) : (emit e s).media = s.media := rfl
@[simp] theorem emit_events (e : Event) (s : State) : (emit e s).events = s.events ++ [e] := rfl
@[simp] theorem emit_result (e : Event) (s : State) : (emit e s).result = s.result := rfl
@[simp] theorem emit_params (e : Event) (s : State) : (emit e s).params = s.params := rfl
@[simp] theorem emit_draws (e : Event) (s : State) : (emit e s).draws = s.draws := rfl
@[simp] theorem emit_inputs (e : Event) (s : State) : (emit e s).inputs = s.inputs := rfl

@[simp] theorem answer_fdc (r : StepResult) (s : State) : (answer r s).fdc = s.fdc := rfl
@[simp] theorem answer_media (r : StepResult) (s : State) : (answer r s).media = s.media := rfl
@[simp] theorem answer_events (r : StepResult) (s : State) : (answer r s).events = s.events := rfl
@[simp] theorem answer_result (r : StepResult) (s : State) : (answer r s).result = r := rfl
@[simp] theorem answer_params (r : StepResult) (s : State) : (answer r s).params = s.params := rfl
@[simp] theorem answer_draws (r : StepResult) (s : State) : (answer r s).draws = s.draws := rfl
@[simp] theorem answer_inputs (r : StepResult) (s : State) : (answer r s).inputs = s.inputs := rfl

@[simp] theorem openStep_fdc (s : State) : (openStep s).fdc = s.fdc := rfl
@[simp] theorem openStep_media (s : State) : (openStep s).media = s.media := rfl
@[simp] theorem openStep_events (s : State) : (openStep s).events = [] := rfl
@[simp] theorem openStep_result (s : State) : (openStep s).result = .none := rfl
@[simp] theorem openStep_params (s : State) : (openStep s).params = s.params := rfl
@[simp] theorem openStep_draws (s : State) : (openStep s).draws = s.draws := rfl
@[simp] theorem openStep_inputs (s : State) : (openStep s).inputs = s.inputs := rfl

@[simp] theorem answerDraw_fdc (s : State) : (answerDraw s).fdc = s.fdc := rfl
@[simp] theorem answerDraw_media (s : State) : (answerDraw s).media = s.media := rfl
@[simp] theorem answerDraw_events (s : State) : (answerDraw s).events = s.events := rfl
@[simp] theorem answerDraw_result (s : State) : (answerDraw s).result = .byte (Config.openBus s.draws) := rfl
@[simp] theorem answerDraw_params (s : State) : (answerDraw s).params = s.params := rfl
@[simp] theorem answerDraw_draws (s : State) : (answerDraw s).draws = s.draws + 1 := rfl
@[simp] theorem answerDraw_inputs (s : State) : (answerDraw s).inputs = s.inputs := rfl

@[simp] theorem setIrq_fdc (s : State) : (setIrq s).fdc = { s.fdc with irq := true } := rfl
@[simp] theorem setIrq_media (s : State) : (setIrq s).media = s.media := rfl
@[simp] theorem setIrq_events (s : State) : (setIrq s).events = if s.fdc.irq then s.events else s.events ++ [.irqRise] := rfl
@[simp] theorem setIrq_result (s : State) : (setIrq s).result = s.result := rfl
@[simp] theorem setIrq_params (s : State) : (setIrq s).params = s.params := rfl
@[simp] theorem setIrq_draws (s : State) : (setIrq s).draws = s.draws := rfl
@[simp] theorem setIrq_inputs (s : State) : (setIrq s).inputs = s.inputs := rfl

@[simp] theorem clearIrq_fdc (s : State) : (clearIrq s).fdc = { s.fdc with irq := false } := rfl
@[simp] theorem clearIrq_media (s : State) : (clearIrq s).media = s.media := rfl
@[simp] theorem clearIrq_events (s : State) : (clearIrq s).events = s.events := rfl
@[simp] theorem clearIrq_result (s : State) : (clearIrq s).result = s.result := rfl
@[simp] theorem clearIrq_params (s : State) : (clearIrq s).params = s.params := rfl
@[simp] theorem clearIrq_draws (s : State) : (clearIrq s).draws = s.draws := rfl
@[simp] theorem clearIrq_inputs (s : State) : (clearIrq s).inputs = s.inputs := rfl

@[simp] theorem latchChanged_fdc (s : State) : (latchChanged s).fdc = s.fdc := rfl
@[simp] theorem latchChanged_media (s : State) : (latchChanged s).media = { s.media with changed := true } := rfl
@[simp] theorem latchChanged_events (s : State) : (latchChanged s).events = s.events := rfl
@[simp] theorem latchChanged_result (s : State) : (latchChanged s).result = s.result := rfl
@[simp] theorem latchChanged_params (s : State) : (latchChanged s).params = s.params := rfl
@[simp] theorem latchChanged_draws (s : State) : (latchChanged s).draws = s.draws := rfl
@[simp] theorem latchChanged_inputs (s : State) : (latchChanged s).inputs = s.inputs := rfl

@[simp] theorem softReset_fdc (s : State) : (softReset s).fdc = { s.fdc with
      phase := .idle, idx := 0, cmdBuf := Vector.replicate 10 0, resBuf := Vector.replicate 8 0,
      resLen := 0, pending := 0, xferDir := .none, off := 0 } := rfl
@[simp] theorem softReset_media (s : State) : (softReset s).media = s.media := rfl
@[simp] theorem softReset_events (s : State) : (softReset s).events = s.events := rfl
@[simp] theorem softReset_result (s : State) : (softReset s).result = s.result := rfl
@[simp] theorem softReset_params (s : State) : (softReset s).params = s.params := rfl
@[simp] theorem softReset_draws (s : State) : (softReset s).draws = s.draws := rfl
@[simp] theorem softReset_inputs (s : State) : (softReset s).inputs = s.inputs := rfl

@[simp] theorem hardReset_fdc (s : State) : (hardReset s).fdc = { FdcState.powerOn s.params with activeReported := s.fdc.activeReported } := rfl
@[simp] theorem hardReset_media (s : State) : (hardReset s).media = s.media := rfl
@[simp] theorem hardReset_events (s : State) : (hardReset s).events = s.events := rfl
@[simp] theorem hardReset_result (s : State) : (hardReset s).result = s.result := rfl
@[simp] theorem hardReset_params (s : State) : (hardReset s).params = s.params := rfl
@[simp] theorem hardReset_draws (s : State) : (hardReset s).draws = s.draws := rfl
@[simp] theorem hardReset_inputs (s : State) : (hardReset s).inputs = s.inputs := rfl

@[simp] theorem flushMedium_fdc (s : State) :
    (flushMedium s).fdc = s.fdc := by
  unfold flushMedium; split <;> simp_all
@[simp] theorem flushMedium_media (s : State) :
    (flushMedium s).media = s.media := by
  unfold flushMedium; split <;> simp_all
@[simp] theorem flushMedium_events (s : State) :
    (flushMedium s).events = if s.media.present then s.events ++ [.flush] else s.events := by
  unfold flushMedium; split <;> simp_all
@[simp] theorem flushMedium_result (s : State) :
    (flushMedium s).result = s.result := by
  unfold flushMedium; split <;> simp_all
@[simp] theorem flushMedium_params (s : State) :
    (flushMedium s).params = s.params := by
  unfold flushMedium; split <;> simp_all
@[simp] theorem flushMedium_draws (s : State) :
    (flushMedium s).draws = s.draws := by
  unfold flushMedium; split <;> simp_all
@[simp] theorem flushMedium_inputs (s : State) :
    (flushMedium s).inputs = s.inputs := by
  unfold flushMedium; split <;> simp_all

@[simp] theorem memReadState_fdc (s : State) :
    (memReadState s).fdc = s.fdc := by
  unfold memReadState; split <;> simp_all
@[simp] theorem memReadState_media (s : State) :
    (memReadState s).media = if s.media.present then s.media else { s.media with changed := true } := by
  unfold memReadState; split <;> simp_all
@[simp] theorem memReadState_events (s : State) :
    (memReadState s).events = s.events := by
  unfold memReadState; split <;> simp_all
@[simp] theorem memReadState_result (s : State) :
    (memReadState s).result = s.result := by
  unfold memReadState; split <;> simp_all
@[simp] theorem memReadState_params (s : State) :
    (memReadState s).params = s.params := by
  unfold memReadState; split <;> simp_all
@[simp] theorem memReadState_draws (s : State) :
    (memReadState s).draws = s.draws := by
  unfold memReadState; split <;> simp_all
@[simp] theorem memReadState_inputs (s : State) :
    (memReadState s).inputs = s.inputs := by
  unfold memReadState; split <;> simp_all

@[simp] theorem memWrite_fdc (off : Int) (v : Byte) (s : State) :
    (memWrite off v s).fdc = s.fdc := by
  unfold memWrite; repeat' split
  all_goals rfl
@[simp] theorem memWrite_events (off : Int) (v : Byte) (s : State) :
    (memWrite off v s).events = s.events := by
  unfold memWrite; repeat' split
  all_goals rfl
@[simp] theorem memWrite_result (off : Int) (v : Byte) (s : State) :
    (memWrite off v s).result = s.result := by
  unfold memWrite; repeat' split
  all_goals rfl
@[simp] theorem memWrite_params (off : Int) (v : Byte) (s : State) :
    (memWrite off v s).params = s.params := by
  unfold memWrite; repeat' split
  all_goals rfl
@[simp] theorem memWrite_draws (off : Int) (v : Byte) (s : State) :
    (memWrite off v s).draws = s.draws := by
  unfold memWrite; repeat' split
  all_goals rfl
@[simp] theorem memWrite_inputs (off : Int) (v : Byte) (s : State) :
    (memWrite off v s).inputs = s.inputs := by
  unfold memWrite; repeat' split
  all_goals rfl

@[simp] theorem activityRule_fdc (s : State) :
    (activityRule s).fdc = { s.fdc with activeReported := ioActive s } := by
  unfold activityRule; split
  · next h => rw [h]
  · rfl
@[simp] theorem activityRule_media (s : State) :
    (activityRule s).media = s.media := by
  unfold activityRule; split <;> rfl
@[simp] theorem activityRule_events (s : State) :
    (activityRule s).events = s.events ++ (if ioActive s = s.fdc.activeReported then []
      else [if ioActive s then .ioStarted else .ioStopped]) := by
  unfold activityRule; split <;> simp_all
@[simp] theorem activityRule_result (s : State) :
    (activityRule s).result = s.result := by
  unfold activityRule; split <;> rfl
@[simp] theorem activityRule_params (s : State) :
    (activityRule s).params = s.params := by
  unfold activityRule; split <;> rfl
@[simp] theorem activityRule_draws (s : State) :
    (activityRule s).draws = s.draws := by
  unfold activityRule; split <;> rfl
@[simp] theorem activityRule_inputs (s : State) :
    (activityRule s).inputs = s.inputs := by
  unfold activityRule; split <;> rfl

/-- What the activity rule leaves is settled (R310). -/
theorem activityRule_settled (s : State) : Settled (activityRule s) := by
  simp [Settled, ioActive]

/-- The activity rule changes nothing in a settled state (R310). -/
theorem activityRule_of_settled {s : State} (h : Settled s) : activityRule s = s := by
  unfold activityRule; rw [if_pos h.symm]

/-- "I/O active" depends on the medium, the phase and the pending count alone (R309). -/
theorem ioActive_congr {s t : State} (hm : t.media.present = s.media.present)
    (hp : t.fdc.phase = s.fdc.phase) (hn : t.fdc.pending = s.fdc.pending) :
    ioActive t = ioActive s := by
  simp [ioActive, hm, hp, hn]

@[simp] theorem ioActive_activityRule (s : State) : ioActive (activityRule s) = ioActive s :=
  ioActive_congr (by simp) (by simp) (by simp)

@[simp] theorem ioActive_openStep (s : State) : ioActive (openStep s) = ioActive s := rfl

end Sys2Proof.Machine
end

