-- ==== Sys2Proof/Laws/Memory.lean ====
section
/-! SUPPORT. The image bytes: every operation keeps the canonical form (log 10), a read after a write
gives the byte written, and a write leaves every other offset alone (20_memory.md R62, R63). -/

namespace Sys2Proof.Machine

theorem Memory.cellsWf_mono {size lo hi : Nat} (h : lo ≤ hi) {cs : List Host.Cell}
    (hw : Memory.cellsWf size hi cs = true) : Memory.cellsWf size lo cs = true := by
  cases cs with
  | nil => rfl
  | cons c rest =>
    simp only [Memory.cellsWf, Bool.and_eq_true, decide_eq_true_eq] at hw ⊢
    exact ⟨⟨⟨by omega, hw.1.1.2⟩, hw.1.2⟩, hw.2⟩

/-- Below the least listed offset everything reads as unlisted. -/
theorem Memory.lookup_below {size lo a : Nat} {cs : List Host.Cell} (ha : a < lo)
    (hw : Memory.cellsWf size lo cs = true) : Memory.lookup cs a = Memory.unlisted := by
  induction cs generalizing lo with
  | nil => rfl
  | cons c rest ih =>
    simp only [Memory.cellsWf, Bool.and_eq_true, decide_eq_true_eq] at hw
    have hne : a ≠ c.1 := by omega
    simp only [Memory.lookup, if_neg hne]
    exact ih (by omega) hw.2

theorem Memory.insert_wf {size lo a : Nat} {v : Byte} {cs : List Host.Cell} (hlo : lo ≤ a)
    (ha : a < size) (hw : Memory.cellsWf size lo cs = true) :
    Memory.cellsWf size lo (Memory.insert a v cs) = true := by
  induction cs generalizing lo with
  | nil =>
    unfold Memory.insert
    split
    · rfl
    · next hv => simpa [Memory.cellsWf, hlo, ha] using hv
  | cons c rest ih =>
    have hw' := hw
    simp only [Memory.cellsWf, Bool.and_eq_true, decide_eq_true_eq] at hw
    obtain ⟨⟨⟨h1, h2⟩, h3⟩, h4⟩ := hw
    unfold Memory.insert
    by_cases hlt : a < c.1
    · rw [if_pos hlt]
      split
      · exact hw'
      · next hv =>
        simp only [Memory.cellsWf, Bool.and_eq_true, decide_eq_true_eq]
        exact ⟨⟨⟨hlo, ha⟩, by simpa using hv⟩, ⟨⟨by omega, h2⟩, h3⟩, h4⟩
    · rw [if_neg hlt]
      by_cases heq : a = c.1
      · rw [if_pos heq]
        split
        · exact Memory.cellsWf_mono (by omega) h4
        · next hv =>
          simp only [Memory.cellsWf, Bool.and_eq_true, decide_eq_true_eq]
          exact ⟨⟨⟨hlo, ha⟩, by simpa using hv⟩, heq ▸ h4⟩
      · rw [if_neg heq]
        simp only [Memory.cellsWf, Bool.and_eq_true, decide_eq_true_eq]
        exact ⟨⟨⟨h1, h2⟩, h3⟩, ih (by omega) h4⟩

theorem Memory.lookup_insert_self {size lo a : Nat} {v : Byte} {cs : List Host.Cell}
    (hw : Memory.cellsWf size lo cs = true) : Memory.lookup (Memory.insert a v cs) a = v := by
  induction cs generalizing lo with
  | nil =>
    unfold Memory.insert
    split
    · next hv => simp [Memory.lookup, hv]
    · simp [Memory.lookup]
  | cons c rest ih =>
    simp only [Memory.cellsWf, Bool.and_eq_true, decide_eq_true_eq] at hw
    unfold Memory.insert
    by_cases hlt : a < c.1
    · rw [if_pos hlt]
      split
      · next hv =>
        have hne : a ≠ c.1 := by omega
        rw [Memory.lookup, if_neg hne, hv]
        exact Memory.lookup_below (by omega) hw.2
      · simp [Memory.lookup]
    · rw [if_neg hlt]
      by_cases heq : a = c.1
      · rw [if_pos heq]
        split
        · next hv => rw [hv]; exact Memory.lookup_below (by omega) hw.2
        · simp [Memory.lookup]
      · rw [if_neg heq, Memory.lookup, if_neg heq]
        exact ih hw.2

theorem Memory.lookup_insert_other {a b : Nat} {v : Byte} {cs : List Host.Cell} (hb : b ≠ a) :
    Memory.lookup (Memory.insert a v cs) b = Memory.lookup cs b := by
  induction cs with
  | nil =>
    unfold Memory.insert
    split
    · rfl
    · simp [Memory.lookup, hb]
  | cons c rest ih =>
    unfold Memory.insert
    by_cases hlt : a < c.1
    · rw [if_pos hlt]
      split
      · rfl
      · simp [Memory.lookup, hb]
    · rw [if_neg hlt]
      by_cases heq : a = c.1
      · rw [if_pos heq]
        have hbc : b ≠ c.1 := heq ▸ hb
        split
        · simp [Memory.lookup, hbc]
        · simp [Memory.lookup, hb, hbc]
      · rw [if_neg heq]
        simp [Memory.lookup, ih]

@[simp] theorem Memory.write_size (m : Memory) (a : Nat) (v : Byte) : (m.write a v).size = m.size := by
  unfold Memory.write; split <;> rfl

/-- A write keeps the canonical form. -/
theorem Memory.write_wf {m : Memory} (a : Nat) (v : Byte) (h : m.wf = true) :
    (m.write a v).wf = true := by
  unfold Memory.write
  split
  · next ha => exact Memory.insert_wf (Nat.zero_le a) ha h
  · exact h

/-- A read after a write to the same offset of the image gives the byte written. -/
theorem Memory.read_write_self {m : Memory} {a : Nat} (v : Byte) (h : m.wf = true) (ha : a < m.size) :
    (m.write a v).read a = v := by
  simp only [Memory.read, Memory.write_size, if_pos ha]
  simp only [Memory.write, if_pos ha]
  exact Memory.lookup_insert_self h

/-- A write leaves every other offset alone. -/
theorem Memory.read_write_other (m : Memory) {a b : Nat} (v : Byte) (hb : b ≠ a) :
    (m.write a v).read b = m.read b := by
  unfold Memory.write
  split
  · simp only [Memory.read, Memory.lookup_insert_other hb]
  · rfl

theorem Memory.empty_wf : Memory.empty.wf = true := rfl

theorem Memory.writes_wf (bytes : List (Nat × Byte)) {m : Memory} (h : m.wf = true) :
    (bytes.foldl (fun m c => m.write c.1 c.2) m).wf = true := by
  induction bytes generalizing m with
  | nil => exact h
  | cons c rest ih => exact ih (Memory.write_wf _ _ h)

/-- A loaded image is in canonical form (R335). -/
theorem Memory.ofFile_wf (f : ImageFile) : (Memory.ofFile f).wf = true := Memory.writes_wf _ rfl

theorem Memory.writes_size (bytes : List (Nat × Byte)) (m : Memory) :
    (bytes.foldl (fun m c => m.write c.1 c.2) m).size = m.size := by
  induction bytes generalizing m with
  | nil => rfl
  | cons c rest ih => rw [List.foldl_cons, ih, Memory.write_size]

@[simp] theorem Memory.ofFile_size (f : ImageFile) : (Memory.ofFile f).size = f.size :=
  Memory.writes_size _ _

/-- What a list of writes leaves alone: every offset it does not name. -/
theorem Memory.read_writes_other (bytes : List (Nat × Byte)) (m : Memory) {b : Nat}
    (hb : ∀ c ∈ bytes, c.1 ≠ b) :
    (bytes.foldl (fun m c => m.write c.1 c.2) m).read b = m.read b := by
  induction bytes generalizing m with
  | nil => rfl
  | cons c rest ih =>
    rw [List.foldl_cons, ih _ (fun d hd => hb d (List.mem_cons_of_mem _ hd))]
    exact Memory.read_write_other m _ (Ne.symm (hb c List.mem_cons_self))

/-- The reset state's image is in canonical form. -/
theorem State.reset_media_wf : State.reset.media.img.wf = true := rfl

/-! ### The FDC's media accesses -/

/-- A media write keeps the canonical form. -/
theorem memWrite_wf {off : Int} {v : Byte} {s : State} (h : s.media.img.wf = true) :
    (memWrite off v s).media.img.wf = true := by
  unfold memWrite
  repeat' split
  · exact Memory.write_wf _ _ h
  · exact h
  · exact h

@[simp] theorem memWrite_present (off : Int) (v : Byte) (s : State) :
    (memWrite off v s).media.present = s.media.present := by
  unfold memWrite; repeat' split
  all_goals simp

@[simp] theorem memWrite_size (off : Int) (v : Byte) (s : State) :
    (memWrite off v s).media.img.size = s.media.img.size := by
  unfold memWrite; repeat' split
  all_goals simp

/-- With no medium a write only latches "changed" (R63). -/
theorem memWrite_absent {off : Int} {v : Byte} {s : State} (h : s.media.present = false) :
    memWrite off v s = latchChanged s := by
  simp [memWrite, h]

/-- With a medium a write never latches "changed" (R63). -/
theorem memWrite_changed {off : Int} {v : Byte} {s : State} (h : s.media.present = true) :
    (memWrite off v s).media.changed = s.media.changed := by
  unfold memWrite; rw [if_pos h]; split <;> rfl

/-- Every image offset but the one written keeps its byte (R63). -/
theorem memWrite_read_other {off : Int} {v : Byte} {s : State} {b : Nat} (hb : (b : Int) ≠ off) :
    (memWrite off v s).media.img.read b = s.media.img.read b := by
  unfold memWrite
  split
  · split
    · next h =>
      have h0 : 0 ≤ off := by simp [inImage] at h; exact h.1
      exact Memory.read_write_other _ _ (fun he => hb (by omega))
    · rfl
  · rfl

/-- The offset written holds the byte, where it lies in the image (R63). -/
theorem memWrite_read_self {v : Byte} {s : State} {a : Nat} (hp : s.media.present = true)
    (hw : s.media.img.wf = true) (ha : a < s.media.img.size) :
    (memWrite (a : Int) v s).media.img.read a = v := by
  have hi : inImage s (a : Int) = true := by simp [inImage, ha]
  unfold memWrite
  rw [if_pos hp, if_pos hi]
  exact Memory.read_write_self v hw ha

/-- One more byte of a fill is one more write after the others. -/
theorem memFill_succ (off : Int) (v : Byte) (n : Nat) (s : State) :
    memFill off v (n + 1) s = memWrite (off + (n : Int)) v (memFill off v n s) := by
  simp [memFill, List.range_succ, List.foldl_append]

@[simp] theorem memFill_zero (off : Int) (v : Byte) (s : State) : memFill off v 0 s = s := rfl

@[simp] theorem memFill_fdc (off : Int) (v : Byte) (n : Nat) (s : State) :
    (memFill off v n s).fdc = s.fdc := by
  induction n with
  | zero => rfl
  | succ n ih => simp [memFill_succ, ih]

@[simp] theorem memFill_events (off : Int) (v : Byte) (n : Nat) (s : State) :
    (memFill off v n s).events = s.events := by
  induction n with
  | zero => rfl
  | succ n ih => simp [memFill_succ, ih]

@[simp] theorem memFill_result (off : Int) (v : Byte) (n : Nat) (s : State) :
    (memFill off v n s).result = s.result := by
  induction n with
  | zero => rfl
  | succ n ih => simp [memFill_succ, ih]

@[simp] theorem memFill_params (off : Int) (v : Byte) (n : Nat) (s : State) :
    (memFill off v n s).params = s.params := by
  induction n with
  | zero => rfl
  | succ n ih => simp [memFill_succ, ih]

@[simp] theorem memFill_draws (off : Int) (v : Byte) (n : Nat) (s : State) :
    (memFill off v n s).draws = s.draws := by
  induction n with
  | zero => rfl
  | succ n ih => simp [memFill_succ, ih]

@[simp] theorem memFill_inputs (off : Int) (v : Byte) (n : Nat) (s : State) :
    (memFill off v n s).inputs = s.inputs := by
  induction n with
  | zero => rfl
  | succ n ih => simp [memFill_succ, ih]

@[simp] theorem memFill_present (off : Int) (v : Byte) (n : Nat) (s : State) :
    (memFill off v n s).media.present = s.media.present := by
  induction n with
  | zero => rfl
  | succ n ih => simp [memFill_succ, ih]

@[simp] theorem memFill_size (off : Int) (v : Byte) (n : Nat) (s : State) :
    (memFill off v n s).media.img.size = s.media.img.size := by
  induction n with
  | zero => rfl
  | succ n ih => simp [memFill_succ, ih]

theorem memFill_wf {off : Int} {v : Byte} {n : Nat} {s : State} (h : s.media.img.wf = true) :
    (memFill off v n s).media.img.wf = true := by
  induction n with
  | zero => exact h
  | succ n ih => rw [memFill_succ]; exact memWrite_wf ih

/-- What a fill leaves alone: every offset outside `off .. off + n - 1` (R162). -/
theorem memFill_read_outside {off : Int} {v : Byte} {n : Nat} {s : State} {b : Nat}
    (hb : (b : Int) < off ∨ off + (n : Int) ≤ (b : Int)) :
    (memFill off v n s).media.img.read b = s.media.img.read b := by
  induction n with
  | zero => rfl
  | succ n ih =>
    rw [memFill_succ, memWrite_read_other (by omega)]
    exact ih (by omega)

/-- What a fill writes: every image offset of `off .. off + n - 1` (R162). -/
theorem memFill_read_inside {off : Int} {v : Byte} {n : Nat} {s : State} {b : Nat}
    (hp : s.media.present = true) (hw : s.media.img.wf = true) (hs : b < s.media.img.size)
    (h1 : off ≤ (b : Int)) (h2 : (b : Int) < off + (n : Int)) :
    (memFill off v n s).media.img.read b = v := by
  induction n with
  | zero => omega
  | succ n ih =>
    rw [memFill_succ]
    by_cases hb : (b : Int) = off + (n : Int)
    · rw [← hb]
      exact memWrite_read_self (by simpa using hp) (memFill_wf hw) (by simpa using hs)
    · rw [memWrite_read_other hb]
      exact ih (by omega)

/-- With no medium a fill of at least one byte only latches "changed" (R63, R162). -/
theorem memFill_absent {off : Int} {v : Byte} {n : Nat} {s : State} (h : s.media.present = false) :
    (memFill off v (n + 1) s).media = { s.media with changed := true } := by
  induction n with
  | zero => simp [memFill_succ, memWrite_absent h]
  | succ n ih =>
    rw [memFill_succ, memWrite_absent (by simpa using h), latchChanged_media, ih]

/-- With a medium a fill never latches "changed" (R63, R162). -/
theorem memFill_changed {off : Int} {v : Byte} {n : Nat} {s : State} (h : s.media.present = true) :
    (memFill off v n s).media.changed = s.media.changed := by
  induction n with
  | zero => rfl
  | succ n ih => rw [memFill_succ, memWrite_changed (by simpa using h), ih]

end Sys2Proof.Machine
end

