-- ==== Sys2Proof/Laws/Transfer.lean ====
section
/-! SUPPORT. What the transfer operations can do, said once (40_fdc_ports.md R115, R116, R118, R120,
R122). -/

namespace Sys2Proof.Machine

/-! ### ExecDone (R118) -/

@[simp] theorem execDone_fdc (s : State) :
    (execDone s).fdc =
      { s.fdc with
        irq := true, idx := 0, phase := if s.fdc.resLen = 0 then .idle else .result } := rfl

@[simp] theorem execDone_events (s : State) :
    (execDone s).events = if s.fdc.irq then s.events else s.events ++ [.irqRise] := rfl

@[simp] theorem execDone_params (s : State) : (execDone s).params = s.params := by
  rfl
@[simp] theorem execDone_inputs (s : State) : (execDone s).inputs = s.inputs := by
  rfl
@[simp] theorem execDone_result (s : State) : (execDone s).result = s.result := by
  rfl
@[simp] theorem execDone_media (s : State) : (execDone s).media = s.media := by
  rfl
@[simp] theorem execDone_draws (s : State) : (execDone s).draws = s.draws := by
  rfl

/-! ### The end of a transfer step (R120) -/

/-- A byte that is not the last one of its window only moves the counters. -/
theorem moveWindow_inner {dir : XferDir} {s : State} (h : s.fdc.pending - 1 ≠ 0) :
    moveWindow dir s =
      { s with fdc := { s.fdc with off := s.fdc.off + 1, pending := s.fdc.pending - 1 } } := by
  simp [moveWindow, h]

/-- The last byte of a window: the counters, `Flush` for a window from the host, and ExecDone in
Execution phase. -/
theorem moveWindow_last {dir : XferDir} {s : State} (h : s.fdc.pending - 1 = 0) :
    (moveWindow dir s).fdc =
      (if s.fdc.phase = .execution then
        { s.fdc with
          off := s.fdc.off + 1, pending := 0, irq := true, idx := 0,
          phase := if s.fdc.resLen = 0 then .idle else .result }
      else { s.fdc with off := s.fdc.off + 1, pending := 0 }) := by
  simp only [moveWindow, h]
  cases dir <;> by_cases hp : s.fdc.phase = .execution <;> simp [hp]

/-- What a transfer step does to FdcState, in all cases. -/
theorem moveWindow_fdc (dir : XferDir) (s : State) :
    (moveWindow dir s).fdc =
      (if s.fdc.pending - 1 = 0 ∧ s.fdc.phase = .execution then
        { s.fdc with
          off := s.fdc.off + 1, pending := 0, irq := true, idx := 0,
          phase := if s.fdc.resLen = 0 then .idle else .result }
      else { s.fdc with off := s.fdc.off + 1, pending := s.fdc.pending - 1 }) := by
  by_cases h : s.fdc.pending - 1 = 0
  · rw [moveWindow_last h]; simp [h]
  · rw [moveWindow_inner h]; simp [h]

theorem moveWindow_events (dir : XferDir) (s : State) :
    (moveWindow dir s).events =
      s.events ++
        (if s.fdc.pending - 1 = 0 ∧ dir = .fromHost ∧ s.media.present then [.flush] else []) ++
        (if s.fdc.pending - 1 = 0 ∧ s.fdc.phase = .execution ∧ s.fdc.irq = false then [.irqRise]
          else []) := by
  by_cases h : s.fdc.pending - 1 = 0
  · simp only [moveWindow, h]
    cases dir <;> by_cases hp : s.fdc.phase = .execution <;> by_cases hi : s.fdc.irq <;>
      by_cases hm : s.media.present <;> simp [hp, hi, hm]
  · rw [moveWindow_inner h]; simp [h]

@[simp] theorem moveWindow_params (dir : XferDir) (s : State) :
    (moveWindow dir s).params = s.params := by
  by_cases h : s.fdc.pending - 1 = 0
  · simp only [moveWindow, h]
    cases dir <;> by_cases hp : s.fdc.phase = .execution <;> simp [hp]
  · rw [moveWindow_inner h]
@[simp] theorem moveWindow_inputs (dir : XferDir) (s : State) :
    (moveWindow dir s).inputs = s.inputs := by
  by_cases h : s.fdc.pending - 1 = 0
  · simp only [moveWindow, h]
    cases dir <;> by_cases hp : s.fdc.phase = .execution <;> simp [hp]
  · rw [moveWindow_inner h]
@[simp] theorem moveWindow_result (dir : XferDir) (s : State) :
    (moveWindow dir s).result = s.result := by
  by_cases h : s.fdc.pending - 1 = 0
  · simp only [moveWindow, h]
    cases dir <;> by_cases hp : s.fdc.phase = .execution <;> simp [hp]
  · rw [moveWindow_inner h]
@[simp] theorem moveWindow_media (dir : XferDir) (s : State) :
    (moveWindow dir s).media = s.media := by
  by_cases h : s.fdc.pending - 1 = 0
  · simp only [moveWindow, h]
    cases dir <;> by_cases hp : s.fdc.phase = .execution <;> simp [hp]
  · rw [moveWindow_inner h]
@[simp] theorem moveWindow_draws (dir : XferDir) (s : State) :
    (moveWindow dir s).draws = s.draws := by
  by_cases h : s.fdc.pending - 1 = 0
  · simp only [moveWindow, h]
    cases dir <;> by_cases hp : s.fdc.phase = .execution <;> simp [hp]
  · rw [moveWindow_inner h]

/-! ### Transfer steps (R120) -/

theorem xferToHost_fdc (s : State) :
    (xferToHost s).fdc =
      (if s.fdc.pending - 1 = 0 ∧ s.fdc.phase = .execution then
        { s.fdc with
          off := s.fdc.off + 1, pending := 0, irq := true, idx := 0,
          phase := if s.fdc.resLen = 0 then .idle else .result }
      else { s.fdc with off := s.fdc.off + 1, pending := s.fdc.pending - 1 }) := by
  simp [xferToHost, moveWindow_fdc]

@[simp] theorem xferToHost_result (s : State) :
    (xferToHost s).result = .byte (memReadByte s.fdc.off s) := by simp [xferToHost]

@[simp] theorem xferToHost_media (s : State) :
    (xferToHost s).media = if s.media.present then s.media else { s.media with changed := true } := by
  simp [xferToHost]

@[simp] theorem xferToHost_params (s : State) : (xferToHost s).params = s.params := by
  simp [xferToHost]
@[simp] theorem xferToHost_inputs (s : State) : (xferToHost s).inputs = s.inputs := by
  simp [xferToHost]
@[simp] theorem xferToHost_draws (s : State) : (xferToHost s).draws = s.draws := by
  simp [xferToHost]

theorem xferToHost_events (s : State) :
    (xferToHost s).events =
      s.events ++
        (if s.fdc.pending - 1 = 0 ∧ s.fdc.phase = .execution ∧ s.fdc.irq = false then [.irqRise]
          else []) := by
  simp [xferToHost, moveWindow_events]

theorem xferFromHost_fdc (v : Byte) (s : State) :
    (xferFromHost v s).fdc =
      (if s.fdc.pending - 1 = 0 ∧ s.fdc.phase = .execution then
        { s.fdc with
          off := s.fdc.off + 1, pending := 0, irq := true, idx := 0,
          phase := if s.fdc.resLen = 0 then .idle else .result }
      else { s.fdc with off := s.fdc.off + 1, pending := s.fdc.pending - 1 }) := by
  simp [xferFromHost, moveWindow_fdc]

@[simp] theorem xferFromHost_media (v : Byte) (s : State) :
    (xferFromHost v s).media = (memWrite s.fdc.off v s).media := by simp [xferFromHost]
@[simp] theorem xferFromHost_params (v : Byte) (s : State) :
    (xferFromHost v s).params = s.params := by simp [xferFromHost]
@[simp] theorem xferFromHost_inputs (v : Byte) (s : State) :
    (xferFromHost v s).inputs = s.inputs := by simp [xferFromHost]
@[simp] theorem xferFromHost_draws (v : Byte) (s : State) :
    (xferFromHost v s).draws = s.draws := by simp [xferFromHost]
@[simp] theorem xferFromHost_result (v : Byte) (s : State) :
    (xferFromHost v s).result = s.result := by simp [xferFromHost]

theorem xferFromHost_events (v : Byte) (s : State) :
    (xferFromHost v s).events =
      s.events ++ (if s.fdc.pending - 1 = 0 ∧ s.media.present then [.flush] else []) ++
        (if s.fdc.pending - 1 = 0 ∧ s.fdc.phase = .execution ∧ s.fdc.irq = false then [.irqRise]
          else []) := by
  simp [xferFromHost, moveWindow_events]

/-! ### Result bytes (R115, R116) -/

@[simp] theorem resultDrained_fdc (s : State) :
    (resultDrained s).fdc = { s.fdc with phase := .idle, idx := 0, irq := false } := rfl
@[simp] theorem resultDrained_events (s : State) : (resultDrained s).events = s.events := rfl
@[simp] theorem resultDrained_params (s : State) : (resultDrained s).params = s.params := by
  rfl
@[simp] theorem resultDrained_inputs (s : State) : (resultDrained s).inputs = s.inputs := by
  rfl
@[simp] theorem resultDrained_result (s : State) : (resultDrained s).result = s.result := by
  rfl
@[simp] theorem resultDrained_media (s : State) : (resultDrained s).media = s.media := by
  rfl
@[simp] theorem resultDrained_draws (s : State) : (resultDrained s).draws = s.draws := by
  rfl

@[simp] theorem answerResult_fdc (s : State) : (answerResult s).fdc = s.fdc := by
  unfold answerResult; split <;> rfl
@[simp] theorem answerResult_media (s : State) : (answerResult s).media = s.media := by
  unfold answerResult; split <;> rfl
@[simp] theorem answerResult_params (s : State) : (answerResult s).params = s.params := by
  unfold answerResult; split <;> rfl
@[simp] theorem answerResult_inputs (s : State) : (answerResult s).inputs = s.inputs := by
  unfold answerResult; split <;> rfl
@[simp] theorem answerResult_events (s : State) : (answerResult s).events = s.events := by
  unfold answerResult; split <;> rfl

/-- Within the buffer the byte read is `resBuf[idx]`, and nothing else changes. -/
theorem answerResult_inside {s : State} (h : s.fdc.idx < 8) :
    answerResult s = answer (.byte s.fdc.resBuf[s.fdc.idx]) s := by
  simp [answerResult, Vector.getElem?_eq_getElem h]

theorem readResult_fdc (s : State) :
    (readResult s).fdc =
      (if s.fdc.idx + 1 = s.fdc.resLen then { s.fdc with phase := .idle, idx := 0, irq := false }
      else { s.fdc with idx := s.fdc.idx + 1 }) := by
  simp only [readResult, answerResult_fdc]; split <;> simp

@[simp] theorem readResult_media (s : State) : (readResult s).media = s.media := by
  simp only [readResult, answerResult_fdc]; split <;> simp
@[simp] theorem readResult_params (s : State) : (readResult s).params = s.params := by
  simp only [readResult, answerResult_fdc]; split <;> simp
@[simp] theorem readResult_inputs (s : State) : (readResult s).inputs = s.inputs := by
  simp only [readResult, answerResult_fdc]; split <;> simp
@[simp] theorem readResult_events (s : State) : (readResult s).events = s.events := by
  simp only [readResult, answerResult_fdc]; split <;> simp

theorem readResult_result {s : State} (h : s.fdc.idx < 8) :
    (readResult s).result = .byte s.fdc.resBuf[s.fdc.idx] := by
  simp only [readResult, answerResult_inside h]; split <;> simp

theorem readResult_draws {s : State} (h : s.fdc.idx < 8) : (readResult s).draws = s.draws := by
  simp only [readResult, answerResult_inside h]; split <;> simp

end Sys2Proof.Machine
end

