-- ==== Sys2Proof/Laws/Handlers.lean ====
section
/-! SUPPORT. What the handlers can do (41_fdc_commands.md R140 to R175), and how a command byte sequence
reaches its handler (40_fdc_ports.md R110, R111). -/

namespace Sys2Proof.Machine

/-! ### Conclude (R141) -/

/-- The phase that follows Command. -/
def concludePhase (next : Phase) (resLen : Nat) : Phase :=
  if next = .execution then .execution
  else if next = .idle ∨ resLen = 0 then .idle
  else .result

@[simp] theorem conclude_fdc (next : Phase) (raise : Bool) (s : State) :
    (conclude next raise s).fdc =
      { s.fdc with
        idx := 0, irq := s.fdc.irq || raise, phase := concludePhase next s.fdc.resLen } := by
  cases raise <;> simp [conclude, concludePhase]

@[simp] theorem conclude_events (next : Phase) (raise : Bool) (s : State) :
    (conclude next raise s).events =
      s.events ++ (if raise ∧ s.fdc.irq = false then [.irqRise] else []) := by
  cases raise <;> cases h : s.fdc.irq <;> simp [conclude, h]

@[simp] theorem conclude_media (next : Phase) (raise : Bool) (s : State) :
    (conclude next raise s).media = s.media := by cases raise <;> rfl
@[simp] theorem conclude_params (next : Phase) (raise : Bool) (s : State) :
    (conclude next raise s).params = s.params := by cases raise <;> rfl
@[simp] theorem conclude_draws (next : Phase) (raise : Bool) (s : State) :
    (conclude next raise s).draws = s.draws := by cases raise <;> rfl
@[simp] theorem conclude_inputs (next : Phase) (raise : Bool) (s : State) :
    (conclude next raise s).inputs = s.inputs := by cases raise <;> rfl
@[simp] theorem conclude_result (next : Phase) (raise : Bool) (s : State) :
    (conclude next raise s).result = s.result := by cases raise <;> rfl

/-- No handler leaves the FDC in Command phase. -/
theorem concludePhase_ne_command (next : Phase) (resLen : Nat) (_h : next ≠ .command) :
    concludePhase next resLen ≠ .command := by
  unfold concludePhase; repeat' split
  all_goals simp_all

/-! ### The sector advance (R151) -/

theorem advanceNat_lt {c h r : Nat} (hc : c < 256) (hh : h < 256) (hr : r < 256) :
    (advanceNat c h r).1 < 256 ∧ (advanceNat c h r).2.1 < 256 ∧ (advanceNat c h r).2.2 < 256 := by
  unfold advanceNat Config.spt; repeat' split
  all_goals simp_all
  all_goals omega

/-- Every sector number the advance gives lies in 1 to 18. -/
theorem advanceNat_sector (c h r : Nat) :
    1 ≤ (advanceNat c h r).2.2 ∧ (advanceNat c h r).2.2 ≤ Config.spt := by
  unfold advanceNat; repeat' split
  all_goals simp_all

/-- The bytes of the advance are its numbers: none is cut off (R151: "every result is in 0..255"). -/
theorem advance_toNat (c h r : Byte) :
    (advance c h r).1.toNat = (advanceNat c.toNat h.toNat r.toNat).1 ∧
    (advance c h r).2.1.toNat = (advanceNat c.toNat h.toNat r.toNat).2.1 ∧
    (advance c h r).2.2.toNat = (advanceNat c.toNat h.toNat r.toNat).2.2 := by
  obtain ⟨h1, h2, h3⟩ := advanceNat_lt c.isLt h.isLt r.isLt
  simp only [advance, BitVec.toNat_ofNat]
  exact ⟨Nat.mod_eq_of_lt h1, Nat.mod_eq_of_lt h2, Nat.mod_eq_of_lt h3⟩

/-! ### Result buffers (R87) -/

theorem resultBytes_getElem (buf : Vector Byte 8) (bs : List Byte) (i : Nat) (h : i < 8) :
    (resultBytes buf bs)[i] = bs.getD i buf[i] := by
  simp [resultBytes]

theorem withSevenResults_resBuf (c h r n : Byte) (f : FdcState) :
    (withSevenResults c h r n f).resBuf = resultBytes f.resBuf [f.st0, 0, 0, c, h, r, n] := by
  refine Vector.ext fun i hi => ?_
  rw [resultBytes_getElem]
  simp only [withSevenResults, Vector.getElem_set]
  match i, hi with
  | 0, _ | 1, _ | 2, _ | 3, _ | 4, _ | 5, _ | 6, _ | 7, _ => simp

theorem setOne_resBuf (b : Vector Byte 8) (x : Byte) : b.set 0 x = resultBytes b [x] := by
  refine Vector.ext fun i hi => ?_
  rw [resultBytes_getElem]
  match i, hi with
  | 0, _ | 1, _ | 2, _ | 3, _ | 4, _ | 5, _ | 6, _ | 7, _ => simp

theorem setTwo_resBuf (b : Vector Byte 8) (x y : Byte) :
    (b.set 0 x).set 1 y = resultBytes b [x, y] := by
  refine Vector.ext fun i hi => ?_
  rw [resultBytes_getElem]
  match i, hi with
  | 0, _ | 1, _ | 2, _ | 3, _ | 4, _ | 5, _ | 6, _ | 7, _ => simp

/-! ### Handlers that touch FdcState alone -/

@[simp] theorem handleSpecify_media (s : State) : (handleSpecify s).media = s.media := by
  simp [handleSpecify]
@[simp] theorem handleSpecify_params (s : State) : (handleSpecify s).params = s.params := by
  simp [handleSpecify]
@[simp] theorem handleSpecify_draws (s : State) : (handleSpecify s).draws = s.draws := by
  simp [handleSpecify]
@[simp] theorem handleSpecify_inputs (s : State) : (handleSpecify s).inputs = s.inputs := by
  simp [handleSpecify]
@[simp] theorem handleSpecify_result (s : State) : (handleSpecify s).result = s.result := by
  simp [handleSpecify]
@[simp] theorem handleSenseInterruptStatus_media (s : State) : (handleSenseInterruptStatus s).media = s.media := by
  simp [handleSenseInterruptStatus]
@[simp] theorem handleSenseInterruptStatus_params (s : State) : (handleSenseInterruptStatus s).params = s.params := by
  simp [handleSenseInterruptStatus]
@[simp] theorem handleSenseInterruptStatus_draws (s : State) : (handleSenseInterruptStatus s).draws = s.draws := by
  simp [handleSenseInterruptStatus]
@[simp] theorem handleSenseInterruptStatus_inputs (s : State) : (handleSenseInterruptStatus s).inputs = s.inputs := by
  simp [handleSenseInterruptStatus]
@[simp] theorem handleSenseInterruptStatus_result (s : State) : (handleSenseInterruptStatus s).result = s.result := by
  simp [handleSenseInterruptStatus]
@[simp] theorem handleSenseDriveStatus_media (s : State) : (handleSenseDriveStatus s).media = s.media := by
  simp [handleSenseDriveStatus]
@[simp] theorem handleSenseDriveStatus_params (s : State) : (handleSenseDriveStatus s).params = s.params := by
  simp [handleSenseDriveStatus]
@[simp] theorem handleSenseDriveStatus_draws (s : State) : (handleSenseDriveStatus s).draws = s.draws := by
  simp [handleSenseDriveStatus]
@[simp] theorem handleSenseDriveStatus_inputs (s : State) : (handleSenseDriveStatus s).inputs = s.inputs := by
  simp [handleSenseDriveStatus]
@[simp] theorem handleSenseDriveStatus_result (s : State) : (handleSenseDriveStatus s).result = s.result := by
  simp [handleSenseDriveStatus]
@[simp] theorem handleRecalibrate_media (s : State) : (handleRecalibrate s).media = s.media := by
  simp [handleRecalibrate]
@[simp] theorem handleRecalibrate_params (s : State) : (handleRecalibrate s).params = s.params := by
  simp [handleRecalibrate]
@[simp] theorem handleRecalibrate_draws (s : State) : (handleRecalibrate s).draws = s.draws := by
  simp [handleRecalibrate]
@[simp] theorem handleRecalibrate_inputs (s : State) : (handleRecalibrate s).inputs = s.inputs := by
  simp [handleRecalibrate]
@[simp] theorem handleRecalibrate_result (s : State) : (handleRecalibrate s).result = s.result := by
  simp [handleRecalibrate]
@[simp] theorem handleSeek_media (s : State) : (handleSeek s).media = s.media := by
  simp [handleSeek]
@[simp] theorem handleSeek_params (s : State) : (handleSeek s).params = s.params := by
  simp [handleSeek]
@[simp] theorem handleSeek_draws (s : State) : (handleSeek s).draws = s.draws := by
  simp [handleSeek]
@[simp] theorem handleSeek_inputs (s : State) : (handleSeek s).inputs = s.inputs := by
  simp [handleSeek]
@[simp] theorem handleSeek_result (s : State) : (handleSeek s).result = s.result := by
  simp [handleSeek]
@[simp] theorem handleReadData_media (s : State) : (handleReadData s).media = s.media := by
  simp [handleReadData]
@[simp] theorem handleReadData_params (s : State) : (handleReadData s).params = s.params := by
  simp [handleReadData]
@[simp] theorem handleReadData_draws (s : State) : (handleReadData s).draws = s.draws := by
  simp [handleReadData]
@[simp] theorem handleReadData_inputs (s : State) : (handleReadData s).inputs = s.inputs := by
  simp [handleReadData]
@[simp] theorem handleReadData_result (s : State) : (handleReadData s).result = s.result := by
  simp [handleReadData]
@[simp] theorem handleWriteData_media (s : State) : (handleWriteData s).media = s.media := by
  simp [handleWriteData]
@[simp] theorem handleWriteData_params (s : State) : (handleWriteData s).params = s.params := by
  simp [handleWriteData]
@[simp] theorem handleWriteData_draws (s : State) : (handleWriteData s).draws = s.draws := by
  simp [handleWriteData]
@[simp] theorem handleWriteData_inputs (s : State) : (handleWriteData s).inputs = s.inputs := by
  simp [handleWriteData]
@[simp] theorem handleWriteData_result (s : State) : (handleWriteData s).result = s.result := by
  simp [handleWriteData]
@[simp] theorem handleInvalid_media (s : State) : (handleInvalid s).media = s.media := by
  simp [handleInvalid]
@[simp] theorem handleInvalid_params (s : State) : (handleInvalid s).params = s.params := by
  simp [handleInvalid]
@[simp] theorem handleInvalid_draws (s : State) : (handleInvalid s).draws = s.draws := by
  simp [handleInvalid]
@[simp] theorem handleInvalid_inputs (s : State) : (handleInvalid s).inputs = s.inputs := by
  simp [handleInvalid]
@[simp] theorem handleInvalid_result (s : State) : (handleInvalid s).result = s.result := by
  simp [handleInvalid]
@[simp] theorem handleStub_media (dir : XferDir) (s : State) :
    (handleStub dir s).media = s.media := by simp [handleStub]
@[simp] theorem handleReadId_media (s : State) : (handleReadId s).media = s.media := by
  unfold handleReadId; split <;> simp
@[simp] theorem handleStub_params (dir : XferDir) (s : State) :
    (handleStub dir s).params = s.params := by simp [handleStub]
@[simp] theorem handleReadId_params (s : State) : (handleReadId s).params = s.params := by
  unfold handleReadId; split <;> simp
@[simp] theorem handleStub_draws (dir : XferDir) (s : State) :
    (handleStub dir s).draws = s.draws := by simp [handleStub]
@[simp] theorem handleReadId_draws (s : State) : (handleReadId s).draws = s.draws := by
  unfold handleReadId; split <;> simp
@[simp] theorem handleStub_inputs (dir : XferDir) (s : State) :
    (handleStub dir s).inputs = s.inputs := by simp [handleStub]
@[simp] theorem handleReadId_inputs (s : State) : (handleReadId s).inputs = s.inputs := by
  unfold handleReadId; split <;> simp
@[simp] theorem handleStub_result (dir : XferDir) (s : State) :
    (handleStub dir s).result = s.result := by simp [handleStub]
@[simp] theorem handleReadId_result (s : State) : (handleReadId s).result = s.result := by
  unfold handleReadId; split <;> simp
@[simp] theorem handleFormatTrack_params (s : State) : (handleFormatTrack s).params = s.params := by
  simp [handleFormatTrack]
@[simp] theorem handleFormatTrack_draws (s : State) : (handleFormatTrack s).draws = s.draws := by
  simp [handleFormatTrack]
@[simp] theorem handleFormatTrack_inputs (s : State) : (handleFormatTrack s).inputs = s.inputs := by
  simp [handleFormatTrack]
@[simp] theorem handleFormatTrack_result (s : State) : (handleFormatTrack s).result = s.result := by
  simp [handleFormatTrack]

/-- Format Track's media access: 512 bytes from the sector that `lba` names (R162). -/
@[simp] theorem handleFormatTrack_media (s : State) :
    (handleFormatTrack s).media = (memFill (s.fdc.lba * 512) (opN s.fdc) 512 s).media := by
  simp [handleFormatTrack]

/-! ### What each handler leaves in FdcState -/

theorem handleSpecify_fdc (s : State) :
    (handleSpecify s).fdc =
      { s.fdc with
        nonDma := ndBit (opC s.fdc), idx := 0, phase := concludePhase .result s.fdc.resLen } := by
  simp [handleSpecify]

theorem handleSenseInterruptStatus_fdc (s : State) :
    (handleSenseInterruptStatus s).fdc =
      { s.fdc with
        irq := false, resBuf := resultBytes s.fdc.resBuf [s.fdc.st0, s.fdc.pcn], idx := 0,
        phase := concludePhase .result s.fdc.resLen } := by
  simp [handleSenseInterruptStatus, setTwo_resBuf]

theorem handleSenseDriveStatus_fdc (s : State) :
    (handleSenseDriveStatus s).fdc =
      { s.fdc with
        st3 := st3Of (opHdus s.fdc) s.fdc.pcn s.media.present,
        resBuf := resultBytes s.fdc.resBuf [st3Of (opHdus s.fdc) s.fdc.pcn s.media.present],
        idx := 0, phase := concludePhase .result s.fdc.resLen } := by
  simp [handleSenseDriveStatus, setOne_resBuf]

theorem handleRecalibrate_fdc (s : State) :
    (handleRecalibrate s).fdc =
      { s.fdc with
        pcn := 0, st0 := st0Recalibrate (opHdus s.fdc), idx := 0, irq := true, phase := .idle } := by
  simp [handleRecalibrate, concludePhase]

theorem handleSeek_fdc (s : State) :
    (handleSeek s).fdc =
      { s.fdc with
        pcn := opC s.fdc, st0 := st0Seek (opHdus s.fdc), idx := 0, irq := true, phase := .idle } := by
  simp [handleSeek, concludePhase]

/-- The FdcState of an opened window (R150, R152). -/
theorem openWindow_eq (dir : XferDir) (l : Int) (f : FdcState) :
    openWindow dir l f =
      { f with
        lba := l, off := l * 512, pending := 512, xferDir := dir,
        curC := (advance (opC f) (opH f) (opR f)).1,
        curH := (advance (opC f) (opH f) (opR f)).2.1,
        curR := (advance (opC f) (opH f) (opR f)).2.2,
        curN := opN f,
        st0 := hdUs (opHdus f), st1 := 0, st2 := 0,
        resBuf := resultBytes f.resBuf
          [hdUs (opHdus f), 0, 0, (advance (opC f) (opH f) (opR f)).1,
            (advance (opC f) (opH f) (opR f)).2.1, (advance (opC f) (opH f) (opR f)).2.2, opN f] } := by
  rw [← withSevenResults_resBuf _ _ _ _ { f with st0 := hdUs (opHdus f) }]
  rfl

theorem handleReadData_fdc (s : State) :
    (handleReadData s).fdc =
      { openWindow .toHost (clampRead (lbaOf (opC s.fdc) (opH s.fdc) (opR s.fdc))) s.fdc with
        idx := 0, irq := true, phase := concludePhase (dataPhase s.fdc) s.fdc.resLen } := by
  simp [handleReadData, openWindow_eq]

theorem handleWriteData_fdc (s : State) :
    (handleWriteData s).fdc =
      { openWindow .fromHost (lbaOf (opC s.fdc) (opH s.fdc) (opR s.fdc)) s.fdc with
        idx := 0, irq := true, phase := concludePhase (dataPhase s.fdc) s.fdc.resLen } := by
  simp [handleWriteData, openWindow_eq]

theorem handleReadId_fdc_present {s : State} (h : s.media.present = true) :
    (handleReadId s).fdc =
      { s.fdc with
        st0 := hdUs (opHdus s.fdc), st1 := 0, st2 := 0,
        resBuf := resultBytes s.fdc.resBuf
          [hdUs (opHdus s.fdc), 0, 0, s.fdc.curC, s.fdc.curH, s.fdc.curR, s.fdc.curN],
        idx := 0, irq := true, phase := concludePhase .result s.fdc.resLen } := by
  rw [← withSevenResults_resBuf _ _ _ _ { s.fdc with st0 := hdUs (opHdus s.fdc) }]
  simp [handleReadId, h, withNormalStatus, withSevenResults, st0Normal]

theorem handleReadId_fdc_absent {s : State} (h : s.media.present = false) :
    (handleReadId s).fdc = { s.fdc with resLen := 0, idx := 0, phase := .idle } := by
  simp [handleReadId, h, concludePhase]

theorem handleFormatTrack_fdc (s : State) :
    (handleFormatTrack s).fdc =
      { s.fdc with
        st0 := hdUs (opHdus s.fdc), st1 := 0, st2 := 0,
        resBuf := resultBytes s.fdc.resBuf
          [hdUs (opHdus s.fdc), 0, 0, s.fdc.curC, s.fdc.curH, s.fdc.curR, opC s.fdc],
        idx := 0, irq := true, phase := concludePhase .result s.fdc.resLen } := by
  rw [← withSevenResults_resBuf _ _ _ _ { s.fdc with st0 := hdUs (opHdus s.fdc) }]
  simp [handleFormatTrack, withNormalStatus, withSevenResults, st0Normal, opC]

theorem handleStub_fdc (dir : XferDir) (s : State) :
    (handleStub dir s).fdc =
      { s.fdc with
        xferDir := dir, pending := 0, st0 := hdUs (opHdus s.fdc), st1 := 0, st2 := 0,
        resBuf := resultBytes s.fdc.resBuf
          [hdUs (opHdus s.fdc), 0, 0, opC s.fdc, opH s.fdc, opR s.fdc, opN s.fdc],
        idx := 0, irq := true, phase := concludePhase (dataPhase s.fdc) s.fdc.resLen } := by
  rw [← withSevenResults_resBuf _ _ _ _ { s.fdc with st0 := hdUs (opHdus s.fdc) }]
  simp [handleStub, withNormalStatus, withSevenResults, st0Normal, opHdus, opC, opH, opR, opN]

theorem handleInvalid_fdc (s : State) :
    (handleInvalid s).fdc =
      { s.fdc with
        st0 := 0x80, resBuf := resultBytes s.fdc.resBuf [0x80], idx := 0,
        phase := concludePhase .result s.fdc.resLen } := by
  simp [handleInvalid, setOne_resBuf, st0Invalid]

/-! ### The events of a handler (R304, R306, R162) -/

/-- A handler's events are the events before it, then what the command itself emits. -/
theorem handle_events_prefix (hd : Handler) (s : State) :
    ∃ es, (handle hd s).events = s.events ++ es := by
  cases hd
  case formatTrack =>
    simp only [handle, handleFormatTrack, conclude_events, flushMedium_events, memFill_events]
    split
    · exact ⟨_, List.append_assoc _ _ _⟩
    · exact ⟨_, rfl⟩
  case readId =>
    simp only [handle, handleReadId]
    split <;> exact ⟨_, conclude_events _ _ _⟩
  all_goals exact ⟨_, conclude_events _ _ _⟩

/-- No handler leaves the FDC in Command phase (R141). -/
theorem handle_phase_ne_command (hd : Handler) (s : State) : (handle hd s).fdc.phase ≠ .command := by
  have hdata : dataPhase s.fdc ≠ .command := by unfold dataPhase; split <;> simp
  cases hd
  case readId =>
    simp only [handle]
    cases hm : s.media.present
    · simp [handleReadId_fdc_absent hm]
    · simpa [handleReadId_fdc_present hm] using concludePhase_ne_command .result _ (by simp)
  all_goals
    simp [handle, handleSpecify_fdc, handleSenseInterruptStatus_fdc, handleSenseDriveStatus_fdc,
      handleRecalibrate_fdc, handleSeek_fdc, handleReadData_fdc, handleWriteData_fdc,
      handleFormatTrack_fdc, handleInvalid_fdc, handleReadTrack, handleReadDeletedData,
      handleWriteDeletedData, handleScanEqual, handleScanLowOrEqual, handleScanHighOrEqual,
      handleStub_fdc, concludePhase_ne_command, hdata]

/-! ### Receiving bytes (R110, R111) -/

@[simp] theorem receiveCommand_media (v : Byte) (s : State) : (receiveCommand v s).media = s.media := rfl
@[simp] theorem receiveCommand_events (v : Byte) (s : State) : (receiveCommand v s).events = s.events := rfl
@[simp] theorem receiveCommand_params (v : Byte) (s : State) : (receiveCommand v s).params = s.params := rfl
@[simp] theorem receiveCommand_draws (v : Byte) (s : State) : (receiveCommand v s).draws = s.draws := rfl
@[simp] theorem receiveCommand_inputs (v : Byte) (s : State) : (receiveCommand v s).inputs = s.inputs := rfl
@[simp] theorem receiveCommand_result (v : Byte) (s : State) : (receiveCommand v s).result = s.result := rfl
@[simp] theorem receiveParameter_media (v : Byte) (s : State) : (receiveParameter v s).media = s.media := rfl
@[simp] theorem receiveParameter_events (v : Byte) (s : State) : (receiveParameter v s).events = s.events := rfl
@[simp] theorem receiveParameter_params (v : Byte) (s : State) : (receiveParameter v s).params = s.params := rfl
@[simp] theorem receiveParameter_draws (v : Byte) (s : State) : (receiveParameter v s).draws = s.draws := rfl
@[simp] theorem receiveParameter_inputs (v : Byte) (s : State) : (receiveParameter v s).inputs = s.inputs := rfl
@[simp] theorem receiveParameter_result (v : Byte) (s : State) : (receiveParameter v s).result = s.result := rfl
@[simp] theorem receiveCommand_fdc (v : Byte) (s : State) :
    (receiveCommand v s).fdc =
      { s.fdc with cmdBuf := s.fdc.cmdBuf.set 0 v, phase := .command, idx := 1 } := rfl
@[simp] theorem receiveParameter_fdc (v : Byte) (s : State) :
    (receiveParameter v s).fdc =
      { s.fdc with
        cmdBuf := s.fdc.cmdBuf.setIfInBounds s.fdc.idx v, idx := s.fdc.idx + 1 } := rfl

@[simp] theorem handle_params (hd : Handler) (s : State) : (handle hd s).params = s.params := by
  cases hd <;> simp [handle, handleReadTrack, handleReadDeletedData, handleWriteDeletedData,
    handleScanEqual, handleScanLowOrEqual, handleScanHighOrEqual]
@[simp] theorem runHandler_params (s : State) : (runHandler s).params = s.params := by simp [runHandler]
@[simp] theorem commandByte_params (v : Byte) (s : State) : (commandByte v s).params = s.params := by
  unfold commandByte; split <;> simp
@[simp] theorem parameterByte_params (v : Byte) (s : State) : (parameterByte v s).params = s.params := by
  unfold parameterByte; split <;> simp
@[simp] theorem handle_draws (hd : Handler) (s : State) : (handle hd s).draws = s.draws := by
  cases hd <;> simp [handle, handleReadTrack, handleReadDeletedData, handleWriteDeletedData,
    handleScanEqual, handleScanLowOrEqual, handleScanHighOrEqual]
@[simp] theorem runHandler_draws (s : State) : (runHandler s).draws = s.draws := by simp [runHandler]
@[simp] theorem commandByte_draws (v : Byte) (s : State) : (commandByte v s).draws = s.draws := by
  unfold commandByte; split <;> simp
@[simp] theorem parameterByte_draws (v : Byte) (s : State) : (parameterByte v s).draws = s.draws := by
  unfold parameterByte; split <;> simp
@[simp] theorem handle_inputs (hd : Handler) (s : State) : (handle hd s).inputs = s.inputs := by
  cases hd <;> simp [handle, handleReadTrack, handleReadDeletedData, handleWriteDeletedData,
    handleScanEqual, handleScanLowOrEqual, handleScanHighOrEqual]
@[simp] theorem runHandler_inputs (s : State) : (runHandler s).inputs = s.inputs := by simp [runHandler]
@[simp] theorem commandByte_inputs (v : Byte) (s : State) : (commandByte v s).inputs = s.inputs := by
  unfold commandByte; split <;> simp
@[simp] theorem parameterByte_inputs (v : Byte) (s : State) : (parameterByte v s).inputs = s.inputs := by
  unfold parameterByte; split <;> simp
@[simp] theorem handle_result (hd : Handler) (s : State) : (handle hd s).result = s.result := by
  cases hd <;> simp [handle, handleReadTrack, handleReadDeletedData, handleWriteDeletedData,
    handleScanEqual, handleScanLowOrEqual, handleScanHighOrEqual]
@[simp] theorem runHandler_result (s : State) : (runHandler s).result = s.result := by simp [runHandler]
@[simp] theorem commandByte_result (v : Byte) (s : State) : (commandByte v s).result = s.result := by
  unfold commandByte; split <;> simp
@[simp] theorem parameterByte_result (v : Byte) (s : State) : (parameterByte v s).result = s.result := by
  unfold parameterByte; split <;> simp

/-- Only Format Track reaches the media store from a handler (R176). -/
theorem handle_media {hd : Handler} (h : hd ≠ .formatTrack) (s : State) :
    (handle hd s).media = s.media := by
  cases hd <;> simp_all [handle, handleReadTrack, handleReadDeletedData, handleWriteDeletedData,
    handleScanEqual, handleScanLowOrEqual, handleScanHighOrEqual]

@[simp] theorem handle_present (hd : Handler) (s : State) :
    (handle hd s).media.present = s.media.present := by
  by_cases h : hd = .formatTrack
  · subst h; simp [handle]
  · rw [handle_media h]

end Sys2Proof.Machine
end

