-- ==== Sys2Proof/Laws/Commands.lean ====
section
/-! SUPPORT. What a command's byte sequence does from Idle phase (30_encoding.md R82, R90, 40_fdc_ports.md
R110, R111): the bytes fill the command buffer, and the last one runs the handler. -/

namespace Sys2Proof.Machine

/-- The buffer after the bytes `ps` have been stored from index `k` on. -/
def receiveAt (buf : Vector Byte 10) : (k : Nat) → (ps : List Byte) → Vector Byte 10
  | _, [] => buf
  | k, p :: ps => receiveAt (buf.setIfInBounds k p) (k + 1) ps

theorem receiveAt_getElem (buf : Vector Byte 10) (k : Nat) (ps : List Byte) (i : Nat) (hi : i < 10) :
    (receiveAt buf k ps)[i] = if k ≤ i then ps.getD (i - k) buf[i] else buf[i] := by
  induction ps generalizing buf k with
  | nil => simp [receiveAt]
  | cons p ps ih =>
    rw [receiveAt, ih]
    rcases Nat.lt_trichotomy i k with h | h | h
    · rw [if_neg (by omega), if_neg (by omega), Vector.getElem_setIfInBounds_ne _ (by omega)]
    · subst h
      rw [if_neg (by omega), if_pos (Nat.le_refl _), Vector.getElem_setIfInBounds_self]
      simp
    · obtain ⟨j, rfl⟩ : ∃ j, i = k + 1 + j := ⟨i - (k + 1), by omega⟩
      rw [if_pos (by omega), if_pos (by omega), Vector.getElem_setIfInBounds_ne _ (by omega)]
      have h1 : k + 1 + j - k = j + 1 := by omega
      have h2 : k + 1 + j - (k + 1) = j := by omega
      rw [h1, h2]
      simp

theorem storedBytes_getElem (buf : Vector Byte 10) (bs : List Byte) (i : Nat) (h : i < 10) :
    (storedBytes buf bs)[i] = bs.getD i buf[i] := by
  simp [storedBytes]

theorem receiveAt_eq_storedBytes (buf : Vector Byte 10) (b : Byte) (ps : List Byte) :
    receiveAt (buf.set 0 b) 1 ps = storedBytes buf (b :: ps) := by
  refine Vector.ext fun i hi => ?_
  rw [receiveAt_getElem, storedBytes_getElem]
  cases i with
  | zero => simp
  | succ i =>
    rw [if_pos (by omega)]
    simp

/-- The activity event of the first byte of a longer command, if there is one (R310). -/
def firstByteEvents (s : State) : List Event :=
  if s.media.present = s.fdc.activeReported then []
  else [if s.media.present then .ioStarted else .ioStopped]

/-- A command under way: `bytes` have been stored and the activity rule has run after the first. -/
def underWay (bytes : List Byte) (s : State) : State :=
  { s with
    fdc := { s.fdc with
      cmdBuf := storedBytes s.fdc.cmdBuf bytes, phase := .command, idx := bytes.length,
      activeReported := s.media.present },
    events := firstByteEvents s,
    result := .none }

/-- The state in which the handler of a command issued from Idle phase runs: all bytes are stored, and
after every byte but the last the activity rule has run. -/
def received (b : Byte) (ps : List Byte) (s : State) : State :=
  if ps = [] then receiveCommand b (openStep s) else underWay (b :: ps) s

theorem underWay_settled (bytes : List Byte) (s : State) : Settled (underWay bytes s) := by
  simp [Settled, underWay, ioActive]

theorem underWay_opCmd (b : Byte) (ps : List Byte) (s : State) :
    opCmd (underWay (b :: ps) s).fdc = b := by
  simp [opCmd, underWay, storedBytes_getElem]

/-- The first byte of a command of several bytes. -/
theorem writeByte_first {s : State} {b : Byte} (hi : s.fdc.phase = .idle)
    (hc : 1 < (entryOf s.params b).cmdLen) : writeByte (openStep s) b = underWay [b] s := by
  have hd : dataRegisterWrite b (openStep s) = receiveCommand b (openStep s) := by
    simp [dataRegisterWrite, hi, commandByte, Nat.not_le.mpr hc]
  have hb : s.fdc.cmdBuf.set 0 b = storedBytes s.fdc.cmdBuf [b] := receiveAt_eq_storedBytes _ b []
  rw [writeByte, hd]
  by_cases h : s.media.present = s.fdc.activeReported <;>
    simp [activityRule, ioActive, emit, receiveCommand, openStep, underWay, firstByteEvents, h, hb]

/-- A later byte takes its place in the buffer. -/
theorem receiveParameter_underWay (b p : Byte) (ps : List Byte) (s : State) :
    receiveParameter p (underWay (b :: ps) s) = underWay (b :: (ps ++ [p])) s := by
  have hb : (storedBytes s.fdc.cmdBuf (b :: ps)).setIfInBounds (ps.length + 1) p =
      storedBytes s.fdc.cmdBuf (b :: (ps ++ [p])) := by
    refine Vector.ext fun i hi => ?_
    rw [storedBytes_getElem]
    by_cases h : ps.length + 1 = i
    · subst h
      rw [Vector.getElem_setIfInBounds_self]
      simp
    · rw [Vector.getElem_setIfInBounds_ne _ h, storedBytes_getElem]
      cases i with
      | zero => simp
      | succ j =>
        simp only [List.getD_eq_getElem?_getD, List.getElem?_cons_succ]
        by_cases hl : j < ps.length
        · rw [List.getElem?_append_left hl]
        · rw [List.getElem?_eq_none (by omega), List.getElem?_eq_none (by simp; omega)]
  simp [receiveParameter, underWay, hb]

/-- A later byte that is not the last one is stored, and the activity rule finds nothing new. -/
theorem writeByte_underWay {s : State} {b p : Byte} {ps : List Byte}
    (hc : ps.length + 2 < cmdCount (entryOf s.params b)) :
    writeByte (underWay (b :: ps) s) p = underWay (b :: (ps ++ [p])) s := by
  have hno : commandComplete (underWay (b :: (ps ++ [p])) s) = false := by
    unfold commandComplete
    rw [underWay_opCmd]
    simp only [underWay, List.length_cons, List.length_append, List.length_nil, decide_eq_false_iff_not]
    omega
  have hd : dataRegisterWrite p (underWay (b :: ps) s) = underWay (b :: (ps ++ [p])) s := by
    show parameterByte p (underWay (b :: ps) s) = _
    simp [parameterByte, receiveParameter_underWay, hno]
  rw [writeByte, hd]
  exact activityRule_of_settled (underWay_settled _ _)

/-- Bytes that do not complete their command are stored one after another. -/
theorem foldl_writeByte_underWay {s : State} {b : Byte} (qs ps : List Byte)
    (hc : qs.length + ps.length + 1 < cmdCount (entryOf s.params b)) :
    ps.foldl writeByte (underWay (b :: qs) s) = underWay (b :: (qs ++ ps)) s := by
  induction ps generalizing qs with
  | nil => simp
  | cons p ps ih =>
    rw [List.length_cons] at hc
    rw [List.foldl_cons, writeByte_underWay (by omega), ih (qs ++ [p]) (by simp; omega)]
    simp

/-- R82, R90, R110, R111: a command issued from Idle phase stores its bytes and runs its handler with
the last one; the activity rule follows. -/
theorem issue_command {s : State} {b : Byte} {ps : List Byte} (hi : s.fdc.phase = .idle)
    (hc : cmdCount (entryOf s.params b) = ps.length + 1) :
    issue (b :: ps) s = activityRule (runHandler (received b ps s)) := by
  have hcount : max (entryOf s.params b).cmdLen 1 = ps.length + 1 := hc
  cases ps using List.reverseRecOn with
  | nil =>
    have hle : (entryOf s.params b).cmdLen ≤ 1 := by simp at hcount; omega
    simp [issue, writeByte, dataRegisterWrite, hi, commandByte, hle, received]
  | append_singleton ps p =>
    have hlen : (ps ++ [p]).length = ps.length + 1 := by simp
    rw [hlen] at hc hcount
    have hlast : commandComplete (underWay (b :: (ps ++ [p])) s) = true := by
      unfold commandComplete
      rw [underWay_opCmd]
      simp [underWay, hc]
    have hparam : dataRegisterWrite p (underWay (b :: ps) s) =
        runHandler (underWay (b :: (ps ++ [p])) s) := by
      show parameterByte p (underWay (b :: ps) s) = _
      simp [parameterByte, receiveParameter_underWay, hlast]
    have hrun := foldl_writeByte_underWay (s := s) (b := b) [] ps (by simp; omega)
    simp only [issue, List.foldl_cons, List.foldl_append, List.foldl_nil,
      writeByte_first hi (show 1 < (entryOf s.params b).cmdLen by omega)]
    rw [hrun, List.nil_append, writeByte, hparam]
    simp [received]

/-- The command byte is the one that selects the handler (R140). -/
theorem received_opCmd (b : Byte) (ps : List Byte) (s : State) : opCmd (received b ps s).fdc = b := by
  unfold received
  split
  · simp [opCmd]
  · exact underWay_opCmd b ps s

@[simp] theorem received_media (b : Byte) (ps : List Byte) (s : State) :
    (received b ps s).media = s.media := by unfold received; split <;> rfl
@[simp] theorem received_params (b : Byte) (ps : List Byte) (s : State) :
    (received b ps s).params = s.params := by unfold received; split <;> rfl
@[simp] theorem received_draws (b : Byte) (ps : List Byte) (s : State) :
    (received b ps s).draws = s.draws := by unfold received; split <;> rfl
@[simp] theorem received_inputs (b : Byte) (ps : List Byte) (s : State) :
    (received b ps s).inputs = s.inputs := by unfold received; split <;> rfl
@[simp] theorem received_result (b : Byte) (ps : List Byte) (s : State) :
    (received b ps s).result = .none := by unfold received; split <;> rfl

theorem received_events (b : Byte) (ps : List Byte) (s : State) :
    (received b ps s).events = if ps = [] then [] else firstByteEvents s := by
  unfold received; split <;> rfl

theorem received_fdc (b : Byte) (ps : List Byte) (s : State) :
    (received b ps s).fdc =
      { s.fdc with
        cmdBuf := storedBytes s.fdc.cmdBuf (b :: ps), phase := .command, idx := ps.length + 1,
        activeReported := if ps = [] then s.fdc.activeReported else s.media.present } := by
  by_cases h : ps = []
  · subst h
    simp [received, ← receiveAt_eq_storedBytes, receiveAt]
  · simp [received, h, underWay]

/-- The state that a handler sees: `received` with `lastCmd` and `resLen` written (R140). -/
def handlerState (b : Byte) (ps : List Byte) (s : State) : State :=
  { received b ps s with
    fdc := { (received b ps s).fdc with lastCmd := b, resLen := (entryOf s.params b).resLen } }

/-- R140 after R111: which handler a command issued from Idle phase runs, and on what. -/
theorem runHandler_received (b : Byte) (ps : List Byte) (s : State) :
    runHandler (received b ps s) =
      handle (entryOf s.params b).handler (handlerState b ps s) := by
  simp [runHandler, received_opCmd, handlerState]

theorem handlerState_fdc (b : Byte) (ps : List Byte) (s : State) :
    (handlerState b ps s).fdc =
      { s.fdc with
        cmdBuf := storedBytes s.fdc.cmdBuf (b :: ps), phase := .command, idx := ps.length + 1,
        activeReported := if ps = [] then s.fdc.activeReported else s.media.present,
        lastCmd := b, resLen := (entryOf s.params b).resLen } := by
  simp [handlerState, received_fdc]

@[simp] theorem handlerState_media (b : Byte) (ps : List Byte) (s : State) :
    (handlerState b ps s).media = s.media := by simp [handlerState]
@[simp] theorem handlerState_params (b : Byte) (ps : List Byte) (s : State) :
    (handlerState b ps s).params = s.params := by simp [handlerState]
@[simp] theorem handlerState_draws (b : Byte) (ps : List Byte) (s : State) :
    (handlerState b ps s).draws = s.draws := by simp [handlerState]
@[simp] theorem handlerState_inputs (b : Byte) (ps : List Byte) (s : State) :
    (handlerState b ps s).inputs = s.inputs := by simp [handlerState]
@[simp] theorem handlerState_result (b : Byte) (ps : List Byte) (s : State) :
    (handlerState b ps s).result = .none := by simp [handlerState]
theorem handlerState_events (b : Byte) (ps : List Byte) (s : State) :
    (handlerState b ps s).events = if ps = [] then [] else firstByteEvents s := by
  simp [handlerState, received_events]

/-- R82, R90, R110, R111, R140: a command issued from Idle phase, as one equation. -/
theorem issue_eq {s : State} {b : Byte} {ps : List Byte} (hi : s.fdc.phase = .idle)
    (hc : cmdCount (entryOf s.params b) = ps.length + 1) :
    issue (b :: ps) s =
      activityRule (handle (entryOf s.params b).handler (handlerState b ps s)) := by
  rw [issue_command hi hc, runHandler_received]

/-! ### The default table (R84) -/

/-- The entry of a command byte is that of its index: bits [7:5] take no part (R82). -/
theorem entryOf_cmdByte (p : Params) (opt : BitVec 3) (idx : BitVec 5) :
    entryOf p (cmdByte opt idx) = p.table[idx.toNat]'idx.isLt := by
  have h : cmdIndex (cmdByte opt idx) = idx := BitVec.extractLsb'_append_eq_right
  simp only [entryOf, h]

end Sys2Proof.Machine
end

