-- ==== Sys2Proof/Laws/Decode.lean ====
section
/-! SUPPORT. The fields of a bus operation word (30_encoding.md R81) and of a command byte (R82). -/

namespace Sys2Proof

@[simp] theorem busSelector_busWord (sel : BitVec 4) (d : Byte) : busSelector (busWord sel d) = sel := by
  unfold busSelector busWord
  exact BitVec.extractLsb'_append_eq_left

@[simp] theorem busData_busWord (sel : BitVec 4) (d : Byte) : busData (busWord sel d) = d := by
  unfold busData busWord
  exact BitVec.extractLsb'_append_eq_right

/-- A word is its two fields. -/
theorem busWord_fields (w : BitVec 12) : busWord (busSelector w) (busData w) = w := by
  unfold busSelector busData busWord
  apply BitVec.eq_of_getLsbD_eq
  intro i hi
  simp only [BitVec.getLsbD_append, BitVec.getLsbD_extractLsb']
  by_cases h : i < 8
  · simp [h]
  · have h4 : i - 8 < 4 := by omega
    simp [h, h4, show 8 + (i - 8) = i by omega]

@[simp] theorem cmdIndex_cmdByte (opt : BitVec 3) (idx : BitVec 5) : cmdIndex (cmdByte opt idx) = idx := by
  unfold cmdIndex cmdByte
  exact BitVec.extractLsb'_append_eq_right

@[simp] theorem cmdOpt_cmdByte (opt : BitVec 3) (idx : BitVec 5) : cmdOpt (cmdByte opt idx) = opt := by
  unfold cmdOpt cmdByte
  exact BitVec.extractLsb'_append_eq_left

/-- A command byte is its option bits and its index. -/
theorem cmdByte_fields (b : Byte) : cmdByte (cmdOpt b) (cmdIndex b) = b := by
  unfold cmdOpt cmdIndex cmdByte
  apply BitVec.eq_of_getLsbD_eq
  intro i hi
  simp only [BitVec.getLsbD_append, BitVec.getLsbD_extractLsb']
  by_cases h : i < 5
  · simp [h]
  · have h3 : i - 5 < 3 := by omega
    simp [h, h3, show 5 + (i - 5) = i by omega]

/-- R84: the entry of the default table, by index. -/
theorem entryOf_default {p : Params} (h : p.table = Config.defaultTable) (opt : BitVec 3)
    (idx : BitVec 5) :
    Machine.entryOf p (cmdByte opt idx) = Config.defaultTable[idx.toNat]'idx.isLt := by
  simp [Machine.entryOf_cmdByte, h]

end Sys2Proof
end

