-- ==== Sys2Proof/Laws/Fat.lean ====
section
/-! SUPPORT. The FAT12 units: range reads (20_memory.md R64), the codec's two bytes (42_fat12_codec.md R210,
R211), one pass of the chain loop (43_cluster_chain.md R231), and the entry list of a directory
(44_directory_parser.md R251). -/

namespace Sys2Proof.Machine

/-! ### Range reads -/

/-- What a range read that succeeds gives (R64). -/
theorem rangeRead_some {m : MediaStore} {off : Int} {n : Nat} {bs : List Byte}
    (h : rangeRead m off n = some bs) :
    m.present = true ∧ 0 ≤ off ∧ off + (n : Int) ≤ (m.img.size : Int) ∧ bs.length = n ∧
      ∀ i, i < n → bs.getD i 0 = m.img.read (off.toNat + i) := by
  unfold rangeRead at h
  split at h
  · next hc =>
    simp only [Bool.and_eq_true, decide_eq_true_eq] at hc
    cases h
    refine ⟨hc.1.1, hc.1.2, hc.2, by simp, fun i hi => ?_⟩
    simp [hi]
  · cases h

theorem rangeRead_length {m : MediaStore} {off : Int} {n : Nat} {bs : List Byte}
    (h : rangeRead m off n = some bs) : bs.length = n := (rangeRead_some h).2.2.2.1

/-- A range read fails exactly with no medium or outside the image (R64). -/
theorem rangeRead_eq_none {m : MediaStore} {off : Int} {n : Nat} :
    rangeRead m off n = none ↔
      m.present = false ∨ off < 0 ∨ (m.img.size : Int) < off + (n : Int) := by
  unfold rangeRead
  split
  · next hc =>
    simp only [Bool.and_eq_true, decide_eq_true_eq] at hc
    simp [hc.1.1]; omega
  · next hc =>
    simp only [Bool.and_eq_true, decide_eq_true_eq, not_and] at hc
    cases hp : m.present <;> simp_all
    omega

/-! ### The codec's bytes -/

theorem readEntry_eq (fat : List Byte) (c : Nat) :
    readEntry fat c =
      if entryIndex c + 1 ≥ fat.length then none else some (entryOfWord c (le16 fat (entryIndex c))) :=
  rfl

/-- What a write that succeeds gives (R211): both bytes lie inside, and only they are written. -/
theorem writeEntry_some {fat fat' : List Byte} {c v : Nat} (h : writeEntry fat c v = some fat') :
    entryIndex c + 1 < fat.length ∧
      fat' = (fat.set (entryIndex c)
          (entryLowByte c (BitVec.ofNat 12 v) (byteAt fat (entryIndex c)))).set (entryIndex c + 1)
        (entryHighByte c (BitVec.ofNat 12 v) (byteAt fat (entryIndex c + 1))) := by
  simp only [writeEntry] at h
  split at h
  · cases h
  · next hc => exact ⟨by omega, (Option.some.inj h).symm⟩

theorem byteAt_set_self {fat : List Byte} {i : Nat} (x : Byte) (h : i < fat.length) :
    byteAt (fat.set i x) i = x := by
  simp [byteAt, List.getD_eq_getElem?_getD, h]

theorem byteAt_set_other (fat : List Byte) {i j : Nat} (x : Byte) (h : j ≠ i) :
    byteAt (fat.set i x) j = byteAt fat j := by
  simp [byteAt, List.getD_eq_getElem?_getD, List.getElem?_set_ne (Ne.symm h)]

/-- The 12 bits written are the 12 bits read back. -/
theorem entryOfWord_written (c : Nat) (v : U12) (lo hi : Byte) :
    entryOfWord c (entryHighByte c v hi ++ entryLowByte c v lo) = v := by
  unfold entryOfWord entryHighByte entryLowByte
  split
  · apply BitVec.eq_of_getLsbD_eq
    intro i hi'
    simp only [BitVec.getLsbD_extractLsb', BitVec.getLsbD_append, hi', Nat.zero_add]
    by_cases h : i < 8
    · simp [h]
    · have h4 : i - 8 < 4 := by omega
      simp [h, h4, show 8 + (i - 8) = i by omega]
  · apply BitVec.eq_of_getLsbD_eq
    intro i hi'
    simp only [BitVec.getLsbD_extractLsb', BitVec.getLsbD_append, hi']
    by_cases h : i < 4
    · simp [show 4 + i < 8 by omega, h]
    · have h8 : i - 4 < 8 := by omega
      simp [show ¬ (4 + i < 8) by omega, show 4 + i - 8 = i - 4 by omega, h8,
        show 4 + (i - 4) = i by omega]

/-- The neighbour below: an odd entry's write keeps the low nibble of its first byte (R211). -/
theorem entryOfWord_low_kept {c d : Nat} (hc : c % 2 = 1) (hd : d % 2 = 0) (v : U12) (lo x : Byte) :
    entryOfWord d (entryLowByte c v lo ++ x) = entryOfWord d (lo ++ x) := by
  unfold entryOfWord entryLowByte
  rw [if_pos hd, if_pos hd, if_neg (by omega)]
  apply BitVec.eq_of_getLsbD_eq
  intro i hi
  simp only [BitVec.getLsbD_extractLsb', BitVec.getLsbD_append, hi, Nat.zero_add]
  by_cases h : i < 8
  · simp [h]
  · simp [h, show i - 8 < 4 by omega]

/-- The neighbour above: an even entry's write keeps the high nibble of its second byte (R211). -/
theorem entryOfWord_high_kept {c d : Nat} (hc : c % 2 = 0) (hd : d % 2 = 1) (v : U12) (hi x : Byte) :
    entryOfWord d (x ++ entryHighByte c v hi) = entryOfWord d (x ++ hi) := by
  unfold entryOfWord entryHighByte
  have hd' : ¬ d % 2 = 0 := by omega
  rw [if_neg hd', if_neg hd', if_pos hc]
  apply BitVec.eq_of_getLsbD_eq
  intro i hi'
  simp only [BitVec.getLsbD_extractLsb', BitVec.getLsbD_append, hi']
  by_cases h : i < 4
  · simp [show 4 + i < 8 by omega, show ¬ (4 + i < 4) by omega, h]
  · simp [show ¬ (4 + i < 8) by omega]

/-! ### The chain loop -/

/-- One pass of the loop of R231. -/
theorem readChainFrom_succ (m : MediaStore) (g : Geometry) (fat : List Byte) (steps c : Nat)
    (out : List Byte) :
    readChainFrom m g fat (steps + 1) c out =
      if validCluster g c then
        match clusterBytes m g c with
        | none => none
        | some d =>
          match nextCluster fat c with
          | none => some (out ++ d)
          | some e => readChainFrom m g fat steps e (out ++ d)
      else some out := rfl

theorem clusterBytes_length {m : MediaStore} {g : Geometry} {c : Nat} {d : List Byte}
    (h : clusterBytes m g c = some d) : d.length = g.bytesPerCluster := rangeRead_length h

/-- What the free list holds (R233, R234). -/
theorem mem_freeList {g : Geometry} {fat : List Byte} {c : Nat} :
    c ∈ freeList g fat ↔ 2 ≤ c ∧ c < g.totalClusters + 2 ∧ readEntry fat c = some 0 := by
  simp only [freeList, isFree, List.mem_filter, List.mem_range'_1, beq_iff_eq, and_assoc]
  rw [Nat.add_comm 2]

/-- The free list ascends (R233). -/
theorem freeList_ascending (g : Geometry) (fat : List Byte) :
    (freeList g fat).Pairwise (· < ·) :=
  List.Pairwise.filter _ List.pairwise_lt_range'

/-! ### The entries of a directory -/

/-- The first 32 bytes are the first entry; the others follow. -/
theorem directoryEntries_append {e : List Byte} (he : e.length = 32) (rest : List Byte) :
    directoryEntries (e ++ rest) = e :: directoryEntries rest := by
  have hlen : (e ++ rest).length / 32 = rest.length / 32 + 1 := by
    rw [List.length_append, he]; omega
  simp only [directoryEntries, Config.dirEntryBytes, hlen, List.range_succ_eq_map, List.map_cons,
    List.map_map]
  congr 1
  · simp [he]
  · apply List.map_congr_left
    intro k _
    have hk : 32 * (k + 1) = e.length + 32 * k := by omega
    simp only [Function.comp_apply, Nat.succ_eq_add_one, hk, List.drop_append]
    rw [List.drop_eq_nil_of_le (by omega)]
    simp

end Sys2Proof.Machine
end

