-- ==== Sys2Proof/Laws/Directory.lean ====
section
/-! SUPPORT. Little-endian numbers (00_scope.md R10), the walk of a cluster chain (43_cluster_chain.md
R231), and what the parser's parts do (44_directory_parser.md): the entry list, the fragments before an
entry, the units a fragment writes, and the padded name fields. -/

namespace Sys2Proof.Machine

/-! ### Little-endian numbers -/

theorem le16_toNat (b : List Byte) (i : Nat) : (le16 b i).toNat = leNat b i 2 := by
  have hlo := (byteAt b i).isLt
  simp only [le16, BitVec.toNat_append, leNat, Nat.mul_zero, Nat.add_zero]
  rw [Nat.shiftLeft_eq, Nat.mul_comm, ← Nat.two_pow_add_eq_or_of_lt hlo]
  omega

theorem le32_toNat (b : List Byte) (i : Nat) : (le32 b i).toNat = leNat b i 4 := by
  simp only [le32, BitVec.toNat_append]
  rw [Nat.shiftLeft_eq, Nat.mul_comm, ← Nat.two_pow_add_eq_or_of_lt (le16 b i).isLt, le16_toNat,
    le16_toNat]
  simp only [leNat, Nat.add_assoc, Nat.reduceAdd]
  omega

theorem le16_eq_ofNat (b : List Byte) (i : Nat) : le16 b i = BitVec.ofNat 16 (leNat b i 2) := by
  rw [← le16_toNat]; simp

/-- A number depends on its own bytes alone. -/
theorem leNat_congr {a b : List Byte} {i n : Nat}
    (h : ∀ j, i ≤ j → j < i + n → byteAt a j = byteAt b j) : leNat a i n = leNat b i n := by
  induction n generalizing i with
  | zero => rfl
  | succ n ih =>
    simp only [leNat]
    rw [h i (by omega) (by omega), ih (fun j h1 h2 => h j (by omega) (by omega))]

theorem byteAt_toBytes (m : Memory) {j : Nat} (h : j < m.size) : byteAt m.toBytes j = m.read j := by
  simp [byteAt, Memory.toBytes, List.getD_eq_getElem?_getD, h]

/-! ### The walk of a chain -/

theorem chainCluster_zero (g : Geometry) (fat : List Byte) (c : Nat) :
    chainCluster g fat c 0 = if validCluster g c then some c else none := by
  simp [chainCluster, validCluster]

theorem chainCluster_succ (g : Geometry) (fat : List Byte) (c k : Nat) :
    chainCluster g fat c (k + 1) = (chainCluster g fat c k).bind (chainLink g fat) := rfl

/-- A walk that has stopped has no further cluster. -/
theorem chainCluster_stopped {g : Geometry} {fat : List Byte} {c k : Nat}
    (h : chainCluster g fat c k = none) (n : Nat) : chainCluster g fat c (k + n) = none := by
  induction n with
  | zero => exact h
  | succ n ih => rw [← Nat.add_assoc, chainCluster_succ, ih]; rfl

/-- A walk whose second cluster is `e`, or would be, goes on as the walk from `e`. -/
theorem chainCluster_shift {g : Geometry} {fat : List Byte} {c e : Nat}
    (h : chainCluster g fat c 1 = chainCluster g fat e 0) (k : Nat) :
    chainCluster g fat c (k + 1) = chainCluster g fat e k := by
  induction k with
  | zero => exact h
  | succ k ih => rw [chainCluster_succ, ih]; rfl

/-! ### The entries of a directory -/

/-- Whole entries before further bytes are the first entries of the list. -/
theorem directoryEntries_flatten {es : List (List Byte)} (h : ∀ e ∈ es, e.length = 32)
    (rest : List Byte) : directoryEntries (es.flatten ++ rest) = es ++ directoryEntries rest := by
  induction es with
  | nil => rfl
  | cons e es ih =>
    simp only [List.flatten_cons, List.append_assoc]
    rw [directoryEntries_append (h e (by simp)), ih (fun x hx => h x (by simp [hx]))]
    rfl

/-- Fragments only change the accumulator (R254, R255). -/
theorem parseEntries_fragments (sub : Nat → Forest) {fs : List (List Byte)}
    (h : ∀ f ∈ fs, IsFragment f) (es : List (List Byte)) (acc : List U16) :
    parseEntries sub (fs ++ es) acc = parseEntries sub es (fs.foldl lfnFragment acc) := by
  induction fs generalizing acc with
  | nil => rfl
  | cons f fs ih =>
    obtain ⟨-, h0, h5, hF⟩ := h f (by simp)
    rw [List.cons_append, parseEntries, if_neg h0, if_neg h5, if_pos (show attrOf f = 0x0F from hF)]
    exact ih (fun x hx => h x (by simp [hx])) _

/-- The scan of a directory with its children (R251, R264): none at the last level, else those of the
chain's bytes one level down. -/
theorem parseLevels_sub (m : MediaStore) (g : Geometry) (fat : List Byte) (levels : Nat) :
    ∃ sub, (∀ raw, parseLevels m g fat levels raw = parseEntries sub (directoryEntries raw) []) ∧
      ∀ c, sub c = match levels with
        | 0 => .nil
        | n + 1 => (readChain m g fat c).elim .nil (parseLevels m g fat n) := by
  cases levels with
  | zero => exact ⟨_, fun _ => rfl, fun _ => rfl⟩
  | succ n =>
    refine ⟨_, fun _ => rfl, fun c => ?_⟩
    cases readChain m g fat c <;> rfl

theorem isDotName_iff (n : List U16) : isDotName n = true ↔ n = [0x2E] ∨ n = [0x2E, 0x2E] := by
  simp [isDotName]

theorem isDirectory_iff (e : List Byte) : isDirectory e = true ↔ byteAt e 11 &&& 0x10 ≠ 0 :=
  bne_iff_ne

/-! ### The units of a fragment (R256) -/

theorem lfnSeq_eq (e : List Byte) : lfnSeq e = (byteAt e 0).toNat % 32 := by
  simp only [lfnSeq, BitVec.toNat_and]
  exact Nat.and_two_pow_sub_one_eq_mod _ 5

@[simp] theorem putUnits_length (e : List Byte) (ps : List Nat) (k : Nat) (acc : List U16) :
    (putUnits e ps k acc).length = acc.length := by
  induction ps generalizing k acc with
  | nil => rfl
  | cons p ps ih => unfold putUnits; simp only []; split <;> simp [ih]

/-- The units outside the fragment's place are kept. -/
theorem putUnits_outside (e : List Byte) (ps : List Nat) (k : Nat) (acc : List U16) {i : Nat}
    (h : i < k ∨ k + ps.length ≤ i) : (putUnits e ps k acc)[i]? = acc[i]? := by
  induction ps generalizing k acc with
  | nil => rfl
  | cons p ps ih =>
    simp only [List.length_cons] at h
    unfold putUnits
    simp only []
    split
    · rfl
    · rw [ih _ _ (by omega), List.getElem?_set_ne (by omega)]

/-- A unit with no NUL or filler up to it is written. -/
theorem putUnits_written (e : List Byte) (ps : List Nat) (k : Nat) (acc : List U16) {j : Nat}
    (hj : j < ps.length) (hl : k + ps.length ≤ acc.length)
    (h : ∀ i, i ≤ j → le16 e (ps.getD i 0) ≠ 0 ∧ le16 e (ps.getD i 0) ≠ 0xFFFF) :
    (putUnits e ps k acc)[k + j]? = some (le16 e (ps.getD j 0)) := by
  induction ps generalizing k acc j with
  | nil => simp at hj
  | cons p ps ih =>
    simp only [List.length_cons] at hj hl
    have h0 := h 0 (by omega)
    simp only [List.getD_cons_zero] at h0
    unfold putUnits
    simp only []
    rw [if_neg (not_or.2 h0)]
    cases j with
    | zero =>
      rw [Nat.add_zero, putUnits_outside _ _ _ _ (by omega)]
      simp [show k < acc.length by omega]
    | succ j =>
      have := ih (k + 1) (acc.set k (le16 e p)) (j := j) (by omega) (by simp; omega)
        (fun i hi => by simpa using h (i + 1) (by omega))
      rw [show k + (j + 1) = k + 1 + j by omega, this]
      rfl

/-- A unit at or after a NUL or filler is kept. -/
theorem putUnits_stopped (e : List Byte) (ps : List Nat) (k : Nat) (acc : List U16) {i j : Nat}
    (hi : i ≤ j) (hj : j < ps.length)
    (h : le16 e (ps.getD i 0) = 0 ∨ le16 e (ps.getD i 0) = 0xFFFF) :
    (putUnits e ps k acc)[k + j]? = acc[k + j]? := by
  induction ps generalizing k acc i j with
  | nil => simp at hj
  | cons p ps ih =>
    simp only [List.length_cons] at hj
    unfold putUnits
    simp only []
    split
    · rfl
    · next hn =>
      cases i with
      | zero => exact absurd h hn
      | succ i =>
        obtain ⟨j, rfl⟩ : ∃ j', j = j' + 1 := ⟨j - 1, by omega⟩
        have := ih (k + 1) (acc.set k (le16 e p)) (i := i) (j := j) (by omega) (by omega)
          (by simpa using h)
        rw [show k + (j + 1) = k + 1 + j by omega, this, List.getElem?_set_ne (by omega)]

/-! ### Name fields (R260) -/

theorem paddedField_length {b : List Byte} {n : Nat} (h : b.length ≤ n) :
    (paddedField b n).length = n := by
  simp [paddedField]; omega

/-- Trimming removes the spaces that fill a field up. -/
theorem trimSpaces_append {b : List Byte} (n : Nat) (h : b.getLast? ≠ some 0x20) :
    trimSpaces (b ++ List.replicate n 0x20) = b := by
  have drop : ∀ (n : Nat) (l : List Byte), (List.replicate n (0x20 : Byte) ++ l).dropWhile
      (fun x => x == 0x20) = l.dropWhile fun x => x == 0x20 := by
    intro n l
    induction n with
    | zero => rfl
    | succ n ih => rw [List.replicate_succ, List.cons_append, List.dropWhile_cons]; simp
  unfold trimSpaces
  rw [List.reverse_append, List.reverse_replicate, drop]
  cases hb : b.reverse with
  | nil => simpa using hb.symm
  | cons x xs =>
    have hx : b.getLast? = some x := by rw [← List.head?_reverse, hb]; rfl
    rw [List.dropWhile_cons, if_neg]
    · rw [← hb, List.reverse_reverse]
    · intro h2
      apply h
      rw [hx]
      simpa using h2

theorem entryBytes_eq {e : List Byte} {lo n : Nat} (h : lo + n ≤ e.length) :
    entryBytes e lo n = (e.drop lo).take n := by
  apply List.ext_getElem
  · simp [entryBytes]; omega
  · intro i h1 h2
    simp only [entryBytes, List.length_map, List.length_range] at h1
    simp [entryBytes, byteAt, List.getD_eq_getElem?_getD, show lo + i < e.length by omega]

end Sys2Proof.Machine
end

