-- ==== Sys2Proof/Laws/PerInstr.lean ====
section
/-! SUPPORT. Per instruction: the form of its encoding. A bus operation is one word, whose number is 256
times W and p plus the data byte (30_encoding.md R81); a command is as many bytes as the default
table's entry of its first byte says (R83, R84). -/

namespace Sys2Proof.Laws

/-- The command-byte count of the default table (R84) for a command byte. -/
def defaultLen (b : Byte) : Nat := (Config.defaultTable[(cmdIndex b).toNat]'(cmdIndex b).isLt).cmdLen

/-- The encoding of the instruction has the length its form has. -/
def CommandForm.Statement (i : Instr) : Prop :=
  match encode i with
  | .bus w => w.toNat = (busSelector w).toNat * 256 + (busData w).toNat
  | .command [] => False
  | .command (b :: ps) => ps.length + 1 = defaultLen b

theorem word_fields (w : BitVec 12) :
    w.toNat = (busSelector w).toNat * 256 + (busData w).toNat := by
  have h := w.isLt
  simp only [busSelector, busData, BitVec.extractLsb'_toNat, Nat.shiftRight_eq_div_pow]
  omega

theorem defaultLen_cmdByte (opt : BitVec 3) (idx : BitVec 5) :
    defaultLen (cmdByte opt idx) = (Config.defaultTable[idx.toNat]'idx.isLt).cmdLen := by
  simp only [defaultLen, cmdIndex_cmdByte]

theorem CommandForm.in0 (d : Byte) : CommandForm.Statement (.in0 d) := word_fields _

theorem CommandForm.in1 (d : Byte) : CommandForm.Statement (.in1 d) := word_fields _

theorem CommandForm.out0 (d : Byte) : CommandForm.Statement (.out0 d) := word_fields _

theorem CommandForm.out1 (d : Byte) : CommandForm.Statement (.out1 d) := word_fields _

theorem CommandForm.in2 (d : Byte) : CommandForm.Statement (.in2 d) := word_fields _

theorem CommandForm.out2 (d : Byte) : CommandForm.Statement (.out2 d) := word_fields _

theorem CommandForm.in3 (d : Byte) : CommandForm.Statement (.in3 d) := word_fields _

theorem CommandForm.out3 (d : Byte) : CommandForm.Statement (.out3 d) := word_fields _

theorem CommandForm.in4 (d : Byte) : CommandForm.Statement (.in4 d) := word_fields _

theorem CommandForm.out4 (d : Byte) : CommandForm.Statement (.out4 d) := word_fields _

theorem CommandForm.in5 (d : Byte) : CommandForm.Statement (.in5 d) := word_fields _

theorem CommandForm.out5 (d : Byte) : CommandForm.Statement (.out5 d) := word_fields _

theorem CommandForm.in6 (d : Byte) : CommandForm.Statement (.in6 d) := word_fields _

theorem CommandForm.out6 (d : Byte) : CommandForm.Statement (.out6 d) := word_fields _

theorem CommandForm.in7 (d : Byte) : CommandForm.Statement (.in7 d) := word_fields _

theorem CommandForm.out7 (d : Byte) : CommandForm.Statement (.out7 d) := word_fields _

theorem CommandForm.invalid00 (opt : BitVec 3) :
    CommandForm.Statement (.invalid00 opt) := (defaultLen_cmdByte opt 0x00#5).symm

theorem CommandForm.invalid01 (opt : BitVec 3) :
    CommandForm.Statement (.invalid01 opt) := (defaultLen_cmdByte opt 0x01#5).symm

theorem CommandForm.readTrack (opt : BitVec 3) (hdus c h r n eot gpl dtl : Byte) :
    CommandForm.Statement (.readTrack opt hdus c h r n eot gpl dtl) := (defaultLen_cmdByte opt 0x02#5).symm

theorem CommandForm.specify (opt : BitVec 3) (srtHut hltNd : Byte) :
    CommandForm.Statement (.specify opt srtHut hltNd) := (defaultLen_cmdByte opt 0x03#5).symm

theorem CommandForm.senseDriveStatus (opt : BitVec 3) (hdus : Byte) :
    CommandForm.Statement (.senseDriveStatus opt hdus) := (defaultLen_cmdByte opt 0x04#5).symm

theorem CommandForm.writeData (opt : BitVec 3) (hdus c h r n eot gpl dtl : Byte) :
    CommandForm.Statement (.writeData opt hdus c h r n eot gpl dtl) := (defaultLen_cmdByte opt 0x05#5).symm

theorem CommandForm.readData (opt : BitVec 3) (hdus c h r n eot gpl dtl : Byte) :
    CommandForm.Statement (.readData opt hdus c h r n eot gpl dtl) := (defaultLen_cmdByte opt 0x06#5).symm

theorem CommandForm.recalibrate (opt : BitVec 3) (us : Byte) :
    CommandForm.Statement (.recalibrate opt us) := (defaultLen_cmdByte opt 0x07#5).symm

theorem CommandForm.senseInterruptStatus (opt : BitVec 3) :
    CommandForm.Statement (.senseInterruptStatus opt) := (defaultLen_cmdByte opt 0x08#5).symm

theorem CommandForm.writeDeletedData (opt : BitVec 3) (hdus c h r n eot gpl dtl : Byte) :
    CommandForm.Statement (.writeDeletedData opt hdus c h r n eot gpl dtl) := (defaultLen_cmdByte opt 0x09#5).symm

theorem CommandForm.readId (opt : BitVec 3) (hdus : Byte) :
    CommandForm.Statement (.readId opt hdus) := (defaultLen_cmdByte opt 0x0A#5).symm

theorem CommandForm.invalid0B (opt : BitVec 3) :
    CommandForm.Statement (.invalid0B opt) := (defaultLen_cmdByte opt 0x0B#5).symm

theorem CommandForm.readDeletedData (opt : BitVec 3) (hdus c h r n eot gpl dtl : Byte) :
    CommandForm.Statement (.readDeletedData opt hdus c h r n eot gpl dtl) := (defaultLen_cmdByte opt 0x0C#5).symm

theorem CommandForm.formatTrack (opt : BitVec 3) (hdus n sc gpl d : Byte) :
    CommandForm.Statement (.formatTrack opt hdus n sc gpl d) := (defaultLen_cmdByte opt 0x0D#5).symm

theorem CommandForm.invalid0E (opt : BitVec 3) :
    CommandForm.Statement (.invalid0E opt) := (defaultLen_cmdByte opt 0x0E#5).symm

theorem CommandForm.seek (opt : BitVec 3) (hdus ncn : Byte) :
    CommandForm.Statement (.seek opt hdus ncn) := (defaultLen_cmdByte opt 0x0F#5).symm

theorem CommandForm.invalid10 (opt : BitVec 3) :
    CommandForm.Statement (.invalid10 opt) := (defaultLen_cmdByte opt 0x10#5).symm

theorem CommandForm.scanEqual (opt : BitVec 3) (hdus c h r n eot gpl dtl : Byte) :
    CommandForm.Statement (.scanEqual opt hdus c h r n eot gpl dtl) := (defaultLen_cmdByte opt 0x11#5).symm

theorem CommandForm.invalid12 (opt : BitVec 3) :
    CommandForm.Statement (.invalid12 opt) := (defaultLen_cmdByte opt 0x12#5).symm

theorem CommandForm.invalid13 (opt : BitVec 3) :
    CommandForm.Statement (.invalid13 opt) := (defaultLen_cmdByte opt 0x13#5).symm

theorem CommandForm.invalid14 (opt : BitVec 3) :
    CommandForm.Statement (.invalid14 opt) := (defaultLen_cmdByte opt 0x14#5).symm

theorem CommandForm.invalid15 (opt : BitVec 3) :
    CommandForm.Statement (.invalid15 opt) := (defaultLen_cmdByte opt 0x15#5).symm

theorem CommandForm.invalid16 (opt : BitVec 3) :
    CommandForm.Statement (.invalid16 opt) := (defaultLen_cmdByte opt 0x16#5).symm

theorem CommandForm.invalid17 (opt : BitVec 3) :
    CommandForm.Statement (.invalid17 opt) := (defaultLen_cmdByte opt 0x17#5).symm

theorem CommandForm.invalid18 (opt : BitVec 3) :
    CommandForm.Statement (.invalid18 opt) := (defaultLen_cmdByte opt 0x18#5).symm

theorem CommandForm.scanLowOrEqual (opt : BitVec 3) (hdus c h r n eot gpl dtl : Byte) :
    CommandForm.Statement (.scanLowOrEqual opt hdus c h r n eot gpl dtl) := (defaultLen_cmdByte opt 0x19#5).symm

theorem CommandForm.invalid1A (opt : BitVec 3) :
    CommandForm.Statement (.invalid1A opt) := (defaultLen_cmdByte opt 0x1A#5).symm

theorem CommandForm.invalid1B (opt : BitVec 3) :
    CommandForm.Statement (.invalid1B opt) := (defaultLen_cmdByte opt 0x1B#5).symm

theorem CommandForm.invalid1C (opt : BitVec 3) :
    CommandForm.Statement (.invalid1C opt) := (defaultLen_cmdByte opt 0x1C#5).symm

theorem CommandForm.scanHighOrEqual (opt : BitVec 3) (hdus c h r n eot gpl dtl : Byte) :
    CommandForm.Statement (.scanHighOrEqual opt hdus c h r n eot gpl dtl) := (defaultLen_cmdByte opt 0x1D#5).symm

theorem CommandForm.invalid1E (opt : BitVec 3) :
    CommandForm.Statement (.invalid1E opt) := (defaultLen_cmdByte opt 0x1E#5).symm

theorem CommandForm.invalid1F (opt : BitVec 3) :
    CommandForm.Statement (.invalid1F opt) := (defaultLen_cmdByte opt 0x1F#5).symm

end Sys2Proof.Laws
end

