-- ==== Sys2Proof/Laws/Ports.lean ====
section
/-! SUPPORT. The bus operations and host operations as atomic steps: what the frame of a step adds to its
body (00_scope.md R12, 60_exceptions.md R310), and what each port body can do. -/

namespace Sys2Proof.Machine

/-! ### The frame of a step -/

@[simp] theorem atomically_fdc (body : State → State) (s : State) :
    (atomically body s).fdc =
      { (body (openStep s)).fdc with activeReported := ioActive (body (openStep s)) } := by
  simp [atomically]
@[simp] theorem atomically_media (body : State → State) (s : State) :
    (atomically body s).media = (body (openStep s)).media := by simp [atomically]
@[simp] theorem atomically_params (body : State → State) (s : State) :
    (atomically body s).params = (body (openStep s)).params := by simp [atomically]
@[simp] theorem atomically_draws (body : State → State) (s : State) :
    (atomically body s).draws = (body (openStep s)).draws := by simp [atomically]
@[simp] theorem atomically_inputs (body : State → State) (s : State) :
    (atomically body s).inputs = (body (openStep s)).inputs := by simp [atomically]
@[simp] theorem atomically_result (body : State → State) (s : State) :
    (atomically body s).result = (body (openStep s)).result := by simp [atomically]
theorem atomically_events (body : State → State) (s : State) :
    (atomically body s).events =
      (body (openStep s)).events ++
        (if ioActive (body (openStep s)) = (body (openStep s)).fdc.activeReported then []
        else [if ioActive (body (openStep s)) then .ioStarted else .ioStopped]) := by
  simp [atomically]
@[simp] theorem ioActive_atomically (body : State → State) (s : State) :
    ioActive (atomically body s) = ioActive (body (openStep s)) := by
  simp [atomically]

/-- Every step ends settled (R310). -/
theorem atomically_settled (body : State → State) (s : State) : Settled (atomically body s) :=
  activityRule_settled _

/-! ### Port bodies: what never changes -/

@[simp] theorem stubRead_params (s : State) : (stubRead s).params = s.params := by
  rfl
@[simp] theorem dataPortRead_params (s : State) : (dataPortRead s).params = s.params := by
  unfold dataPortRead; repeat' split
  all_goals simp
@[simp] theorem executionRead_params (s : State) : (executionRead s).params = s.params := by
  unfold executionRead; repeat' split
  all_goals simp
@[simp] theorem dataRegisterRead_params (s : State) : (dataRegisterRead s).params = s.params := by
  unfold dataRegisterRead; split <;> simp
@[simp] theorem drqRead_params (s : State) : (drqRead s).params = s.params := by
  rfl
@[simp] theorem irqRead_params (s : State) : (irqRead s).params = s.params := by
  rfl
@[simp] theorem msrRead_params (s : State) : (msrRead s).params = s.params := by
  rfl
@[simp] theorem mediaChangedRead_params (s : State) : (mediaChangedRead s).params = s.params := by
  rfl
@[simp] theorem stubWrite_params (s : State) : (stubWrite s).params = s.params := by
  rfl
@[simp] theorem dataPortWrite_params (v : Byte) (s : State) : (dataPortWrite v s).params = s.params := by
  unfold dataPortWrite; repeat' split
  all_goals simp
@[simp] theorem dorWrite_params (v : Byte) (s : State) : (dorWrite v s).params = s.params := by
  unfold dorWrite; simp only []; split <;> rfl
@[simp] theorem pinResetWrite_params (v : Byte) (s : State) : (pinResetWrite v s).params = s.params := by
  unfold pinResetWrite; repeat' split
  all_goals simp
@[simp] theorem executionWrite_params (v : Byte) (s : State) : (executionWrite v s).params = s.params := by
  unfold executionWrite; repeat' split
  all_goals simp
@[simp] theorem dataRegisterWrite_params (v : Byte) (s : State) : (dataRegisterWrite v s).params = s.params := by
  unfold dataRegisterWrite; split <;> simp
@[simp] theorem speedWrite_params (v : Byte) (s : State) : (speedWrite v s).params = s.params := by
  rfl
@[simp] theorem stubRead_inputs (s : State) : (stubRead s).inputs = s.inputs := by
  rfl
@[simp] theorem dataPortRead_inputs (s : State) : (dataPortRead s).inputs = s.inputs := by
  unfold dataPortRead; repeat' split
  all_goals simp
@[simp] theorem executionRead_inputs (s : State) : (executionRead s).inputs = s.inputs := by
  unfold executionRead; repeat' split
  all_goals simp
@[simp] theorem dataRegisterRead_inputs (s : State) : (dataRegisterRead s).inputs = s.inputs := by
  unfold dataRegisterRead; split <;> simp
@[simp] theorem drqRead_inputs (s : State) : (drqRead s).inputs = s.inputs := by
  rfl
@[simp] theorem irqRead_inputs (s : State) : (irqRead s).inputs = s.inputs := by
  rfl
@[simp] theorem msrRead_inputs (s : State) : (msrRead s).inputs = s.inputs := by
  rfl
@[simp] theorem mediaChangedRead_inputs (s : State) : (mediaChangedRead s).inputs = s.inputs := by
  rfl
@[simp] theorem stubWrite_inputs (s : State) : (stubWrite s).inputs = s.inputs := by
  rfl
@[simp] theorem dataPortWrite_inputs (v : Byte) (s : State) : (dataPortWrite v s).inputs = s.inputs := by
  unfold dataPortWrite; repeat' split
  all_goals simp
@[simp] theorem dorWrite_inputs (v : Byte) (s : State) : (dorWrite v s).inputs = s.inputs := by
  unfold dorWrite; simp only []; split <;> rfl
@[simp] theorem pinResetWrite_inputs (v : Byte) (s : State) : (pinResetWrite v s).inputs = s.inputs := by
  unfold pinResetWrite; repeat' split
  all_goals simp
@[simp] theorem executionWrite_inputs (v : Byte) (s : State) : (executionWrite v s).inputs = s.inputs := by
  unfold executionWrite; repeat' split
  all_goals simp
@[simp] theorem dataRegisterWrite_inputs (v : Byte) (s : State) : (dataRegisterWrite v s).inputs = s.inputs := by
  unfold dataRegisterWrite; split <;> simp
@[simp] theorem speedWrite_inputs (v : Byte) (s : State) : (speedWrite v s).inputs = s.inputs := by
  rfl

/-- A port 5 write draws no free byte. -/
@[simp] theorem dataRegisterWrite_draws (v : Byte) (s : State) :
    (dataRegisterWrite v s).draws = s.draws := by
  unfold dataRegisterWrite executionWrite stubWrite; repeat' split
  all_goals simp

/-- A port 5 write gives the agent no value. -/
@[simp] theorem dataRegisterWrite_result (v : Byte) (s : State) :
    (dataRegisterWrite v s).result = s.result := by
  unfold dataRegisterWrite executionWrite stubWrite; repeat' split
  all_goals simp

/-! ### Sequences -/

@[simp] theorem writeByte_params (s : State) (v : Byte) : (writeByte s v).params = s.params := by
  simp [writeByte]
@[simp] theorem writeByte_inputs (s : State) (v : Byte) : (writeByte s v).inputs = s.inputs := by
  simp [writeByte]
@[simp] theorem writeByte_draws (s : State) (v : Byte) : (writeByte s v).draws = s.draws := by
  simp [writeByte]
@[simp] theorem writeByte_result (s : State) (v : Byte) : (writeByte s v).result = s.result := by
  simp [writeByte]

/-- What a sequence leaves alone: everything a single write does. -/
theorem foldl_writeByte_frame (bs : List Byte) (s : State) :
    (bs.foldl writeByte s).params = s.params ∧ (bs.foldl writeByte s).inputs = s.inputs ∧
      (bs.foldl writeByte s).draws = s.draws ∧ (bs.foldl writeByte s).result = s.result := by
  induction bs generalizing s with
  | nil => exact ⟨rfl, rfl, rfl, rfl⟩
  | cons b bs ih =>
    obtain ⟨h1, h2, h3, h4⟩ := ih (writeByte s b)
    exact ⟨by simp [h1], by simp [h2], by simp [h3], by simp [h4]⟩

@[simp] theorem issue_params (bs : List Byte) (s : State) : (issue bs s).params = s.params :=
  (foldl_writeByte_frame bs (openStep s)).1
@[simp] theorem issue_inputs (bs : List Byte) (s : State) : (issue bs s).inputs = s.inputs :=
  (foldl_writeByte_frame bs (openStep s)).2.1
@[simp] theorem issue_draws (bs : List Byte) (s : State) : (issue bs s).draws = s.draws :=
  (foldl_writeByte_frame bs (openStep s)).2.2.1
@[simp] theorem issue_result (bs : List Byte) (s : State) : (issue bs s).result = .none :=
  (foldl_writeByte_frame bs (openStep s)).2.2.2

/-! ### Host operations -/

@[simp] theorem hostBody_params (op : HostOp) (s : State) : (hostBody op s).params = s.params := by
  cases op <;> simp [hostBody, loadImage, ejectImage]
  split <;> simp
@[simp] theorem hostBody_inputs (op : HostOp) (s : State) : (hostBody op s).inputs = s.inputs := by
  cases op <;> simp [hostBody, loadImage, ejectImage]
  split <;> simp
@[simp] theorem hostBody_draws (op : HostOp) (s : State) : (hostBody op s).draws = s.draws := by
  cases op <;> simp [hostBody, loadImage, ejectImage]
  split <;> simp
end Sys2Proof.Machine
end

