-- ==== Sys2Proof/Laws/Steps.lean ====
section
/-! SUPPORT. What a step of an instruction can do, said once: a command row is its bytes issued to port 5
(30_encoding.md R90, log 4), what an issued command leaves (41_fdc_commands.md R140, R141), how events
are counted (60_exceptions.md R310), and what the decoder's parameter readers take (30_encoding.md
R85). -/

namespace Sys2Proof.Machine

/-- A command row runs by issuing the bytes of its encoding. -/
theorem exec_of_command {i : Instr} {bs : List Byte} (h : encode i = .command bs) (s : State) :
    exec i s = .next (issue bs s) := by
  cases i <;> first | (cases h; done) | (cases h; rfl)

/-- Every instruction answers a next state. -/
theorem exec_next (i : Instr) (s : State) : ∃ t, exec i s = .next t := by
  cases i <;> exact ⟨_, rfl⟩

/-- The activity rule emits activity events only (R310). -/
theorem eventCount_activityRule {e : Event} (h : e ≠ .ioStarted ∧ e ≠ .ioStopped) (s : State) :
    eventCount e (activityRule s) = eventCount e s := by
  simp only [eventCount, activityRule_events, List.count_append]
  split
  · simp
  · split <;> cases e <;> simp_all

/-- The first byte of a longer command emits activity events only (R310). -/
theorem count_firstByteEvents {e : Event} (h : e ≠ .ioStarted ∧ e ≠ .ioStopped) (s : State) :
    (firstByteEvents s).count e = 0 := by
  unfold firstByteEvents
  split
  · rfl
  · split <;> cases e <;> simp_all

/-- What a command issued from Idle phase leaves, from what its handler leaves (R140, R141). -/
theorem issue_leaves {s : State} {b : Byte} {ps : List Byte} {e : TableEntry} {f : FdcState}
    (hi : s.fdc.phase = .idle) (he : entryOf s.params b = e) (hc : cmdCount e = ps.length + 1)
    (hf : (handle e.handler (handlerState b ps s)).fdc =
      { f with
        cmdBuf := storedBytes s.fdc.cmdBuf (b :: ps), lastCmd := b, idx := 0,
        activeReported := if ps = [] then s.fdc.activeReported else s.media.present }) :
    CommandLeaves (b :: ps) f s (issue (b :: ps) s) := by
  subst he
  refine ⟨?_, by simp, by simp, by simp, by simp⟩
  rw [issue_eq hi hc]
  simp [hf]

/-- A command but Format Track leaves the media store as it is (R176). -/
theorem issue_media {s : State} {b : Byte} {ps : List Byte} {e : TableEntry}
    (hi : s.fdc.phase = .idle) (he : entryOf s.params b = e) (hc : cmdCount e = ps.length + 1)
    (h : e.handler ≠ .formatTrack) : (issue (b :: ps) s).media = s.media := by
  subst he
  rw [issue_eq hi hc]
  simp [handle_media h]

/-- The events of a command are those of its handler, but for activity events. -/
theorem eventCount_issue {s : State} {b : Byte} {ps : List Byte} {e : TableEntry} {ev : Event}
    (hi : s.fdc.phase = .idle) (he : entryOf s.params b = e) (hc : cmdCount e = ps.length + 1)
    (h : ev ≠ .ioStarted ∧ ev ≠ .ioStopped) :
    eventCount ev (issue (b :: ps) s) = eventCount ev (handle e.handler (handlerState b ps s)) := by
  subst he
  rw [issue_eq hi hc, eventCount_activityRule h]

/-- What a handler keeps (R306, R34, R36, R49, R51): dor and speed; nonDma but for Specify; pcn but for
Seek and Recalibrate; a latch that is set but for Sense Interrupt Status. -/
theorem handle_keeps (h : Handler) (s : State) :
    (handle h s).fdc.dor = s.fdc.dor ∧ (handle h s).fdc.speed = s.fdc.speed ∧
    (h ≠ .specify → (handle h s).fdc.nonDma = s.fdc.nonDma) ∧
    (h ≠ .seek → h ≠ .recalibrate → (handle h s).fdc.pcn = s.fdc.pcn) ∧
    (h ≠ .senseInterruptStatus → s.fdc.irq = true → (handle h s).fdc.irq = true) := by
  cases h
  case readId =>
    cases hp : s.media.present
    · simp [handle, handleReadId_fdc_absent hp]
    · simp [handle, handleReadId_fdc_present hp]
  all_goals
    simp [handle, handleReadTrack, handleReadDeletedData, handleWriteDeletedData, handleScanEqual,
      handleScanLowOrEqual, handleScanHighOrEqual, handleSpecify_fdc,
      handleSenseInterruptStatus_fdc, handleSenseDriveStatus_fdc, handleRecalibrate_fdc,
      handleSeek_fdc, handleReadData_fdc, handleWriteData_fdc, handleFormatTrack_fdc,
      handleStub_fdc, handleInvalid_fdc, openWindow_eq]

/-- The command byte once a parameter byte has been stored (R25, R111). -/
theorem opCmd_receiveParameter (d : Byte) (s : State) :
    opCmd (receiveParameter d s).fdc = if s.fdc.idx = 0 then d else s.fdc.cmdBuf[0] := by
  by_cases h : s.fdc.idx = 0 <;> simp [opCmd, h]

/-- R25, R26: an entry of a well-formed table fits the buffers. -/
theorem entryOf_wf {p : Params} (h : CommandTable.wf p.table = true) (b : Byte) :
    (entryOf p b).cmdLen ≤ 10 ∧ (entryOf p b).resLen ≤ 8 := by
  unfold CommandTable.wf at h
  rw [List.all_eq_true] at h
  have := h (entryOf p b) (by simp [entryOf, Vector.getElem_mem])
  simpa [TableEntry.wf] using this

end Sys2Proof.Machine

namespace Sys2Proof

theorem take1_ok {b : Byte} {ps rest : List Byte} {f : Byte → Instr} {i : Instr}
    (h : take1 b ps f = .ok (i, rest)) : ∃ p1, ps = p1 :: rest ∧ i = f p1 := by
  unfold take1 at h; split at h
  · cases h; exact ⟨_, rfl, rfl⟩
  · cases h

theorem take2_ok {b : Byte} {ps rest : List Byte} {f : Byte → Byte → Instr} {i : Instr}
    (h : take2 b ps f = .ok (i, rest)) : ∃ p1 p2, ps = p1 :: p2 :: rest ∧ i = f p1 p2 := by
  unfold take2 at h; split at h
  · cases h; exact ⟨_, _, rfl, rfl⟩
  · cases h

theorem take5_ok {b : Byte} {ps rest : List Byte} {f : Byte → Byte → Byte → Byte → Byte → Instr}
    {i : Instr} (h : take5 b ps f = .ok (i, rest)) :
    ∃ p1 p2 p3 p4 p5, ps = p1 :: p2 :: p3 :: p4 :: p5 :: rest ∧ i = f p1 p2 p3 p4 p5 := by
  unfold take5 at h; split at h
  · cases h; exact ⟨_, _, _, _, _, rfl, rfl⟩
  · cases h

theorem take8_ok {b : Byte} {ps rest : List Byte}
    {f : Byte → Byte → Byte → Byte → Byte → Byte → Byte → Byte → Instr} {i : Instr}
    (h : take8 b ps f = .ok (i, rest)) :
    ∃ p1 p2 p3 p4 p5 p6 p7 p8, ps = p1 :: p2 :: p3 :: p4 :: p5 :: p6 :: p7 :: p8 :: rest ∧
      i = f p1 p2 p3 p4 p5 p6 p7 p8 := by
  unfold take8 at h; split at h
  · cases h; exact ⟨_, _, _, _, _, _, _, _, rfl, rfl⟩
  · cases h

end Sys2Proof
end

