-- ==== Sys2Proof/Tests/Slice0.lean ====
section
/-! SUPPORT. The model's own tests. Expected results are the vectors of 95_test_vectors.md (V-…, P…) or
are worked out from the rule named; words are written out from 30_encoding.md R81, R82 and R85. The
witnesses show states and operands that meet the hypotheses of the statements together. -/

open Sys2Proof Sys2Proof.Machine

namespace Sys2Proof.Tests

/-! ### Small states -/

/-- The state a step answers (every step answers one, R300). -/
def after (o : Host.Outcome State Fault Refusal) : State :=
  match o with
  | .next t => t
  | .fault _ => State.reset
  | .refused _ => State.reset

/-- S1 of 95_test_vectors.md: power-on state with a medium, "changed" cleared. -/
def withImage (f : ImageFile) : State :=
  { State.reset with media := { present := true, img := Memory.ofFile f, changed := false } }

/-- A four-byte image 0xAA 0x00 0xBB 0x00. -/
def tiny : ImageFile := { size := 4, bytes := [(0, 0xAA), (2, 0xBB)] }

/-- A window of `n` bytes at offset `off` in a phase, with a reset FDC otherwise and 7 result bytes. -/
def window (s : State) (phase : Phase) (dir : XferDir) (n : Nat) (off : Int) : State :=
  { s with fdc := { s.fdc with
      phase := phase, xferDir := dir, pending := n, off := off, resLen := 7,
      activeReported := s.media.present } }

/-- Result phase with the ST0 and cylinder bytes of V-F05, at result byte `i`, latch set. -/
def resultAt (i : Nat) : State :=
  { State.reset with fdc := { State.reset.fdc with
      phase := .result, resLen := 2, idx := i, irq := true,
      resBuf := (State.reset.fdc.resBuf.set 0 0x24).set 1 0x50 } }

/-- Command phase after `OUT 5, b`. -/
def commandPhase (b : Byte) : State :=
  { State.reset with fdc := { State.reset.fdc with
      phase := .command, idx := 1, cmdBuf := State.reset.fdc.cmdBuf.set 0 b } }

/-- A state with these requests pending. -/
def asking (s : State) (rs : List Request) : State := { s with inputs := rs }

/-- The latch set, in Idle phase (V-I1's start). -/
def latched : State := { State.reset with fdc := { State.reset.fdc with irq := true } }

/-- DMA mode (V-F01's end). -/
def dmaMode : State := { State.reset with fdc := { State.reset.fdc with nonDma := false } }

/-! ### Well-formedness: a check and an ill-formed term that it refuses -/

theorem test_wf_read_word : Instr.wf (.in0 0) = true ∧ Instr.wf (.in0 1) = false ∧
    Instr.wf (.in1 1) = false ∧ Instr.wf (.in2 1) = false ∧ Instr.wf (.in3 1) = false ∧
    Instr.wf (.in4 1) = false ∧ Instr.wf (.in5 1) = false ∧ Instr.wf (.in6 1) = false ∧
    Instr.wf (.in7 1) = false := by decide

theorem test_wf_table_entry : TableEntry.wf ⟨10, 8, .seek⟩ = true ∧
    TableEntry.wf ⟨11, 0, .seek⟩ = false ∧ TableEntry.wf ⟨1, 9, .seek⟩ = false := by decide

theorem test_wf_table : CommandTable.wf Config.defaultTable = true ∧
    CommandTable.wf (Config.defaultTable.set 3 ⟨11, 0, .specify⟩) = false := by decide

theorem test_wf_image : ImageFile.wf tiny = true ∧ ImageFile.wf ⟨4, [(4, 1)]⟩ = false := by decide

/-- A listed zero, a listed offset past the end, and offsets out of order are no canonical form. -/
theorem test_wf_memory : Memory.wf ⟨4, [(0, 1), (3, 2)]⟩ = true ∧ Memory.wf ⟨4, [(0, 0)]⟩ = false ∧
    Memory.wf ⟨4, [(4, 1)]⟩ = false ∧ Memory.wf ⟨4, [(2, 1), (1, 1)]⟩ = false := by decide

/-! ### Decoding: every constructor's word, written out from R81, R82, R85 -/

theorem test_decode_reads :
    decode (.bus 0b0_000_00000000) = .ok (.in0 0, []) ∧
    decode (.bus 0b0_001_00000000) = .ok (.in1 0, []) ∧
    decode (.bus 0b0_010_00000000) = .ok (.in2 0, []) ∧
    decode (.bus 0b0_011_00000000) = .ok (.in3 0, []) ∧
    decode (.bus 0b0_100_00000000) = .ok (.in4 0, []) ∧
    decode (.bus 0b0_101_00000000) = .ok (.in5 0, []) ∧
    decode (.bus 0b0_110_00000000) = .ok (.in6 0, []) ∧
    decode (.bus 0b0_111_00000000) = .ok (.in7 0, []) := by decide

theorem test_decode_writes :
    decode (.bus 0b1_000_10100101) = .ok (.out0 0xA5, []) ∧
    decode (.bus 0b1_001_10100101) = .ok (.out1 0xA5, []) ∧
    decode (.bus 0b1_010_10100101) = .ok (.out2 0xA5, []) ∧
    decode (.bus 0b1_011_10100101) = .ok (.out3 0xA5, []) ∧
    decode (.bus 0b1_100_10100101) = .ok (.out4 0xA5, []) ∧
    decode (.bus 0b1_101_10100101) = .ok (.out5 0xA5, []) ∧
    decode (.bus 0b1_110_10100101) = .ok (.out6 0xA5, []) ∧
    decode (.bus 0b1_111_10100101) = .ok (.out7 0xA5, []) := by decide

theorem test_decode_short_commands :
    decode (.command [0b000_00011, 0xDF, 0x02]) = .ok (.specify 0 0xDF 0x02, []) ∧
    decode (.command [0b000_00100, 0x01]) = .ok (.senseDriveStatus 0 0x01, []) ∧
    decode (.command [0b000_00111, 0x02]) = .ok (.recalibrate 0 0x02, []) ∧
    decode (.command [0b000_01000]) = .ok (.senseInterruptStatus 0, []) ∧
    decode (.command [0b000_01010, 0x05]) = .ok (.readId 0 0x05, []) ∧
    decode (.command [0b000_01101, 0, 2, 0x12, 0x1B, 0xE5]) =
      .ok (.formatTrack 0 0 2 0x12 0x1B 0xE5, []) ∧
    decode (.command [0b101_01111, 0x04, 0x50]) = .ok (.seek 5 0x04 0x50, []) := by decide

theorem test_decode_data_commands :
    decode (.command [0b000_00010, 1, 2, 3, 4, 5, 6, 7, 8]) =
      .ok (.readTrack 0 1 2 3 4 5 6 7 8, []) ∧
    decode (.command [0b000_00101, 1, 2, 3, 4, 5, 6, 7, 8]) =
      .ok (.writeData 0 1 2 3 4 5 6 7 8, []) ∧
    decode (.command [0b111_00110, 1, 2, 3, 4, 5, 6, 7, 8]) =
      .ok (.readData 7 1 2 3 4 5 6 7 8, []) ∧
    decode (.command [0b000_01001, 1, 2, 3, 4, 5, 6, 7, 8]) =
      .ok (.writeDeletedData 0 1 2 3 4 5 6 7 8, []) ∧
    decode (.command [0b000_01100, 1, 2, 3, 4, 5, 6, 7, 8]) =
      .ok (.readDeletedData 0 1 2 3 4 5 6 7 8, []) ∧
    decode (.command [0b000_10001, 1, 2, 3, 4, 5, 6, 7, 8]) =
      .ok (.scanEqual 0 1 2 3 4 5 6 7 8, []) ∧
    decode (.command [0b000_11001, 1, 2, 3, 4, 5, 6, 7, 8]) =
      .ok (.scanLowOrEqual 0 1 2 3 4 5 6 7 8, []) ∧
    decode (.command [0b000_11101, 1, 2, 3, 4, 5, 6, 7, 8]) =
      .ok (.scanHighOrEqual 0 1 2 3 4 5 6 7 8, []) := by decide

theorem test_decode_invalid_low :
    decode (.command [0b000_00000]) = .ok (.invalid00 0, []) ∧
    decode (.command [0b001_00001]) = .ok (.invalid01 1, []) ∧
    decode (.command [0b000_01011]) = .ok (.invalid0B 0, []) ∧
    decode (.command [0b000_01110]) = .ok (.invalid0E 0, []) ∧
    decode (.command [0b000_10000]) = .ok (.invalid10 0, []) ∧
    decode (.command [0b000_10010]) = .ok (.invalid12 0, []) ∧
    decode (.command [0b000_10011]) = .ok (.invalid13 0, []) ∧
    decode (.command [0b000_10100]) = .ok (.invalid14 0, []) := by decide

theorem test_decode_invalid_high :
    decode (.command [0b000_10101]) = .ok (.invalid15 0, []) ∧
    decode (.command [0b000_10110]) = .ok (.invalid16 0, []) ∧
    decode (.command [0b000_10111]) = .ok (.invalid17 0, []) ∧
    decode (.command [0b000_11000]) = .ok (.invalid18 0, []) ∧
    decode (.command [0b000_11010]) = .ok (.invalid1A 0, []) ∧
    decode (.command [0b000_11011]) = .ok (.invalid1B 0, []) ∧
    decode (.command [0b000_11100]) = .ok (.invalid1C 0, []) ∧
    decode (.command [0b000_11110]) = .ok (.invalid1E 0, []) ∧
    decode (.command [0b111_11111]) = .ok (.invalid1F 7, []) := by decide

/-- R83, R89: too few bytes are refused by name; bytes after the first command are left standing. -/
theorem test_decode_lengths :
    decode (.command []) = .error .empty ∧
    decode (.command [0x06, 0, 0, 0, 1, 2, 0x12, 0x1B]) = .error (.truncated 0x06) ∧
    decode (.command [0x08, 0x04, 0x00]) = .ok (.senseInterruptStatus 0, [0x04, 0x00]) := by decide

theorem test_encode : encode (.out5 0x06) = .bus 0xD06 ∧ encode (.in3 0) = .bus 0x300 ∧
    encode (.seek 0 0x04 0x50) = .command [0x0F, 0x04, 0x50] := by decide

/-- Table words: a command byte with its parameters 0, and a bus word in 16 bits (log 15). -/
theorem test_decodeTableWord :
    decodeTableWord 8 0xE6 = some (.readData 7 0 0 0 0 0 0 0 0) ∧
    decodeTableWord 16 0xD06 = some (.out5 0x06) ∧ decodeTableWord 16 0x1000 = none ∧
    decodeTableWord 8 0x100 = none := by decide

/-- V-P04 as the first step after reset, through `withFetchWord`. -/
theorem test_placed_word_runs :
    (after (step (State.reset.withFetchWord 16 0xD06))).fdc.phase = .command ∧
    (after (step (State.reset.withFetchWord 16 0xD06))).inputs = [] := by decide

/-! ### Ports (2.1) -/

/-- V-P01, V-P02. -/
theorem test_status_reads_at_reset :
    (after (exec (.in4 0) State.reset)).result = .byte 0x80 ∧
    (after (exec (.in2 0) State.reset)).result = .byte 0x00 ∧
    (after (exec (.in3 0) State.reset)).result = .byte 0x00 ∧
    (after (exec (.in7 0) State.reset)).result = .byte 0x00 := by decide

/-- V-P03: the bytes are free, and nothing else changes. -/
theorem test_free_reads :
    (after (exec (.in5 0) State.reset)).result = .byte (Config.openBus 0) ∧
    (after (exec (.in6 0) State.reset)).fdc = State.reset.fdc ∧
    (after (exec (.in0 0) State.reset)).draws = 1 := ⟨rfl, by decide, by decide⟩

/-- V-P04, V-P05. -/
theorem test_command_byte :
    (after (exec (.out5 0x06) State.reset)).fdc.idx = 1 ∧
    (after (exec (.out5 0x06) State.reset)).events = [] ∧
    (after (exec (.out5 0x06) (withImage tiny))).events = [.ioStarted] ∧
    (after (exec (.in4 0) (commandPhase 0x06))).result = .byte 0x90 := by decide

/-- V-P06, V-P07. -/
theorem test_dor :
    (after (exec (.out2 0x1C) (commandPhase 0x06))).fdc.phase = .command ∧
    (after (exec (.out2 0x1C) (commandPhase 0x06))).fdc.dor = 0x1C ∧
    (after (exec (.out2 0x08) (commandPhase 0x06))).fdc.phase = .idle ∧
    (after (exec (.out2 0x08) (commandPhase 0x06))).fdc.cmdBuf = Vector.replicate 10 0 := by decide

/-- V-P08, V-P09, V-I4. -/
theorem test_pin_reset :
    (after (exec (.out4 0x7F) (commandPhase 0x06))).fdc = (commandPhase 0x06).fdc ∧
    (after (exec (.out4 0x80) (commandPhase 0x06))).fdc.phase = .idle ∧
    (after (exec (.out4 0x80) latched)).fdc.irq = true := by decide

/-- V-P10, V-P11. -/
theorem test_speed_and_nothing :
    (after (exec (.out7 0xFE) State.reset)).fdc.speed = 2 ∧
    (after (exec (.out3 0xFF) State.reset)).fdc = State.reset.fdc ∧
    (after (exec (.out6 0x12) State.reset)).fdc = State.reset.fdc := by decide

/-- V-P12: the read reports the latch and clears it. -/
theorem test_media_changed :
    (after (exec (.in7 0) (hostStep (.load tiny) State.reset))).result = .byte 0x80 ∧
    (after (exec (.in7 0) (hostStep (.load tiny) State.reset))).media.changed = false := by decide

/-- V-P13 to V-P16. -/
theorem test_port5_out_of_turn :
    (after (exec (.out5 0x06) (resultAt 1))).fdc.idx = 1 ∧
    (after (exec (.out5 0x33) (window State.reset .execution .toHost 512 0))).fdc.pending = 512 ∧
    (after (exec (.in5 0) (window State.reset .execution .fromHost 512 0))).fdc.pending = 512 ∧
    (after (exec (.in2 0) (window State.reset .execution .toHost 512 0))).result = .byte 0x80 := by
  decide

/-- V-P17, and the last byte of a window in Execution phase (R120, R118). -/
theorem test_window_read :
    (after (exec (.in0 0) (window (withImage tiny) .execution .toHost 512 0))).result = .byte 0xAA ∧
    (after (exec (.in0 0) (window (withImage tiny) .execution .toHost 512 0))).fdc.off = 1 ∧
    (after (exec (.in5 0) (window (withImage tiny) .execution .toHost 1 2))).result = .byte 0xBB ∧
    (after (exec (.in5 0) (window (withImage tiny) .execution .toHost 1 2))).fdc.phase = .result := by
  decide

/-- P4 step 6: in Idle phase the last byte ends the window and no phase (no ExecDone). -/
theorem test_window_read_dma :
    (after (exec (.in1 0) (window (withImage tiny) .idle .toHost 1 1))).result = .byte 0x00 ∧
    (after (exec (.in1 0) (window (withImage tiny) .idle .toHost 1 1))).fdc.phase = .idle ∧
    (after (exec (.in1 0) (window (withImage tiny) .idle .toHost 1 1))).events = [.ioStopped] := by
  decide

/-- R63, R120: a byte of a window from the host; the last one flushes (P3 step 3). -/
theorem test_window_write :
    (after (exec (.out0 0x5A) (window (withImage tiny) .execution .fromHost 2 1))).media.img =
      ⟨4, [(0, 0xAA), (1, 0x5A), (2, 0xBB)]⟩ ∧
    (after (exec (.out1 0x00) (window (withImage tiny) .execution .fromHost 1 2))).media.img =
      ⟨4, [(0, 0xAA)]⟩ ∧
    (after (exec (.out5 0x5A) (window (withImage tiny) .execution .fromHost 1 3))).events =
      [.flush, .irqRise] := by decide

/-- V-F16, V-F17: a negative offset is dropped; with no medium "changed" is set. -/
theorem test_window_write_dropped :
    (after (exec (.out5 0x77) (window (withImage tiny) .execution .fromHost 2 (-1)))).media.img =
      ⟨4, [(0, 0xAA), (2, 0xBB)]⟩ ∧
    (after (exec (.out5 0x77) (window State.reset .execution .fromHost 1 0))).media.changed = true ∧
    (after (exec (.out5 0x77) (window State.reset .execution .fromHost 1 0))).events = [.irqRise] := by
  decide

/-- R115, R116 on V-F05: the two result bytes; the last one clears the latch. -/
theorem test_result_bytes :
    (after (exec (.in5 0) (resultAt 0))).result = .byte 0x24 ∧
    (after (exec (.in5 0) (resultAt 0))).fdc.irq = true ∧
    (after (exec (.in5 0) (resultAt 1))).result = .byte 0x50 ∧
    (after (exec (.in5 0) (resultAt 1))).fdc.phase = .idle ∧
    (after (exec (.in5 0) (resultAt 1))).fdc.irq = false := by decide

/-- V-F23, V-F24: the first access of a stub's Execution phase ends it. -/
theorem test_stub_access :
    (after (exec (.in5 0) (window State.reset .execution .toHost 0 0))).fdc.phase = .result ∧
    (after (exec (.out0 0x55) (window State.reset .execution .fromHost 0 0))).fdc.phase = .result ∧
    (after (exec (.out0 0x55) (window State.reset .execution .fromHost 0 0))).fdc.irq = true := by decide

/-! ### Commands (2.2) -/

/-- V-F01, V-F02, V-I6. -/
theorem test_specify :
    (after (exec (.specify 0 0xDF 0x02) State.reset)).fdc.nonDma = false ∧
    (after (exec (.specify 0 0xDF 0x03) dmaMode)).fdc.nonDma = true ∧
    (after (exec (.specify 0 0xDF 0x02) (withImage tiny))).events = [.ioStarted, .ioStopped] := by decide

/-- V-F05 from V-F04's end. -/
theorem test_sense_interrupt_status :
    (after (exec (.senseInterruptStatus 0)
      { latched with fdc := { latched.fdc with st0 := 0x24, pcn := 0x50 } })).fdc.irq = false ∧
    (after (exec (.senseInterruptStatus 0)
      { latched with fdc := { latched.fdc with st0 := 0x24, pcn := 0x50 } })).fdc.resBuf.toList.take 2 =
      [0x24, 0x50] := by decide

/-- V-F04, V-I1. -/
theorem test_seek :
    (after (exec (.seek 0 0x04 0x50) State.reset)).fdc.pcn = 0x50 ∧
    (after (exec (.seek 0 0x04 0x50) State.reset)).fdc.st0 = 0x24 ∧
    (after (exec (.seek 0 0x04 0x50) State.reset)).events = [.irqRise] ∧
    (after (exec (.seek 0 0 2) latched)).events = [] := by decide

/-- V-F06, V-F07. -/
theorem test_recalibrate :
    (after (exec (.recalibrate 0 0x02) State.reset)).fdc.st0 = 0x22 ∧
    (after (exec (.recalibrate 0 0x07) State.reset)).fdc.st0 = 0x23 ∧
    (after (exec (.recalibrate 0 0x07) State.reset)).fdc.phase = .idle := by decide

/-- V-F08, V-F09, V-F10. -/
theorem test_sense_drive_status :
    (after (exec (.senseDriveStatus 0 0x01) State.reset)).fdc.st3 = 0x19 ∧
    (after (exec (.senseDriveStatus 0 0x04) { withImage tiny with
      fdc := { State.reset.fdc with pcn := 0x50 } })).fdc.st3 = 0x2C ∧
    (after (exec (.senseDriveStatus 0 0x00) (withImage tiny))).fdc.st3 = 0x38 := by decide

/-- V-F11, V-F29. -/
theorem test_read_data :
    (after (exec (.readData 7 0 0 0 1 2 18 0x1B 0xFF) (withImage tiny))).fdc =
      { State.reset.fdc with
        phase := .execution, pending := 512, xferDir := .toHost, off := 0, lba := 0,
        curC := 0, curH := 0, curR := 2, curN := 2, irq := true, resLen := 7, lastCmd := 0xE6,
        activeReported := true,
        cmdBuf := ⟨#[0xE6, 0, 0, 0, 1, 2, 18, 0x1B, 0xFF, 0], rfl⟩,
        resBuf := ⟨#[0, 0, 0, 0, 0, 2, 2, 0], rfl⟩ } := by decide

/-- V-F13, V-F14: the LBA is clamped; DMA mode goes to Result (P4 step 2). -/
theorem test_read_data_clamp :
    (after (exec (.readData 0 0 80 0 1 2 18 0x1B 0xFF) State.reset)).fdc.lba = 2879 ∧
    (after (exec (.readData 0 0 0 0 0 2 18 0x1B 0xFF) State.reset)).fdc.lba = 0 ∧
    (after (exec (.readData 0 0 0 0 2 2 18 0x1B 0xFF) dmaMode)).fdc.phase = .result := by decide

/-- V-F15, V-F16. -/
theorem test_write_data :
    (after (exec (.writeData 0 0 0 1 18 2 18 0x1B 0xFF) State.reset)).fdc.off = 17920 ∧
    (after (exec (.writeData 0 0 0 1 18 2 18 0x1B 0xFF) State.reset)).fdc.resBuf.toList =
      [0, 0, 0, 1, 0, 1, 2, 0] ∧
    (after (exec (.writeData 0 0 0 0 0 2 18 0x1B 0xFF) State.reset)).fdc.off = -512 := by decide

/-- V-F18, V-F19. -/
theorem test_read_id :
    (after (exec (.readId 0 0) State.reset)).fdc.phase = .idle ∧
    (after (exec (.readId 0 0) State.reset)).fdc.irq = false ∧
    (after (exec (.readId 0 5) (withImage tiny))).fdc.resBuf.toList = [5, 0, 0, 0, 0, 1, 2, 0] ∧
    (after (exec (.readId 0 5) (withImage tiny))).fdc.phase = .result := by decide

/-- V-F22, and R162 on the tiny image: its four bytes hold the pattern. -/
theorem test_format_track :
    (after (exec (.formatTrack 0 0 3 0x12 0x1B 0xF6) State.reset)).media.changed = true ∧
    (after (exec (.formatTrack 0 0 3 0x12 0x1B 0xF6) State.reset)).fdc.resBuf.toList =
      [0, 0, 0, 0, 0, 1, 3, 0] ∧
    (after (exec (.formatTrack 0 0 2 0x12 0x1B 0xE5) (withImage tiny))).media.img.toBytes =
      [0xE5, 0xE5, 0xE5, 0xE5] := by decide +kernel

/-- V-F23, V-F24, V-F25. -/
theorem test_stubs :
    (after (exec (.readTrack 0 0 3 1 5 2 18 0x1B 0xFF) State.reset)).fdc.phase = .execution ∧
    (after (exec (.readTrack 0 0 3 1 5 2 18 0x1B 0xFF) State.reset)).fdc.resBuf.toList =
      [0, 0, 0, 3, 1, 5, 2, 0] ∧
    (after (exec (.writeDeletedData 0 0 0 0 1 2 18 0x1B 0xFF) State.reset)).fdc.xferDir = .fromHost ∧
    (after (exec (.readDeletedData 0 0 0 0 1 2 18 0x1B 0xFF) dmaMode)).fdc.phase = .result := by decide

/-- V-F26. -/
theorem test_scans :
    (after (exec (.scanEqual 0 6 3 1 5 2 18 0x1B 0xFF) dmaMode)).fdc.resBuf.toList =
      [6, 0, 0, 3, 1, 5, 2, 0] ∧
    (after (exec (.scanLowOrEqual 0 6 3 1 5 2 18 0x1B 0xFF) dmaMode)).fdc.phase = .result ∧
    (after (exec (.scanHighOrEqual 0 6 3 1 5 2 18 0x1B 0xFF) dmaMode)).fdc.xferDir = .fromHost := by
  decide

/-- V-F27, V-F28. -/
theorem test_invalid :
    ∀ i ∈ [Instr.invalid00 0, .invalid01 0, .invalid0B 0, .invalid0E 0, .invalid10 0, .invalid12 0,
      .invalid13 0, .invalid14 0, .invalid15 0, .invalid16 0, .invalid17 0, .invalid18 0, .invalid1A 0,
      .invalid1B 0, .invalid1C 0, .invalid1E 0, .invalid1F 0],
      (after (exec i latched)).fdc.st0 = 0x80 ∧ (after (exec i latched)).fdc.resLen = 1 ∧
      (after (exec i latched)).fdc.phase = .result ∧ (after (exec i latched)).fdc.irq = true := by decide

/-- The table of R151. -/
theorem test_advance :
    advance 0 0 1 = (0, 0, 2) ∧ advance 0 0 18 = (0, 1, 1) ∧ advance 0 1 18 = (1, 0, 1) ∧
    advance 79 1 18 = (0, 0, 1) ∧ advance 0 0 0 = (0, 0, 1) ∧ advance 5 0 30 = (5, 1, 1) ∧
    advance 5 1 30 = (6, 0, 1) ∧ advance 5 5 18 = (6, 0, 1) ∧ advance 255 1 18 = (0, 0, 1) ∧
    advance 100 0 1 = (100, 0, 2) ∧ advance 0 0 255 = (0, 1, 1) := by decide

/-- V-M1, V-M2, V-M3, W1. -/
theorem test_lba :
    lbaOf 0 0 0 = -1 ∧ lbaOf 255 255 255 = 14024 ∧ lbaOf 80 0 1 = 2880 ∧ lbaOf 79 1 18 = 2879 ∧
    clampRead (-1) = 0 ∧ clampRead 14024 = 2879 := by decide

/-- V-M4, V-M5, V-M8, V-M9 on the tiny image. -/
theorem test_media_reads :
    memReadByte 4 (withImage tiny) = 0 ∧ (memReadState (withImage tiny)).media.changed = false ∧
    (memReadState State.reset).media.changed = true ∧
    rangeRead (withImage tiny).media 1 3 = some [0, 0xBB, 0] ∧
    rangeRead (withImage tiny).media 2 3 = none ∧ rangeRead State.reset.media 0 1 = none := by decide

/-! ### Host operations (2.4) -/

/-- V-I5, V-I8. -/
theorem test_hard_reset :
    (hostStep .hardReset latched).fdc.irq = false ∧ (hostStep .hardReset latched).events = [] ∧
    (hostStep .hardReset (window (withImage tiny) .execution .toHost 512 0)).events = [.ioStopped] := by
  decide

/-- V-I7, W6. -/
theorem test_eject :
    (hostStep .eject (window (withImage tiny) .execution .toHost 512 0)).events =
      [.mediaEjected, .ioStopped] ∧
    (hostStep .eject (window (withImage tiny) .execution .toHost 512 0)).media.changed = true ∧
    (hostStep .eject State.reset).result = .bool false ∧
    (hostStep .eject State.reset).media.changed = false := by decide

/-- V-I10, W6: a Load moves `off` alone of the FDC; a failed one moves nothing. -/
theorem test_load :
    (hostStep (.load tiny) (window (withImage tiny) .execution .toHost 412 100)).fdc.off = 0 ∧
    (hostStep (.load tiny) (window (withImage tiny) .execution .toHost 412 100)).fdc.pending = 412 ∧
    (hostStep .loadFailed (withImage tiny)).media = (withImage tiny).media := by decide

/-- W7. -/
theorem test_mutation_gate :
    (hostStep .mutationGate (window (withImage tiny) .execution .toHost 512 0)).result = .bool false ∧
    (hostStep .mutationGate (withImage tiny)).result = .bool true := by decide

/-! ### FAT12 (2.5 to 2.7) -/

/-- V-C1, V-C2, V-C3, V-C4. -/
theorem test_readEntry :
    (List.range 5).map (readEntry [0xF0, 0xFF, 0xFF, 0x03, 0x40, 0x00]) =
      [some 0xFF0, some 0xFFF, some 0x003, some 0x004, none] ∧
    readEntry [0, 0, 0, 0, 0] 3 = none ∧ readEntry [0, 0] 0 = some 0 ∧ readEntry [0, 0] 1 = none := by
  decide

/-- V-C5 to V-C9. -/
theorem test_writeEntry :
    writeEntry [0, 0, 0] 0 0xABC = some [0xBC, 0x0A, 0x00] ∧
    writeEntry [0xBC, 0x0A, 0x00] 1 0x123 = some [0xBC, 0x3A, 0x12] ∧
    writeEntry [0x00, 0x05, 0x00] 1 0xFFF = some [0x00, 0xF5, 0xFF] ∧
    writeEntry [0x00, 0xA0, 0x00] 0 0x123 = some [0x23, 0xA1, 0x00] ∧
    writeEntry [0, 0, 0] 2 1 = none ∧ writeEntry [0, 0, 0] 0 0x1ABC = some [0xBC, 0x0A, 0x00] := by
  decide

/-- The derived fields of R204: geometry G. -/
theorem test_geometry :
    deriveGeometry 512 1 1 2 224 9 2880 =
      { bps := 512, spc := 1, rsv := 1, nfat := 2, rootEnt := 224, spf := 9, rootDirSectors := 14,
        fatStart := 512, rootStart := 9728, dataStart := 16896, bytesPerCluster := 512,
        totalClusters := 2847 } := by decide

/-- A small volume: 2 clusters of 1 byte at offsets 2 and 3 of the tiny image. -/
def smallGeometry : Geometry :=
  { bps := 1, spc := 1, rsv := 0, nfat := 1, rootEnt := 0, spf := 1, rootDirSectors := 0,
    fatStart := 0, rootStart := 1, dataStart := 2, bytesPerCluster := 1, totalClusters := 2 }

/-- R231: a chain of two clusters; a start out of range; a loop stops after totalClusters + 2 steps
(V-W1, V-W3, V-W4 in small); an end past the image fails (V-W9). -/
theorem test_readChain :
    readChain (withImage tiny).media smallGeometry [0, 0, 0, 0x03, 0xF0, 0xFF] 2 = some [0xBB, 0x00] ∧
    readChain (withImage tiny).media smallGeometry [0, 0, 0, 0, 0, 0] 0 = some [] ∧
    readChain (withImage tiny).media smallGeometry [0, 0, 0, 0x02, 0, 0] 2 =
      some [0xBB, 0xBB, 0xBB, 0xBB] ∧
    readChain (withImage tiny).media { smallGeometry with dataStart := 4 } [0, 0, 0, 0, 0, 0] 2 = none := by
  decide

/-- V-W10, V-W11, V-W12 in small. -/
theorem test_allocate :
    allocate smallGeometry [0, 0, 0, 0, 0, 0] 2 = some [2, 3] ∧
    allocate smallGeometry [0, 0, 0, 0xFF, 0x0F, 0] 1 = some [3] ∧
    allocate smallGeometry [0, 0, 0, 0, 0, 0] 0 = some [] ∧
    allocate smallGeometry [0, 0, 0, 0, 0, 0] 3 = none ∧
    freeClusters smallGeometry [0, 0, 0, 0xFF, 0x0F, 0] = 1 := by decide

/-- V-D8, V-D9, V-D10, R263's example. -/
theorem test_timestamp :
    timestamp 0x6000 0x5A21 = some "2025-01-01 12:00:00".toList ∧
    timestamp 0x0001 0x0000 = some "1980-00-00 00:00:02".toList ∧
    timestamp 0xBF7D 0x01E0 = some "1980-15-00 23:59:58".toList ∧ timestamp 0 0 = none := by decide

/-- A directory entry: 11 name bytes, attribute, time, date, first cluster, size (R254, R258). -/
def entryOf11 (name : List Byte) (attr : Byte) (t d cl : U16) (size : Byte) : List Byte :=
  name ++ [attr] ++ List.replicate 10 0 ++
    [t.extractLsb' 0 8, t.extractLsb' 8 8, d.extractLsb' 0 8, d.extractLsb' 8 8,
      cl.extractLsb' 0 8, cl.extractLsb' 8 8, size, 0, 0, 0]

/-- "A       TXT". -/
def nameATxt : List Byte := [0x41, 0x20, 0x20, 0x20, 0x20, 0x20, 0x20, 0x20, 0x54, 0x58, 0x54]

/-- The node of P6's file. -/
def fileATxt : NodeInfo :=
  { kind := .file, name := [0x41, 0x2E, 0x54, 0x58, 0x54], size := 5, firstCluster := 3,
    modified := some "2025-01-01 12:00:00".toList, capacity := none, free := none }

/-- V-D2 with P6's file; V-D12: nothing follows an end marker; V-D5: a deleted entry is skipped. -/
theorem test_parseDirectory :
    parseDirectory Config.defaultParams (withImage tiny).media smallGeometry []
      (entryOf11 nameATxt 0x20 0x6000 0x5A21 3 5) 0 = .node fileATxt .nil .nil ∧
    parseDirectory Config.defaultParams (withImage tiny).media smallGeometry []
      (List.replicate 32 0 ++ entryOf11 nameATxt 0x20 0x6000 0x5A21 3 5) 0 = .nil ∧
    parseDirectory Config.defaultParams (withImage tiny).media smallGeometry []
      (0xE5 :: List.replicate 31 0 ++ entryOf11 nameATxt 0x20 0x6000 0x5A21 3 5) 0 =
        .node fileATxt .nil .nil := by decide

/-- V-D6 (the escaped first byte), V-D7 (the dot names). -/
theorem test_shortName :
    shortName [0x05, 0x41, 0x42, 0x43, 0x20, 0x20, 0x20, 0x20, 0x44, 0x41, 0x54] =
      [0xE5, 0x41, 0x42, 0x43, 0x2E, 0x44, 0x41, 0x54] ∧
    isDotName (shortName (0x2E :: 0x2E :: List.replicate 9 0x20)) = true ∧
    isDotName (shortName nameATxt) = false := by decide

/-- A long-name fragment of the one unit "g" and its end (R256). -/
def fragmentG (b0 : Byte) : List Byte :=
  [b0, 0x67, 0, 0, 0] ++ List.replicate 6 0xFF ++ [0x0F, 0, 0] ++ List.replicate 12 0xFF ++
    [0, 0] ++ List.replicate 4 0xFF

/-- V-D3, V-D4 in small: the last fragment sizes the accumulator; an orphan finds none. -/
theorem test_lfn :
    longName (lfnFragment [] (fragmentG 0x41)) = [0x67] ∧ lfnFragment [] (fragmentG 0x01) = [] := by
  decide

/-! ### Reset -/

/-- R330, R331: the power-on state is HardReset's, with nothing reported and no medium. -/
theorem test_reset_is_hard_reset : (hostStep .hardReset State.reset).fdc = State.reset.fdc ∧
    (hostStep .hardReset State.reset).media = State.reset.media := by decide

theorem test_reset_params : State.reset.params.resetNonDma = true ∧
    State.reset.params.statusBitPos = 7 ∧ State.reset.params.maxDirDepth = 16 := by decide

/-! ### Witnesses: the hypotheses of the statements can be met -/

theorem witness_DecodedCommandIsItsBytes :
    decodeCommand [0x0F, 4, 0x50, 0x08] = .ok (.seek 0 4 0x50, [0x08]) ∧
    (entryOf Config.defaultParams 0x0F).cmdLen = 3 := by decide

theorem witness_StepRunsTheDecodedInstruction :
    (asking State.reset [.cpu (.bus 0x400)]).inputs = .cpu (.bus 0x400) :: [] ∧
    decode (.bus 0x400) = .ok (.in4 0, []) ∧
    decode (.command [0x08, 0x04, 0x01]) = .ok (.senseInterruptStatus 0, [0x04, 0x01]) := by decide

theorem witness_StepRunsHostRequestsAndWaits :
    (asking State.reset [.host .eject]).inputs = .host .eject :: [] ∧
    decodeCommand [0x06, 0x00] = .error (.truncated 0x06) ∧ decodeCommand [] = .error .empty ∧
    State.reset.inputs = [] := by decide

theorem witness_PlacedTableWordRuns :
    decodeTableWord 16 0x400 = some (.in4 0) ∧ decodeTableWord 8 0x0F = some (.seek 0 0 0) := by decide

/-- A running window meets the invariant, and a step from it answers a next state that does. -/
theorem witness_StepKeepsTheInvariant :
    Invariant (asking (window (withImage tiny) .execution .toHost 1 3) [.cpu (.bus 0x500)]) ∧
    step (asking (window (withImage tiny) .execution .toHost 1 3) [.cpu (.bus 0x500)]) =
      .next (after (exec (.in5 0) (window (withImage tiny) .execution .toHost 1 3))) ∧
    Invariant (resultAt 1) ∧ Invariant (commandPhase 0x06) ∧ Invariant latched := by
  exact ⟨by decide, rfl, by decide, by decide, by decide⟩

theorem witness_StepKeepsTheParameters : ∃ t, step State.reset = .next t := ⟨_, rfl⟩

/-- A step at which "I/O active" begins, and one at which the latch rises. -/
theorem witness_ActivityIsReportedOncePerTransition :
    isSingleStep (.cpu (.bus 0xD06)) = true ∧
    step (asking (withImage tiny) [.cpu (.bus 0xD06)]) = .next (after (exec (.out5 0x06) (withImage tiny))) ∧
    ioActive (after (exec (.out5 0x06) (withImage tiny))) = true ∧
    (withImage tiny).fdc.activeReported = false := ⟨by decide, rfl, by decide, by decide⟩

theorem witness_IrqRiseOncePerRisingEdge :
    step (asking (window State.reset .execution .toHost 1 0) [.cpu (.bus 0x500)]) =
      .next (after (exec (.in5 0) (window State.reset .execution .toHost 1 0))) ∧
    (window State.reset .execution .toHost 1 0).fdc.irq = false ∧
    (after (exec (.in5 0) (window State.reset .execution .toHost 1 0))).fdc.irq = true :=
  ⟨rfl, by decide, by decide⟩

/-- Each of the four ways the latch is cleared. -/
theorem witness_LatchIsClearedOnlyAtTheListedPoints :
    latched.fdc.irq = true ∧
    (after (step (asking latched [.host .hardReset]))).fdc.irq = false ∧
    (after (step (asking (resultAt 1) [.cpu (.bus 0x500)]))).fdc.irq = false ∧
    (after (step (asking latched [.cpu (.bus 0xD08)]))).fdc.irq = false ∧
    CompletesCommand latched 0x08 .senseInterruptStatus := by decide

/-- Command phase after byte 0x08, under a table whose Sense Interrupt Status has a parameter byte (R9,
R83), and the latch set. -/
def latchedTwoBytes : State :=
  { latched with
    params := { latched.params with
      table := latched.params.table.set 8 ⟨2, 2, .senseInterruptStatus⟩ },
    fdc := { (commandPhase 0x08).fdc with irq := true } }

/-- The fourth way, by the last parameter byte in Command phase. -/
theorem witness_LatchIsClearedFromCommandPhase :
    (after (exec (.out5 0x00) latchedTwoBytes)).fdc.irq = false ∧
    CompletesCommand latchedTwoBytes 0x00 .senseInterruptStatus :=
  ⟨by decide, Or.inr ⟨rfl, 0x08, rfl, rfl, rfl⟩⟩

/-- Command phase with the last byte of a three-byte command missing. -/
def lastByteMissing (b : Byte) : State :=
  { commandPhase b with fdc := { (commandPhase b).fdc with idx := 2 } }

/-- The last byte completes Specify, Seek or Recalibrate; the byte before it completes nothing, and in
Idle phase the first byte of a longer command completes nothing, whatever command ran last. -/
theorem witness_CompletesCommand :
    CompletesCommand (lastByteMissing 0x03) 0x02 .specify ∧
    CompletesCommand (lastByteMissing 0x0F) 0x50 .seek ∧
    CompletesCommand (commandPhase 0x07) 0x00 .recalibrate ∧
    (¬ CompletesCommand (commandPhase 0x03) 0xDF .specify) ∧
    ¬ CompletesCommand { State.reset with fdc := { State.reset.fdc with lastCmd := 0x03 } } 0x03
      .specify := by
  refine ⟨Or.inr ⟨rfl, 0x03, rfl, rfl, rfl⟩, Or.inr ⟨rfl, 0x0F, rfl, rfl, rfl⟩,
    Or.inr ⟨rfl, 0x07, rfl, rfl, rfl⟩, ?_, ?_⟩
  · rintro (⟨h, -⟩ | ⟨-, b, rfl, h, -⟩)
    · cases h
    · revert h; decide
  · rintro (⟨-, h, -⟩ | ⟨h, -⟩)
    · revert h; decide
    · cases h

theorem witness_RegistersAreWrittenOnlyByTheirOwners :
    (after (step (asking State.reset [.cpu (.bus 0xA1C)]))).fdc.dor ≠ State.reset.fdc.dor ∧
    (after (step (asking State.reset [.cpu (.bus 0xF01)]))).fdc.speed ≠ State.reset.fdc.speed ∧
    (after (step (asking (lastByteMissing 0x03) [.cpu (.bus 0xD02)]))).fdc.nonDma = false ∧
    (after (step (asking (lastByteMissing 0x0F) [.cpu (.bus 0xD50)]))).fdc.pcn = 0x50 := by
  decide

theorem witness_CommandEqualsItsByteAccesses :
    encode (.senseInterruptStatus 0) = .command [0x08] ∧
    encode (.seek 0 4 0x50) = .command [0x0F, 4, 0x50] := by decide

/-- One state for each clause; the last two clauses are met in Idle phase, and by a window of the other
direction. -/
theorem witness_WritesWithoutMeaningChangeNothing :
    (resultAt 0).fdc.phase = .result ∧
    (window State.reset .execution .toHost 1 0).fdc.phase = .execution ∧
    0 < (window State.reset .execution .toHost 1 0).fdc.pending ∧
    (window State.reset .execution .toHost 1 0).fdc.xferDir ≠ .fromHost ∧
    ¬ (State.reset.fdc.phase = .execution ∧ State.reset.fdc.pending = 0) ∧
    ¬ (0 < State.reset.fdc.pending ∧ State.reset.fdc.xferDir = .fromHost) := by decide

theorem witness_ReadsWithoutValueDrawAFreeByte :
    State.reset.fdc.phase = .idle ∧ (commandPhase 0x06).fdc.phase = .command ∧
    (window State.reset .execution .fromHost 1 0).fdc.phase = .execution ∧
    0 < (window State.reset .execution .fromHost 1 0).fdc.pending ∧
    (window State.reset .execution .fromHost 1 0).fdc.xferDir ≠ .toHost ∧
    ¬ (State.reset.fdc.phase = .execution ∧ State.reset.fdc.pending = 0) ∧
    ¬ (0 < State.reset.fdc.pending ∧ State.reset.fdc.xferDir = .toHost) := by decide

theorem witness_DataReadMovesOneWindowByte :
    0 < (window (withImage tiny) .execution .toHost 1 3).fdc.pending ∧
    (window (withImage tiny) .execution .toHost 1 3).fdc.xferDir = .toHost ∧
    (window (withImage tiny) .execution .toHost 1 3).fdc.phase = .execution ∧
    (window (withImage tiny) .execution .toHost 512 4).fdc.pending = 512 := by decide

theorem witness_DataWriteMovesOneWindowByte :
    0 < (window (withImage tiny) .execution .fromHost 1 3).fdc.pending ∧
    (window (withImage tiny) .execution .fromHost 1 3).fdc.xferDir = .fromHost ∧
    (window (withImage tiny) .execution .fromHost 1 3).fdc.phase = .execution ∧
    (withImage tiny).media.present = true ∧ (withImage tiny).media.img.wf = true ∧
    (3 : Int) < ((withImage tiny).media.img.size : Int) ∧
    State.reset.media.present = false := by decide

theorem witness_StubAccessEndsExecution :
    (window State.reset .execution .toHost 0 0).fdc.phase = .execution ∧
    (window State.reset .execution .toHost 0 0).fdc.pending = 0 := by decide

/-- The first and the last result byte. -/
theorem witness_ResultByteIsReadAndDrained :
    (resultAt 0).fdc.idx < 8 ∧ (resultAt 0).fdc.phase = .result ∧
    (resultAt 1).fdc.idx + 1 = (resultAt 1).fdc.resLen ∧
    ({ (resultAt 0).fdc with idx := 7, resLen := 8 } : FdcState).idx < 8 := by decide

theorem witness_CommandBytesAreCollected :
    State.reset.fdc.phase = .idle ∧ 1 < (entryOf State.reset.params 0x04).cmdLen ∧
    (commandPhase 0x06).fdc.phase = .command ∧ 1 ≤ (commandPhase 0x06).fdc.idx ∧
    (commandPhase 0x06).fdc.idx < 10 ∧
    (commandPhase 0x06).fdc.idx + 1 <
      cmdCount (entryOf (commandPhase 0x06).params (commandPhase 0x06).fdc.cmdBuf[0]) := by decide

/-- Every command statement: Idle phase and the default table, at reset, with and without a medium. -/
theorem witness_commands :
    State.reset.fdc.phase = .idle ∧ DefaultTable State.reset ∧ State.reset.media.present = false ∧
    (withImage tiny).fdc.phase = .idle ∧ DefaultTable (withImage tiny) ∧
    (withImage tiny).media.present = true := by decide

/-- Format Track's offsets: inside the sector and at its two ends. -/
theorem witness_FormatTrackFillsTheCurrentSector :
    (withImage tiny).media.img.wf = true ∧ (0 : Nat) < (withImage tiny).media.img.size ∧
    (withImage tiny).fdc.lba * 512 ≤ ((0 : Nat) : Int) ∧
    ((511 : Nat) : Int) < (withImage tiny).fdc.lba * 512 + 512 ∧
    (withImage tiny).fdc.lba * 512 + 512 ≤ ((512 : Nat) : Int) := by decide

theorem witness_CommandInResultPhaseIsLost :
    encode (.seek 0 4 0x50) = .command [0x0F, 4, 0x50] ∧ (resultAt 0).fdc.phase = .result := by decide

/-- One byte, and one byte less than the command needs. -/
theorem witness_IncompleteCommandWaits :
    State.reset.fdc.phase = .idle ∧ DefaultTable State.reset ∧
    ([] : List Byte).length + 1 < cmdCount (entryOf State.reset.params 0x04) ∧
    [(0 : Byte), 0, 0, 1, 2, 18, 0x1B].length + 1 < cmdCount (entryOf State.reset.params 0x06) ∧
    (asking State.reset [.cpu (.command [0x04])]).inputs = .cpu (.command [0x04]) :: [] := by decide

/-- The ends of the disk's geometry, and the ends of the four clauses of R151. -/
theorem witness_SectorAdvanceIsTheNextLba :
    ((17 : Byte).toNat < 18 ∧ 18 ≤ (18 : Byte).toNat ∧ 18 ≤ (255 : Byte).toNat) ∧
    ((0 : Byte) = 0 ∧ (1 : Byte) ≠ 0 ∧ (78 : Byte).toNat < 79 ∧ 79 ≤ (79 : Byte).toNat ∧
      79 ≤ (255 : Byte).toNat) ∧
    advance 5 0 17 = (5, 0, 18) ∧ advance 78 255 18 = (79, 0, 1) ∧ advance 79 255 255 = (0, 0, 1) ∧
    (79 : Byte).toNat ≤ 79 ∧ (1 : Byte).toNat ≤ 1 ∧ 1 ≤ (1 : Byte).toNat ∧ (18 : Byte).toNat ≤ 18 ∧
    lbaOf 79 1 18 = 2879 ∧ lbaOf 0 0 1 = 0 := by decide

theorem witness_LbaIsInjectiveAndBounded :
    (79 : Byte).toNat ≤ 79 ∧ (1 : Byte).toNat ≤ 1 ∧ 1 ≤ (18 : Byte).toNat ∧ (18 : Byte).toNat ≤ 18 := by
  decide

theorem witness_EjectClearsMediaAndPhase :
    (withImage tiny).media.present = true ∧ State.reset.media.present = false ∧
    Settled State.reset ∧ Settled (withImage tiny) := by decide

theorem witness_FatQueriesDisturbNothing :
    Settled (window (withImage tiny) .execution .toHost 512 0) ∧ latched.media = State.reset.media ∧
    latched.params = State.reset.params := by decide

theorem witness_CodecLaws :
    writeEntry [0, 0, 0] 1 0xFFF = some [0, 0xF0, 0xFF] ∧ (0 : Nat) ≠ 1 := by decide

/-- The walk of test_readChain's chains: two clusters and then the end; a loop; no cluster. -/
theorem test_chainCluster :
    (List.range 3).map (chainCluster smallGeometry [0, 0, 0, 0x03, 0xF0, 0xFF] 2) =
      [some 2, some 3, none] ∧
    chainCluster smallGeometry [0, 0, 0, 0x02, 0, 0] 2 4 = some 2 ∧
    chainCluster smallGeometry [] 1 0 = none ∧ chainCluster smallGeometry [] 3 0 = some 3 ∧
    chainCluster smallGeometry [] 4 0 = none ∧ chainCluster smallGeometry [] 3 1 = none := by decide

theorem witness_ChainIsBoundedAndFailsOnlyOnIo :
    readChain (withImage tiny).media smallGeometry [0, 0, 0, 0x02, 0, 0] 2 ≠ none ∧
    readChain (withImage tiny).media { smallGeometry with dataStart := 3 } [0, 0, 0, 0x03, 0, 0] 2 =
      none ∧
    readChain (withImage tiny).media smallGeometry [0, 0, 0, 0x03, 0xF0, 0xFF] 2 = some [0xBB, 0x00] ∧
    clusterBytes (withImage tiny).media smallGeometry 2 ≠ none ∧
    clusterBytes (withImage tiny).media smallGeometry 3 ≠ none ∧
    (1 < 2 ∨ smallGeometry.totalClusters + 2 ≤ 1) ∧
    (4 < 2 ∨ smallGeometry.totalClusters + 2 ≤ 4) := by decide

theorem witness_AllocateTakesTheFirstFreeClusters :
    allocate smallGeometry [0, 0, 0, 0, 0, 0] 1 = some [2] ∧
    readEntry [0, 0, 0, 0, 0, 0] 3 = some 0 ∧ 3 < smallGeometry.totalClusters + 2 := by decide

/-- The boot sector of P6's volume T: its BPB bytes, in an image of 2560 bytes. -/
def volumeT : ImageFile :=
  { size := 2560,
    bytes := [(0x0C, 0x02), (0x0D, 0x01), (0x0E, 0x01), (0x10, 0x01), (0x11, 0x10), (0x13, 0x05),
      (0x16, 0x01)] }

/-- The geometry of P6, step 1. -/
def geometryT : Geometry :=
  { bps := 512, spc := 1, rsv := 1, nfat := 1, rootEnt := 16, spf := 1, rootDirSectors := 1,
    fatStart := 512, rootStart := 1024, dataStart := 1536, bytesPerCluster := 512, totalClusters := 2 }

/-- Volume T meets the second clause; a volume with a zero field, and one that is one byte too short,
meet the first. -/
theorem witness_GeometryIsReadFromTheBootSector :
    loadGeometry (withImage volumeT).media = some geometryT ∧ State.reset.media.present = false ∧
    (withImage tiny).media.img.size < 512 ∧
    (withImage volumeT).media.present = true ∧ 512 ≤ (withImage volumeT).media.img.size ∧
    (withImage { volumeT with size := 511 }).media.img.size < 512 := by decide +kernel

theorem witness_GeometryFields :
    leNat (withImage volumeT).media.img.toBytes 0x0B 2 = 512 ∧
    leNat (withImage volumeT).media.img.toBytes 0x0D 1 = 1 ∧
    leNat (withImage volumeT).media.img.toBytes 0x10 1 = 1 ∧
    leNat (withImage volumeT).media.img.toBytes 0x16 2 = 1 ∧
    leNat (withImage { size := 512, bytes := [] }).media.img.toBytes 0x0B 2 = 0 ∧
    leNat [0x78, 0x56, 0x34, 0x12] 0 4 = 0x12345678 := by decide +kernel

/-- R258, R259: the file of P6 after its long-name fragment has the name "g". -/
theorem test_long_name_entry :
    parseDirectory Config.defaultParams (withImage tiny).media smallGeometry []
      (fragmentG 0x41 ++ entryOf11 nameATxt 0x20 0x6000 0x5A21 3 5) 0 =
        .node { fileATxt with name := [0x67] } .nil .nil ∧
    parseDirectory Config.defaultParams (withImage tiny).media smallGeometry []
      (fragmentG 0x41 ++ (0xE5 :: List.replicate 31 0) ++
        entryOf11 nameATxt 0x20 0x6000 0x5A21 3 5) 0 = .node fileATxt .nil .nil := by decide

theorem witness_DirectoryScanSkipsAndStops :
    (∀ f ∈ [fragmentG 0x41, fragmentG 0x01], IsFragment f) ∧
    (List.replicate 31 (0x41 : Byte)).length < 32 ∧
    (List.replicate 32 (0 : Byte)).length = 32 ∧ byteAt (List.replicate 32 0) 0 = 0x00 ∧
    byteAt (0xE5 :: List.replicate 31 0) 0 = 0xE5 ∧
    byteAt (entryOf11 nameATxt 0x08 0 0 0 0) 11 &&& 0x08 ≠ 0 ∧
    byteAt (entryOf11 nameATxt 0x08 0 0 0 0) 11 ≠ 0x0F ∧
    shortName (entryOf11 (0x2E :: List.replicate 10 0x20) 0x10 0 0 0 0) = [0x2E] ∧
    (entryOf11 nameATxt 0x08 0 0 0 0).length = 32 := by decide

theorem witness_TimestampOnlyWhenNonZero :
    timestamp 0x0001 0 = some "1980-00-00 00:00:02".toList := by decide

/-- Each clause: no sequence number, an accumulator one unit short, the largest accumulator, one of the
exact size; the unit before the NUL and the NUL. -/
theorem witness_LongNameFragmentFillsTheAccumulator :
    (byteAt (fragmentG 0x40) 0).toNat % 32 = 0 ∧
    (List.replicate 12 (0 : U16)).length < (byteAt (fragmentG 0x01) 0).toNat % 32 * 13 ∧
    (byteAt (fragmentG 0x5F) 0 &&& 0x40 ≠ 0 ∧
      (lfnFragment [] (fragmentG 0x5F)).length = 403) ∧
    (byteAt (fragmentG 0x01) 0 &&& 0x40 = 0 ∧
      (byteAt (fragmentG 0x01) 0).toNat % 32 * 13 ≤ (List.replicate 13 (0 : U16)).length) ∧
    fragmentUnit (fragmentG 0x01) 0 = 0x67 ∧ fragmentUnit (fragmentG 0x01) 1 = 0x0000 ∧
    fragmentUnit (fragmentG 0x01) 12 = 0xFFFF := by decide +kernel

/-- A file and a directory after a fragment; the last depth that has children and the first that has
none. -/
theorem witness_NormalEntryGivesItsNode :
    (∀ f ∈ [fragmentG 0x41], IsFragment f) ∧
    IsNormalEntry (entryOf11 nameATxt 0x20 0x6000 0x5A21 3 5) ∧
    IsNormalEntry (entryOf11 nameATxt 0x10 0 0 2 0) ∧
    longName (pendingName [fragmentG 0x41]) = [0x67] ∧ longName (pendingName []) = [] ∧
    15 + 1 ≤ Config.defaultParams.maxDirDepth ∧ ¬ 16 + 1 ≤ Config.defaultParams.maxDirDepth := by
  decide

/-- Full fields, empty fields, and the escaped first byte. -/
theorem witness_NamesAreReadFromTheirFields :
    nameATxt = paddedField [0x41] 8 ++ (paddedField [0x54, 0x58, 0x54] 3 ++ []) ∧
    ([0x41] : List Byte).getLast? ≠ some 0x20 ∧ ([] : List Byte).getLast? ≠ some 0x20 ∧
    (List.replicate 8 (0x05 : Byte)).length ≤ 8 ∧
    (List.replicate 8 (0x05 : Byte)).getLast? ≠ some 0x20 ∧
    ([0x54, 0x58, 0x54] : List Byte).length ≤ 3 ∧
    shortName (List.replicate 8 0x05 ++ [0x20, 0x20, 0x20]) =
      0xE5 :: List.replicate 7 0x05 := by decide

theorem witness_RangeReadGivesTheImageBytes :
    rangeRead (withImage tiny).media 1 3 = some [0, 0xBB, 0] ∧
    rangeRead (withImage tiny).media 4 0 = some [] := by decide

/-- An even and an odd index whose words end with the buffer. -/
theorem witness_CodecPacksTwelveBits :
    (3 : Nat) = 2 + 2 / 2 ∧ 3 + 1 < [(0 : Byte), 0, 0, 0, 0].length ∧
    (4 : Nat) = 3 + 3 / 2 ∧ 4 + 1 < [(0 : Byte), 0, 0, 0, 0, 0].length := by decide

theorem witness_TreeNeedsGeometryFatAndRoot :
    loadGeometry (withImage volumeT).media = some geometryT ∧
    (rangeRead (withImage volumeT).media 512 512).isSome = true ∧
    (rangeRead (withImage volumeT).media 1024 512).isSome = true := by decide +kernel

theorem witness_ImageWriteThenReadGivesTheByte :
    (withImage tiny).media.present = true ∧ (withImage tiny).media.img.wf = true ∧ (0 : Int) ≤ 3 ∧
    (3 : Int) < ((withImage tiny).media.img.size : Int) ∧ (-1 : Int) < 0 ∧
    ((withImage tiny).media.img.size : Int) ≤ 4 ∧ State.reset.media.present = false := by decide

end Sys2Proof.Tests
end

section
/-! The step as a whole (00_scope.md R6, R12): what is fetched, what a step can be, and what an
instruction is made of (one atomic port access, or a sequence of port 5 writes); then the parameters (R9). -/

namespace Sys2Proof.Machine

/-! ### The next request -/

theorem requeue_eq (left : List Byte) (rest : List Request) :
    requeue left rest = if left = [] then rest else .cpu (.command left) :: rest := by
  cases left with
  | nil => rfl
  | cons => rw [if_neg (List.cons_ne_nil _ _)]; rfl

theorem fetch_of_decode_ok {s : State} {code : Encoded} {i : Instr} {left : List Byte}
    {rest : List Request} (hin : s.inputs = .cpu code :: rest) (hd : decode code = .ok (i, left)) :
    fetch s = .instr i { s with inputs := requeue left rest } := by
  cases code with
  | bus w => cases hd; simp [fetch, hin, requeue]
  | command bs =>
    have hc : decodeCommand bs = .ok (i, left) := hd
    simp [fetch, hin, hc]

theorem fetch_of_decodeCommand_error {s : State} {bytes : List Byte} {e : DecodeError}
    {rest : List Request} (hin : s.inputs = .cpu (.command bytes) :: rest)
    (he : decodeCommand bytes = .error e) :
    fetch s = .partialCommand bytes { s with inputs := rest } := by
  simp [fetch, hin, he]

theorem fetch_of_host {s : State} {op : HostOp} {rest : List Request}
    (hin : s.inputs = .host op :: rest) : fetch s = .host op { s with inputs := rest } := by
  simp [fetch, hin]

theorem fetch_of_no_request {s : State} (hin : s.inputs = []) : fetch s = .nothing := by
  simp [fetch, hin]

/-! ### The step, by the next request -/

theorem step_of_decode_ok {s : State} {code : Encoded} {i : Instr} {left : List Byte}
    {rest : List Request} (hin : s.inputs = .cpu code :: rest) (hd : decode code = .ok (i, left)) :
    step s = exec i { s with inputs := requeue left rest } := by
  simp [step, fetch_of_decode_ok hin hd]

theorem step_of_decodeCommand_error {s : State} {bytes : List Byte} {e : DecodeError}
    {rest : List Request} (hin : s.inputs = .cpu (.command bytes) :: rest)
    (he : decodeCommand bytes = .error e) :
    step s = .next (issue bytes { s with inputs := rest }) := by
  simp [step, fetch_of_decodeCommand_error hin he]

theorem step_of_host {s : State} {op : HostOp} {rest : List Request}
    (hin : s.inputs = .host op :: rest) :
    step s = .next (hostStep op { s with inputs := rest }) := by
  simp [step, fetch_of_host hin]

theorem step_of_no_request {s : State} (hin : s.inputs = []) : step s = .next s := by
  simp [step, fetch_of_no_request hin]

/-- All that a step can be: nothing, an instruction, the bytes of a command cut short (R89), or a host
operation; each runs on the state but for its requests. -/
theorem step_cases (s : State) :
    step s = .next s ∨
      ∃ rest, (∃ i, step s = exec i { s with inputs := rest }) ∨
        (∃ bytes, step s = .next (issue bytes { s with inputs := rest })) ∨
        (∃ op, step s = .next (hostStep op { s with inputs := rest })) := by
  cases hin : s.inputs with
  | nil => exact .inl (step_of_no_request hin)
  | cons r rest =>
    right
    cases r with
    | host op => exact ⟨rest, .inr (.inr ⟨op, step_of_host hin⟩)⟩
    | cpu code =>
      cases hd : decode code with
      | ok p => exact ⟨_, .inl ⟨p.1, step_of_decode_ok hin hd⟩⟩
      | error e =>
        cases code with
        | bus w => cases hd
        | command bytes =>
          exact ⟨rest, .inr (.inl ⟨bytes, step_of_decodeCommand_error hin hd⟩)⟩

/-! ### What an instruction is made of -/

/-- What a bus operation does inside its atomic step (R101 to R121); a command row has no such single
access. `exec_of_portBody` ties it to the instruction's meaning. -/
def portBody : Instr → Option (State → State)
  | .in0 _ | .in1 _ => some dataPortRead
  | .out0 d | .out1 d => some (dataPortWrite d)
  | .in2 _ => some drqRead
  | .out2 d => some (dorWrite d)
  | .in3 _ => some irqRead
  | .in4 _ => some msrRead
  | .out4 d => some (pinResetWrite d)
  | .in5 _ => some dataRegisterRead
  | .out5 d => some (dataRegisterWrite d)
  | .in6 _ => some answerDraw
  | .out3 _ | .out6 _ => some id
  | .in7 _ => some mediaChangedRead
  | .out7 d => some (speedWrite d)
  | _ => none

/-- A bus operation is its port body as one atomic step (R12). -/
theorem exec_of_portBody {i : Instr} {body : State → State} (h : portBody i = some body) (s : State) :
    exec i s = .next (atomically body s) := by
  cases i <;> cases h <;> rfl

/-- Every instruction is one atomic port access, or the port 5 writes of a command. -/
theorem portBody_or_command (i : Instr) :
    (∃ body, portBody i = some body) ∨ ∃ bs, encode i = .command bs := by
  cases i
  case in0 | in1 | in2 | in3 | in4 | in5 | in6 | in7 | out0 | out1 | out2 | out3 | out4 | out5 | out6
      | out7 => exact .inl ⟨_, rfl⟩
  all_goals exact .inr ⟨_, rfl⟩

/-! ### The parameters (R9) -/

theorem portBody_params {i : Instr} {body : State → State} (h : portBody i = some body) (s : State) :
    (body s).params = s.params := by
  cases i <;> cases h <;> simp

theorem exec_params {i : Instr} {s t : State} (h : exec i s = .next t) : t.params = s.params := by
  obtain ⟨body, hb⟩ | ⟨bs, hbs⟩ := portBody_or_command i
  · rw [exec_of_portBody hb] at h
    cases h
    simp [portBody_params hb]
  · rw [exec_of_command hbs] at h
    cases h
    simp

@[simp] theorem hostStep_params (op : HostOp) (s : State) : (hostStep op s).params = s.params := by
  simp [hostStep]

end Sys2Proof.Machine

namespace Sys2Proof.Proofs

open Sys2Proof.Machine

/-- Settles O11: whatever the step runs keeps the parameters, and taking a request does not touch
them. -/
theorem stepKeepsTheParameters : Obligations.StepKeepsTheParameters := by
  intro s t h
  obtain hs | ⟨rest, ⟨i, hs⟩ | ⟨bytes, hs⟩ | ⟨op, hs⟩⟩ := step_cases s <;> rw [hs] at h
  · cases h; rfl
  · exact (exec_params h :)
  · cases h; simp
  · cases h; simp

/-- Settles O5, by the rule for a fetched instruction and the two cases of `requeue`. -/
theorem stepRunsTheDecodedInstruction : Obligations.StepRunsTheDecodedInstruction := by
  intro s code i left rest hin hd
  rw [step_of_decode_ok hin hd, requeue_eq]

/-- Settles O6, by the rules of the three other requests. -/
theorem stepRunsHostRequestsAndWaits : Obligations.StepRunsHostRequestsAndWaits :=
  ⟨fun _ _ _ hin => step_of_host hin,
    fun _ _ _ _ hin he => step_of_decodeCommand_error hin he,
    fun _ hin => step_of_no_request hin⟩

end Sys2Proof.Proofs
end

section
/-! Reads with no defined value (00_scope.md R9, 40_fdc_ports.md R101, R114, R117, R119): when a port body
is `draw()`, and what the step then leaves. -/

namespace Sys2Proof.Machine

/-- Reading the data register is `draw()` where no byte is on offer (R117). -/
theorem dataRegisterRead_idle_or_command {s : State}
    (h : s.fdc.phase = .idle ∨ s.fdc.phase = .command) : dataRegisterRead s = answerDraw s := by
  obtain h | h := h <;> simp [dataRegisterRead, h]

/-- R114: a window that does not go to the host offers no byte to port 5. -/
theorem dataRegisterRead_other_window {s : State} (hphase : s.fdc.phase = .execution)
    (hpending : 0 < s.fdc.pending) (hdir : s.fdc.xferDir ≠ .toHost) :
    dataRegisterRead s = answerDraw s := by
  simp [dataRegisterRead, hphase, executionRead, hdir, show s.fdc.pending ≠ 0 by omega]

/-- R101: the DMA port reads `draw()` outside a stub's Execution phase with no ToHost window. -/
theorem dataPortRead_no_window {s : State} (hstub : ¬ (s.fdc.phase = .execution ∧ s.fdc.pending = 0))
    (hwindow : ¬ (0 < s.fdc.pending ∧ s.fdc.xferDir = .toHost)) :
    dataPortRead s = answerDraw s := by
  have h1 : ¬ inStub s.fdc = true := by simpa [inStub] using hstub
  have h2 : ¬ windowPending .toHost s.fdc = true := by simpa [windowPending] using hwindow
  rw [dataPortRead, if_neg h1, if_neg h2]

/-- An instruction whose port body is `draw()` in this state reads a free byte and changes nothing. -/
theorem exec_readsFreeByte {i : Instr} {body : State → State} {s : State}
    (hi : portBody i = some body) (hb : body (openStep s) = answerDraw (openStep s)) :
    ∃ t, exec i s = .next t ∧ ReadsFreeByte s t := by
  have hactive : ioActive (answerDraw (openStep s)) = ioActive s := ioActive_congr rfl rfl rfl
  exact ⟨_, exec_of_portBody hi s, by simp [ReadsFreeByte, hb, hactive]⟩

end Sys2Proof.Machine

namespace Sys2Proof.Proofs

open Sys2Proof.Machine

/-- Settles O20: in each case the port body is `draw()`. -/
theorem readsWithoutValueDrawAFreeByte : Obligations.ReadsWithoutValueDrawAFreeByte := by
  intro d s
  refine ⟨exec_readsFreeByte rfl rfl, fun hphase => ?_, fun hphase hpending hdir => ?_,
    fun hstub hwindow => ?_⟩
  · exact exec_readsFreeByte rfl (dataRegisterRead_idle_or_command hphase)
  · exact exec_readsFreeByte rfl (dataRegisterRead_other_window hphase hpending hdir)
  · have hdraw := dataPortRead_no_window (s := openStep s) hstub hwindow
    exact ⟨exec_readsFreeByte rfl hdraw, exec_readsFreeByte rfl hdraw⟩

end Sys2Proof.Proofs
end

section
/-! Host operations that only answer (00_scope.md R7, R12, 60_exceptions.md R312): the FAT12 calls and the
mutation gate. -/

namespace Sys2Proof.Machine

/-- From a settled state, an operation that only answers sets the outputs of its step and nothing
else: the activity rule finds nothing to report (R310). -/
theorem atomically_of_answer {body : State → State} {s : State} {r : StepResult} (hs : Settled s)
    (hb : body (openStep s) = answer r (openStep s)) : atomically body s = answer r (openStep s) := by
  rw [atomically, hb]
  exact activityRule_of_settled hs

theorem hostStep_fat_of_settled (call : FatCall) {s : State} (hs : Settled s) :
    hostStep (.fat call) s = answer (fatResult s.params s.media call) (openStep s) :=
  atomically_of_answer hs rfl

theorem hostStep_mutationGate_of_settled {s : State} (hs : Settled s) :
    hostStep .mutationGate s = answer (.bool (!ioActive s)) (openStep s) :=
  atomically_of_answer hs rfl

/-- A FAT12 call answers its function in every state, settled or not (R7). -/
@[simp] theorem hostStep_fat_result (call : FatCall) (s : State) :
    (hostStep (.fat call) s).result = fatResult s.params s.media call := by
  simp [hostStep, hostBody]

end Sys2Proof.Machine

namespace Sys2Proof.Proofs

open Sys2Proof.Machine

/-- Settles O45: a call only answers, and its answer is `fatResult`, which reads the parameters and
the media store alone. -/
theorem fatQueriesDisturbNothing : Obligations.FatQueriesDisturbNothing := by
  refine ⟨fun call s hs => ?frame, fun call s u hmedia hparams => ?depends, fun s => ?result,
    fun s hs => ?gate⟩
  case frame => simp [SameButOutputs, SameOutsideFdc, hostStep_fat_of_settled call hs]
  case depends => simp [hmedia, hparams]
  case result => simp [fatResult, fatBuffer]
  case gate => simp [SameButOutputs, SameOutsideFdc, hostStep_mutationGate_of_settled hs]

end Sys2Proof.Proofs
end

section
/-! The invariant (10_state.md R24 to R37, R40, R46, R47; 60_exceptions.md R302, R310): every operation of
the block keeps it but for the reported activity, which the activity rule restores after each access. -/

namespace Sys2Proof.Machine

/-- R24, R36: what the phase asks of FdcState. Only `idx`, the command byte, the direction, the transfer
mode and `resLen` are read. -/
def PhaseOk (p : Params) (f : FdcState) : Prop :=
  match f.phase with
  | .idle => f.idx = 0
  | .command => 1 ≤ f.idx ∧ f.idx < cmdCount (entryOf p f.cmdBuf[0])
  | .execution => f.idx = 0 ∧ f.xferDir ≠ .none ∧ f.nonDma = true
  | .result => f.idx < f.resLen

/-- R26, R27, R29, R30, R33: what holds of FdcState in every phase. -/
structure FieldsOk (f : FdcState) : Prop where
  pending : f.pending ≤ 512
  dir : f.pending ≠ 0 → f.xferDir ≠ .none
  status : StatusOk f
  address : AddressOk f
  resLen : f.resLen ≤ 8

/-- The invariant without its clause on the reported activity: what holds inside a step too, before the
activity rule has run. -/
structure Sound (s : State) : Prop where
  phase : PhaseOk s.params s.fdc
  fields : FieldsOk s.fdc
  media : MediaOk s.media
  table : CommandTable.wf s.params.table = true

theorem phaseOk_iff (s : State) :
    PhaseOk s.params s.fdc ↔
      IdxOk s ∧ (s.fdc.phase = .execution → s.fdc.xferDir ≠ .none ∧ s.fdc.nonDma = true) := by
  unfold PhaseOk
  cases h : s.fdc.phase <;> simp [IdxOk, h]

theorem invariant_iff (s : State) : Invariant s ↔ Sound s ∧ Settled s := by
  constructor
  · rintro ⟨hidx, ⟨hpending, hdir, hexec⟩, hstatus, haddress, hlen, hmedia, htable, hsettled⟩
    have hphase := (phaseOk_iff s).2 ⟨hidx, hexec⟩
    exact ⟨⟨hphase, ⟨hpending, hdir, hstatus, haddress, hlen⟩, hmedia, htable⟩, hsettled⟩
  · rintro ⟨⟨hphase, ⟨hpending, hdir, hstatus, haddress, hlen⟩, hmedia, htable⟩, hsettled⟩
    obtain ⟨hidx, hexec⟩ := (phaseOk_iff s).1 hphase
    exact ⟨hidx, ⟨hpending, hdir, hexec⟩, hstatus, haddress, hlen, hmedia, htable, hsettled⟩

theorem sound_of_invariant {s : State} (h : Invariant s) : Sound s := ((invariant_iff s).1 h).1

/-- The reported activity takes no part in soundness. -/
theorem activityRule_sound {s : State} (h : Sound s) : Sound (activityRule s) := by
  refine ⟨?_, ?_, by simpa using h.media, by simpa using h.table⟩ <;> rw [activityRule_fdc]
  · rw [activityRule_params]; exact h.phase
  · exact { h.fields with }

/-! ### The values the handlers write (R46, R47, R69, R151) -/

theorem hdUs_mask (b : Byte) : hdUs b &&& 0xD8 = 0 := by
  rw [hdUs, BitVec.and_assoc]; simp

theorem st0Recalibrate_mask (b : Byte) : st0Recalibrate b &&& 0xD8 = 0 := by
  rw [st0Recalibrate, unitOf, BitVec.and_or_distrib_right, BitVec.and_assoc]; simp

theorem st0Seek_mask (b : Byte) : st0Seek b &&& 0xD8 = 0 := by
  rw [st0Seek, BitVec.and_or_distrib_right, hdUs_mask]; simp

/-- R144: FT and WP of ST3 are 0. -/
theorem st3Of_mask (hdus pcn : Byte) (present : Bool) : st3Of hdus pcn present &&& 0xC0 = 0 := by
  have hhd : hdUs hdus &&& 0xC0 = 0 := by rw [hdUs, BitVec.and_assoc]; simp
  simp only [st3Of, BitVec.and_or_distrib_right, hhd]
  split <;> split <;> simp

/-- A command that ends normally (R46): ST0 is one of its three forms, ST1 and ST2 are 0. -/
theorem StatusOk.normal {f : FdcState} (h : StatusOk f) {v : Byte} (hv : v &&& 0xD8 = 0) :
    StatusOk { f with st0 := v, st1 := 0, st2 := 0 } := by
  obtain ⟨-, -, -, hst3⟩ := h
  exact ⟨.inr hv, rfl, rfl, hst3⟩

/-- Seek, Recalibrate and an invalid command write ST0 alone. -/
theorem StatusOk.st0 {f : FdcState} (h : StatusOk f) {v : Byte} (hv : v = 0x80 ∨ v &&& 0xD8 = 0) :
    StatusOk { f with st0 := v } :=
  ⟨hv, h.2⟩

theorem StatusOk.st3 {f : FdcState} (h : StatusOk f) {v : Byte} (hv : v &&& 0xC0 = 0) :
    StatusOk { f with st3 := v } := by
  obtain ⟨h0, h1, h2, -⟩ := h
  exact ⟨h0, h1, h2, hv⟩

/-- R69: the least and the greatest value of the formula on three bytes. -/
theorem lbaOf_range (c h r : Byte) : -1 ≤ lbaOf c h r ∧ lbaOf c h r ≤ 14024 := by
  have hc := c.isLt
  have hh := h.isLt
  have hr := r.isLt
  unfold lbaOf
  omega

/-- R70: the clamp stays within the range of R69. -/
theorem clampRead_range (l : Int) : -1 ≤ clampRead l ∧ clampRead l ≤ 14024 := by
  unfold clampRead Config.maxLba
  omega

/-- R151: the sector register of an opened window. -/
theorem advance_sector (c h r : Byte) :
    1 ≤ (advance c h r).2.2.toNat ∧ (advance c h r).2.2.toNat ≤ 18 := by
  rw [(advance_toNat c h r).2.2]
  exact advanceNat_sector _ _ _

/-! ### The handlers (R140 to R175) -/

theorem openWindow_fieldsOk {f : FdcState} (h : FieldsOk f) {dir : XferDir} (hdir : dir ≠ .none)
    {l : Int} (hl : -1 ≤ l ∧ l ≤ 14024) : FieldsOk (openWindow dir l f) := by
  rw [openWindow_eq]
  obtain ⟨hlo, hhi⟩ := advance_sector (opC f) (opH f) (opR f)
  exact { h with
    pending := Nat.le_refl _, dir := fun _ => hdir, status := h.status.normal (hdUs_mask _),
    address := ⟨hlo, hhi, hl⟩ }

theorem handleStub_fieldsOk {s : State} (h : FieldsOk s.fdc) (dir : XferDir) :
    FieldsOk (handleStub dir s).fdc := by
  rw [handleStub_fdc]
  exact { h with
    pending := Nat.zero_le _, dir := fun hne => absurd rfl hne,
    status := h.status.normal (hdUs_mask _) }

theorem handleReadId_fieldsOk {s : State} (h : FieldsOk s.fdc) : FieldsOk (handleReadId s).fdc := by
  cases hm : s.media.present with
  | false => rw [handleReadId_fdc_absent hm]; exact { h with resLen := Nat.zero_le _ }
  | true =>
    rw [handleReadId_fdc_present hm]
    exact { h with status := h.status.normal (hdUs_mask _) }

theorem handle_fieldsOk (hd : Handler) {s : State} (h : FieldsOk s.fdc) :
    FieldsOk (handle hd s).fdc := by
  cases hd
  case specify => rw [handle, handleSpecify_fdc]; exact { h with }
  case senseInterruptStatus => rw [handle, handleSenseInterruptStatus_fdc]; exact { h with }
  case senseDriveStatus =>
    rw [handle, handleSenseDriveStatus_fdc]
    exact { h with status := h.status.st3 (st3Of_mask _ _ _) }
  case recalibrate =>
    rw [handle, handleRecalibrate_fdc]
    exact { h with status := h.status.st0 (.inr (st0Recalibrate_mask _)) }
  case seek =>
    rw [handle, handleSeek_fdc]
    exact { h with status := h.status.st0 (.inr (st0Seek_mask _)) }
  case readData =>
    rw [handle, handleReadData_fdc]
    exact { openWindow_fieldsOk (dir := .toHost) h (by simp) (clampRead_range _) with }
  case writeData =>
    rw [handle, handleWriteData_fdc]
    exact { openWindow_fieldsOk (dir := .fromHost) h (by simp) (lbaOf_range _ _ _) with }
  case readId => exact handleReadId_fieldsOk h
  case formatTrack =>
    rw [handle, handleFormatTrack_fdc]
    exact { h with status := h.status.normal (hdUs_mask _) }
  case invalid =>
    rw [handle, handleInvalid_fdc]
    exact { h with status := h.status.st0 (.inl rfl) }
  case readTrack | readDeletedData | writeDeletedData | scanEqual | scanLowOrEqual
      | scanHighOrEqual => exact handleStub_fieldsOk h _

/-- R118, R141: `idx` starts at 0, and Result phase follows only where there is a result byte. -/
theorem phaseOk_of_ended {p : Params} {f : FdcState} (hidx : f.idx = 0)
    (hphase : f.phase = if f.resLen = 0 then .idle else .result) : PhaseOk p f := by
  split at hphase
  · simpa [PhaseOk, hphase] using hidx
  · simp [PhaseOk, hphase, hidx]; omega

theorem concludePhase_result (resLen : Nat) :
    concludePhase .result resLen = if resLen = 0 then .idle else .result := by
  simp [concludePhase]

/-- R141: `idx` is 0 in the phase that follows a command, and there is a result byte where that phase is
Result. -/
theorem conclude_phaseOk (p : Params) {next : Phase} {raise : Bool} {s : State}
    (hexec : next = .execution → s.fdc.xferDir ≠ .none ∧ s.fdc.nonDma = true) :
    PhaseOk p (conclude next raise s).fdc := by
  rw [conclude_fdc]
  unfold concludePhase
  by_cases hn : next = .execution
  · simpa [PhaseOk, hn] using hexec hn
  · by_cases hi : next = .idle ∨ s.fdc.resLen = 0
    · simp [PhaseOk, hn, hi]
    · simp [PhaseOk, hn, hi]; omega

/-- R36, R150, R164: a data command asks for Execution phase in non-DMA mode alone. -/
theorem nonDma_of_dataPhase {f : FdcState} (h : dataPhase f = .execution) : f.nonDma = true := by
  simpa [dataPhase] using h

theorem handleStub_phaseOk (p : Params) {dir : XferDir} (hdir : dir ≠ .none) (s : State) :
    PhaseOk p (handleStub dir s).fdc :=
  conclude_phaseOk p fun hn => ⟨hdir, nonDma_of_dataPhase hn⟩

/-- Whatever the state before, a handler leaves a phase that `idx` and the window fit. -/
theorem handle_phaseOk (p : Params) (hd : Handler) (s : State) : PhaseOk p (handle hd s).fdc := by
  cases hd
  case specify | senseInterruptStatus | senseDriveStatus | recalibrate | seek | invalid =>
    exact conclude_phaseOk p nofun
  case formatTrack =>
    rw [handle, handleFormatTrack_fdc]
    exact phaseOk_of_ended rfl (concludePhase_result _)
  case readData | writeData =>
    exact conclude_phaseOk p fun hn => ⟨by simp [openWindow_eq], nonDma_of_dataPhase hn⟩
  case readId => rw [handle, handleReadId]; split <;> exact conclude_phaseOk p nofun
  case readTrack | readDeletedData => exact handleStub_phaseOk p (dir := .toHost) nofun s
  case writeDeletedData | scanEqual | scanLowOrEqual | scanHighOrEqual =>
    exact handleStub_phaseOk p (dir := .fromHost) nofun s

/-! ### The media store (R40, R42, R62, R63) -/

/-- The "media changed" latch takes no part in the media clause. -/
theorem memReadState_mediaOk {s : State} (h : MediaOk s.media) : MediaOk (memReadState s).media := by
  rw [memReadState_media]; split <;> exact h

theorem memWrite_mediaOk {s : State} (h : MediaOk s.media) (off : Int) (v : Byte) :
    MediaOk (memWrite off v s).media := by
  refine ⟨memWrite_wf h.1, fun habsent => ?_⟩
  rw [memWrite_present] at habsent
  rw [memWrite_absent habsent]
  exact h.2 habsent

theorem memFill_mediaOk {s : State} (h : MediaOk s.media) (off : Int) (v : Byte) (n : Nat) :
    MediaOk (memFill off v n s).media := by
  induction n with
  | zero => exact h
  | succ n ih => rw [memFill_succ]; exact memWrite_mediaOk ih _ _

theorem handle_mediaOk (hd : Handler) {s : State} (h : MediaOk s.media) :
    MediaOk (handle hd s).media := by
  by_cases hf : hd = .formatTrack
  · subst hf; rw [handle, handleFormatTrack_media]; exact memFill_mediaOk h _ _ _
  · rw [handle_media hf]; exact h

/-! ### Command bytes (R110, R111, R140) -/

/-- R26, R84, R140: the result count comes from the table. The handler sets phase and `idx`, so nothing is
asked of them before. -/
theorem runHandler_sound {s : State} (hfields : FieldsOk s.fdc) (hmedia : MediaOk s.media)
    (htable : CommandTable.wf s.params.table = true) : Sound (runHandler s) := by
  refine ⟨handle_phaseOk _ _ _, handle_fieldsOk _ ?_, handle_mediaOk _ hmedia, by simpa using htable⟩
  exact { hfields with resLen := (entryOf_wf htable _).2 }

theorem commandByte_sound (v : Byte) {s : State} (h : Sound s) : Sound (commandByte v s) := by
  have hfields : FieldsOk (receiveCommand v s).fdc := { h.fields with }
  unfold commandByte
  split
  · exact runHandler_sound hfields h.media h.table
  · next hlen =>
    refine ⟨?_, hfields, h.media, h.table⟩
    simp [PhaseOk, cmdCount]; omega

theorem parameterByte_sound (v : Byte) {s : State} (h : Sound s) (hphase : s.fdc.phase = .command) :
    Sound (parameterByte v s) := by
  have hfields : FieldsOk (receiveParameter v s).fdc := { h.fields with }
  unfold parameterByte
  split
  · exact runHandler_sound hfields h.media h.table
  · next hmore =>
    refine ⟨?_, hfields, h.media, h.table⟩
    have hidx := h.phase
    simp only [PhaseOk, hphase] at hidx
    have hne : s.fdc.idx ≠ 0 := by omega
    simp [commandComplete, opCmd, hne] at hmore
    simp [PhaseOk, hphase, hne]
    omega

/-! ### Data and result bytes (R114 to R122) -/

theorem execDone_sound {s : State} (h : Sound s) : Sound (execDone s) :=
  ⟨phaseOk_of_ended rfl rfl, { h.fields with }, h.media, h.table⟩

/-- One byte of the window has moved: fewer bytes are pending, in the same direction. -/
theorem moveWindow_sound (dir : XferDir) {s : State} (h : Sound s) : Sound (moveWindow dir s) := by
  suffices hfdc : PhaseOk s.params (moveWindow dir s).fdc ∧ FieldsOk (moveWindow dir s).fdc from
    ⟨by simpa using hfdc.1, hfdc.2, by simpa using h.media, by simpa using h.table⟩
  rw [moveWindow_fdc]
  split
  · exact ⟨phaseOk_of_ended rfl rfl,
      { h.fields with pending := Nat.zero_le _, dir := fun hne => absurd rfl hne }⟩
  · refine ⟨h.phase, { h.fields with pending := ?_, dir := fun hne => h.fields.dir ?_ }⟩
    · exact Nat.le_trans (Nat.sub_le _ _) h.fields.pending
    · exact fun hzero => hne (by simp [hzero])

theorem xferToHost_sound {s : State} (h : Sound s) : Sound (xferToHost s) := by
  refine moveWindow_sound _ ⟨?_, ?_, ?_, ?_⟩
  · simpa using h.phase
  · simpa using h.fields
  · exact memReadState_mediaOk h.media
  · simpa using h.table

theorem xferFromHost_sound (v : Byte) {s : State} (h : Sound s) : Sound (xferFromHost v s) := by
  refine moveWindow_sound _ ⟨?_, ?_, ?_, ?_⟩
  · simpa using h.phase
  · simpa using h.fields
  · exact memWrite_mediaOk h.media _ _
  · simpa using h.table

theorem answerDraw_sound {s : State} (h : Sound s) : Sound (answerDraw s) := { h with }

theorem readResult_sound {s : State} (h : Sound s) (hphase : s.fdc.phase = .result) :
    Sound (readResult s) := by
  have hidx := h.phase
  simp only [PhaseOk, hphase] at hidx
  refine ⟨?_, ?_, by simpa using h.media, by simpa using h.table⟩ <;> rw [readResult_fdc] <;> split
  · rfl
  · simp [PhaseOk, hphase]; omega
  · exact { h.fields with }
  · exact { h.fields with }

/-! ### The bus operations (R101 to R121) -/

theorem dataPortRead_sound {s : State} (h : Sound s) : Sound (dataPortRead s) := by
  unfold dataPortRead
  split
  · exact execDone_sound (answerDraw_sound h)
  · split
    · exact xferToHost_sound h
    · exact answerDraw_sound h

theorem dataPortWrite_sound (v : Byte) {s : State} (h : Sound s) : Sound (dataPortWrite v s) := by
  unfold dataPortWrite
  split
  · exact execDone_sound h
  · split
    · exact xferFromHost_sound v h
    · exact h

theorem executionRead_sound {s : State} (h : Sound s) : Sound (executionRead s) := by
  unfold executionRead
  split
  · exact execDone_sound (answerDraw_sound h)
  · split
    · exact xferToHost_sound h
    · exact answerDraw_sound h

theorem executionWrite_sound (v : Byte) {s : State} (h : Sound s) : Sound (executionWrite v s) := by
  unfold executionWrite
  split
  · exact execDone_sound h
  · split
    · exact xferFromHost_sound v h
    · exact h

theorem dataRegisterRead_sound {s : State} (h : Sound s) : Sound (dataRegisterRead s) := by
  unfold dataRegisterRead
  split
  · exact answerDraw_sound h
  · exact answerDraw_sound h
  · exact executionRead_sound h
  · next hphase => exact readResult_sound h hphase

theorem dataRegisterWrite_sound (v : Byte) {s : State} (h : Sound s) :
    Sound (dataRegisterWrite v s) := by
  unfold dataRegisterWrite
  split
  · exact commandByte_sound v h
  · next hphase => exact parameterByte_sound v h hphase
  · exact executionWrite_sound v h
  · exact h

theorem softReset_sound {s : State} (h : Sound s) : Sound (softReset s) :=
  ⟨rfl, { h.fields with
    pending := Nat.zero_le _, dir := fun hne => absurd rfl hne, resLen := Nat.zero_le _ },
    h.media, h.table⟩

theorem dorWrite_sound (v : Byte) {s : State} (h : Sound s) : Sound (dorWrite v s) := by
  have hdor : Sound { s with fdc := { s.fdc with dor := v } } := { h with fields := { h.fields with } }
  unfold dorWrite
  split
  · exact hdor
  · exact softReset_sound hdor

theorem pinResetWrite_sound (v : Byte) {s : State} (h : Sound s) : Sound (pinResetWrite v s) := by
  unfold pinResetWrite
  split
  · exact softReset_sound h
  · exact h

theorem portBody_sound {i : Instr} {body : State → State} (hb : portBody i = some body) {s : State}
    (h : Sound s) : Sound (body s) := by
  cases i <;> cases hb
  case in0 | in1 => exact dataPortRead_sound h
  case out0 d | out1 d => exact dataPortWrite_sound d h
  case out2 d => exact dorWrite_sound d h
  case out4 d => exact pinResetWrite_sound d h
  case in5 => exact dataRegisterRead_sound h
  case out5 d => exact dataRegisterWrite_sound d h
  case out7 d => exact { h with fields := { h.fields with } }
  case in2 | in3 | in4 | in6 | in7 | out3 | out6 => exact { h with }

/-! ### Whole steps -/

theorem openStep_sound {s : State} (h : Sound s) : Sound (openStep s) := { h with }

/-- An access or operation that keeps soundness keeps the invariant as a step: the activity rule settles
what it leaves (R310). -/
theorem atomically_invariant {body : State → State} {s : State}
    (h : Sound (body (openStep s))) : Invariant (atomically body s) :=
  (invariant_iff _).2 ⟨activityRule_sound h, atomically_settled body s⟩

theorem writeByte_invariant {s : State} (h : Invariant s) (v : Byte) : Invariant (writeByte s v) :=
  (invariant_iff _).2
    ⟨activityRule_sound (dataRegisterWrite_sound v (sound_of_invariant h)), activityRule_settled _⟩

theorem foldl_writeByte_invariant (bytes : List Byte) {s : State} (h : Invariant s) :
    Invariant (bytes.foldl writeByte s) := by
  induction bytes generalizing s with
  | nil => exact h
  | cons b bytes ih => exact ih (writeByte_invariant h b)

theorem issue_invariant (bytes : List Byte) {s : State} (h : Invariant s) :
    Invariant (issue bytes s) :=
  foldl_writeByte_invariant bytes (s := openStep s) h

theorem exec_invariant {i : Instr} {s t : State} (h : Invariant s) (hexec : exec i s = .next t) :
    Invariant t := by
  obtain ⟨body, hb⟩ | ⟨bytes, hbytes⟩ := portBody_or_command i
  · rw [exec_of_portBody hb] at hexec
    cases hexec
    exact atomically_invariant (portBody_sound hb (openStep_sound (sound_of_invariant h)))
  · rw [exec_of_command hbytes] at hexec
    cases hexec
    exact issue_invariant bytes h

theorem powerOn_fieldsOk (p : Params) : FieldsOk (FdcState.powerOn p) :=
  ⟨Nat.zero_le _, fun hne => absurd rfl hne, by simp [StatusOk, FdcState.powerOn],
    by simp [AddressOk, FdcState.powerOn], Nat.zero_le _⟩

theorem hostBody_sound (op : HostOp) {s : State} (h : Sound s) : Sound (hostBody op s) := by
  cases op
  case load file =>
    exact ⟨h.phase, { h.fields with }, ⟨Memory.ofFile_wf file, nofun⟩, h.table⟩
  case eject =>
    rw [hostBody, ejectImage]
    split
    · exact ⟨rfl, { h.fields with
        pending := Nat.zero_le _, dir := fun hne => absurd rfl hne, resLen := Nat.zero_le _ },
        ⟨rfl, fun _ => rfl⟩, h.table⟩
    · exact { h with }
  case hardReset =>
    exact ⟨rfl, { powerOn_fieldsOk s.params with }, h.media, h.table⟩
  case loadFailed | mutationGate | fat => exact { h with }

theorem hostStep_invariant (op : HostOp) {s : State} (h : Invariant s) : Invariant (hostStep op s) :=
  atomically_invariant (hostBody_sound op (openStep_sound (sound_of_invariant h)))

end Sys2Proof.Machine

namespace Sys2Proof.Proofs

open Sys2Proof.Machine

/-- Settles O9: each clause is one about the literal power-on values. -/
theorem invariantHoldsAtReset : Obligations.InvariantHoldsAtReset :=
  (invariant_iff _).2
    ⟨⟨rfl, powerOn_fieldsOk _, ⟨rfl, fun _ => rfl⟩, by decide⟩, rfl⟩

/-- Settles O10: whatever the step runs keeps the invariant, and taking a request does not touch it. -/
theorem stepKeepsTheInvariant : Obligations.StepKeepsTheInvariant := by
  intro s t h hstep
  obtain hs | ⟨rest, hs⟩ := step_cases s
  · rw [hs] at hstep
    cases hstep
    exact h
  have htaken : Invariant { s with inputs := rest } := h
  obtain ⟨i, hs⟩ | ⟨bytes, hs⟩ | ⟨op, hs⟩ := hs <;> rw [hs] at hstep
  · exact exec_invariant htaken hstep
  · cases hstep; exact issue_invariant bytes htaken
  · cases hstep; exact hostStep_invariant op htaken

end Sys2Proof.Proofs
end

section
/-! What the status ports read (10_state.md R44, R45, R48, R50; 40_fdc_ports.md R103, R105, R107, R109), and the
state at power-on (R22, R41). -/

namespace Sys2Proof.Machine

/-! ### The main status register, by phase (R45) -/

theorem msr_of_idle {f : FdcState} (h : f.phase = .idle) : msr f = 0x80 := by
  simp [msr, dioBit, h]

theorem msr_of_command {f : FdcState} (h : f.phase = .command) : msr f = 0x90 := by
  simp [msr, dioBit, h]

/-- Only a window to the host sets DIO (R44). -/
theorem msr_of_execution {f : FdcState} (h : f.phase = .execution) :
    msr f = if f.xferDir = .toHost then 0xF0 else 0xB0 := by
  by_cases hdir : f.xferDir = .toHost <;> simp [msr, dioBit, h, hdir]

theorem msr_of_result {f : FdcState} (h : f.phase = .result) : msr f = 0xD0 := by
  simp [msr, dioBit, h]

/-! ### Status bits and answers -/

/-- R48: the status byte as a number, for a bit that says whether `c` holds. -/
theorem statusByte_of_iff (p : Params) {b : Bool} {c : Prop} [Decidable c] (h : b = true ↔ c) :
    statusByte p b = BitVec.ofNat 8 (if c then 2 ^ p.statusBitPos.val else 0) := by
  by_cases hc : c
  · exact BitVec.eq_of_toNat_eq (by simp [statusByte, h.2 hc, hc, Nat.one_shiftLeft])
  · simp [statusByte, mt h.1 hc, hc]

/-! What IN 7 does (R107): it answers the "media changed" latch and clears it. -/

@[simp] theorem mediaChangedRead_result (s : State) :
    (mediaChangedRead s).result = .byte (statusByte s.params s.media.changed) := rfl

@[simp] theorem mediaChangedRead_fdc (s : State) : (mediaChangedRead s).fdc = s.fdc := rfl

@[simp] theorem mediaChangedRead_media (s : State) :
    (mediaChangedRead s).media = { s.media with changed := false } := rfl

@[simp] theorem mediaChangedRead_draws (s : State) : (mediaChangedRead s).draws = s.draws := rfl

/-- A read that only answers sets the result of its step and nothing else, but for the reported
activity. -/
theorem exec_of_answer {i : Instr} {body : State → State} {s : State} {r : StepResult}
    (hi : portBody i = some body) (hb : body (openStep s) = answer r (openStep s)) :
    ∃ t, exec i s = .next t ∧ t.result = r ∧
      t.fdc = { s.fdc with activeReported := ioActive s } ∧ SameOutsideFdc s t := by
  have hactive : ioActive (answer r (openStep s)) = ioActive s := ioActive_congr rfl rfl rfl
  exact ⟨_, exec_of_portBody hi s, by simp [hb, hactive, SameOutsideFdc]⟩

end Sys2Proof.Machine

namespace Sys2Proof.Proofs

open Sys2Proof.Machine

/-- Settles O17: IN 4 only answers, with the main status register. -/
theorem mainStatusReadsThePhase : Obligations.MainStatusReadsThePhase := by
  intro d s
  obtain ⟨t, hexec, hresult, hframe⟩ :=
    exec_of_answer (i := .in4 d) (body := msrRead) (s := s) rfl rfl
  refine ⟨t, hexec, hresult.trans ?_, hframe⟩
  split
  · next hphase => rw [openStep_fdc, msr_of_idle hphase]
  · next hphase => rw [openStep_fdc, msr_of_command hphase]
  · next hphase => rw [openStep_fdc, msr_of_execution hphase]
  · next hphase => rw [openStep_fdc, msr_of_result hphase]

/-- Settles O18: IN 2 and IN 3 only answer; IN 7 answers and clears the latch. -/
theorem statusBitPortsReadOneBit : Obligations.StatusBitPortsReadOneBit := by
  intro d s
  refine ⟨?drq, ?irq, ?changed⟩
  case drq =>
    obtain ⟨t, hexec, hresult, hframe⟩ :=
      exec_of_answer (i := .in2 d) (body := drqRead) (s := s) rfl rfl
    exact ⟨t, hexec, hresult.trans (congrArg _ (statusByte_of_iff _ decide_eq_true_iff)), hframe⟩
  case irq =>
    obtain ⟨t, hexec, hresult, hframe⟩ :=
      exec_of_answer (i := .in3 d) (body := irqRead) (s := s) rfl rfl
    exact ⟨t, hexec, hresult.trans (congrArg _ (statusByte_of_iff _ Iff.rfl)), hframe⟩
  case changed =>
    have hactive : ioActive (mediaChangedRead (openStep s)) = ioActive s := ioActive_congr rfl rfl rfl
    refine ⟨_, exec_of_portBody (body := mediaChangedRead) rfl s, ?_, by simp, by simp [hactive],
      by simp, by simp, by simp⟩
    rw [atomically_result, mediaChangedRead_result]
    exact congrArg _ (statusByte_of_iff _ Iff.rfl)

/-- Settles O41: the values of the model's power-on state, written out. -/
theorem resetStateIsTheSpecs : Obligations.ResetStateIsTheSpecs := ⟨rfl, rfl⟩

end Sys2Proof.Proofs
end

section
/-! Who writes dor, speed, nonDma and pcn (10_state.md R34, R36, R49, R51): every access and host operation
keeps all four, but for the two latch ports, a completed command and hard reset. -/

namespace Sys2Proof

/-- R81: a word is the encoding of the instruction it decodes to. -/
theorem encode_decodeBus (w : BitVec 12) : encode (decodeBus w) = .bus w := by
  have hword {n : Nat} (h : (busSelector w).toNat = n) :
      busWord (BitVec.ofNat 4 n) (busData w) = w := by
    rw [← h, BitVec.ofNat_toNat, BitVec.setWidth_eq, busWord_fields]
  obtain ⟨n, h⟩ : ∃ n, (busSelector w).toNat = n := ⟨_, rfl⟩
  have hlt : n < 16 := h ▸ (busSelector w).isLt
  unfold decodeBus
  rw [h]
  interval_cases n <;> exact congrArg _ (hword h)

end Sys2Proof

namespace Sys2Proof.Machine

/-- A bus operation word is one atomic port access (R81, R12). -/
theorem portBody_decodeBus (w : BitVec 12) : ∃ body, portBody (decodeBus w) = some body := by
  obtain hbody | ⟨bs, hbs⟩ := portBody_or_command (decodeBus w)
  · exact hbody
  · rw [encode_decodeBus] at hbs
    cases hbs

/-! ### The four registers -/

/-- The registers of FdcState that only their owners write. -/
def ownedRegs (f : FdcState) : Byte × BitVec 2 × Bool × Byte := (f.dor, f.speed, f.nonDma, f.pcn)

theorem xferToHost_ownedRegs (s : State) : ownedRegs (xferToHost s).fdc = ownedRegs s.fdc := by
  rw [xferToHost_fdc]; split <;> rfl

theorem xferFromHost_ownedRegs (v : Byte) (s : State) :
    ownedRegs (xferFromHost v s).fdc = ownedRegs s.fdc := by
  rw [xferFromHost_fdc]; split <;> rfl

theorem readResult_ownedRegs (s : State) : ownedRegs (readResult s).fdc = ownedRegs s.fdc := by
  rw [readResult_fdc]; split <;> rfl

theorem dataPortRead_ownedRegs (s : State) : ownedRegs (dataPortRead s).fdc = ownedRegs s.fdc := by
  unfold dataPortRead
  split
  · rfl
  · split
    · exact xferToHost_ownedRegs s
    · rfl

theorem dataPortWrite_ownedRegs (v : Byte) (s : State) :
    ownedRegs (dataPortWrite v s).fdc = ownedRegs s.fdc := by
  unfold dataPortWrite
  split
  · rfl
  · split
    · exact xferFromHost_ownedRegs v s
    · rfl

theorem executionRead_ownedRegs (s : State) : ownedRegs (executionRead s).fdc = ownedRegs s.fdc := by
  unfold executionRead
  split
  · rfl
  · split
    · exact xferToHost_ownedRegs s
    · rfl

theorem executionWrite_ownedRegs (v : Byte) (s : State) :
    ownedRegs (executionWrite v s).fdc = ownedRegs s.fdc := by
  unfold executionWrite
  split
  · rfl
  · split
    · exact xferFromHost_ownedRegs v s
    · rfl

theorem dataRegisterRead_ownedRegs (s : State) :
    ownedRegs (dataRegisterRead s).fdc = ownedRegs s.fdc := by
  unfold dataRegisterRead
  split
  · rfl
  · rfl
  · exact executionRead_ownedRegs s
  · exact readResult_ownedRegs s

theorem pinResetWrite_ownedRegs (v : Byte) (s : State) :
    ownedRegs (pinResetWrite v s).fdc = ownedRegs s.fdc := by
  unfold pinResetWrite; split <;> rfl

/-- R104: dor takes the byte, with or without a soft reset. -/
theorem dorWrite_ownedRegs (v : Byte) (s : State) :
    ownedRegs (dorWrite v s).fdc = ownedRegs { s.fdc with dor := v } := by
  unfold dorWrite; split <;> rfl

theorem hostBody_ownedRegs {op : HostOp} (h : op ≠ .hardReset) (s : State) :
    ownedRegs (hostBody op s).fdc = ownedRegs s.fdc := by
  cases op
  case hardReset => exact absurd rfl h
  case eject => rw [hostBody, ejectImage]; split <;> rfl
  case load | loadFailed | mutationGate | fat => rfl

/-! ### A completed command (R110, R111, R140) -/

/-- A write of port 5 either leaves the four registers alone, or completes a command in this step and
runs the handler of its table entry. -/
theorem dataRegisterWrite_keeps_or_completes (d : Byte) (s : State) :
    ownedRegs (dataRegisterWrite d s).fdc = ownedRegs s.fdc ∨
      ∃ u, dataRegisterWrite d s = runHandler u ∧ ownedRegs u.fdc = ownedRegs s.fdc ∧
        CompletesCommand s d (entryOf u.params (opCmd u.fdc)).handler := by
  unfold dataRegisterWrite
  split
  case h_1 hphase =>
    unfold commandByte
    split
    · next hlen =>
      have hcount : cmdCount (entryOf s.params d) = 1 := Nat.max_eq_right hlen
      exact .inr ⟨_, rfl, rfl, .inl ⟨hphase, hcount, by simp [opCmd]⟩⟩
    · exact .inl rfl
  case h_2 hphase =>
    unfold parameterByte
    split
    · next hcomplete =>
      have hcount := of_decide_eq_true hcomplete
      exact .inr ⟨_, rfl, rfl,
        .inr ⟨hphase, _, opCmd_receiveParameter d s, hcount, rfl⟩⟩
    · exact .inl rfl
  case h_3 => exact .inl (executionWrite_ownedRegs d s)
  case h_4 => exact .inl rfl

/-- `t` differs from `s` in one of the four registers only where `i` is the port access that owns it. -/
structure OwnersWrite (i : Instr) (s t : State) : Prop where
  dor : t.fdc.dor ≠ s.fdc.dor → ∃ d, i = .out2 d
  speed : t.fdc.speed ≠ s.fdc.speed → ∃ d, i = .out7 d
  nonDma : t.fdc.nonDma ≠ s.fdc.nonDma → ∃ d, i = .out5 d ∧ CompletesCommand s d .specify
  pcn : t.fdc.pcn ≠ s.fdc.pcn → ∃ d, i = .out5 d ∧
    (CompletesCommand s d .seek ∨ CompletesCommand s d .recalibrate)

theorem ownedRegs_eq_iff (f g : FdcState) :
    ownedRegs f = ownedRegs g ↔
      f.dor = g.dor ∧ f.speed = g.speed ∧ f.nonDma = g.nonDma ∧ f.pcn = g.pcn := by
  simp [ownedRegs]

theorem ownersWrite_of_kept {i : Instr} {s t : State} (h : ownedRegs t.fdc = ownedRegs s.fdc) :
    OwnersWrite i s t := by
  obtain ⟨hdor, hspeed, hnonDma, hpcn⟩ := (ownedRegs_eq_iff _ _).1 h
  exact ⟨absurd hdor, absurd hspeed, absurd hnonDma, absurd hpcn⟩

theorem dataRegisterWrite_ownersWrite (d : Byte) (s : State) :
    OwnersWrite (.out5 d) s (dataRegisterWrite d s) := by
  obtain hkept | ⟨u, hrun, hu, hcompletes⟩ := dataRegisterWrite_keeps_or_completes d s
  · exact ownersWrite_of_kept hkept
  rw [hrun]
  obtain ⟨hdor, hspeed, hnonDma, hpcn⟩ := (ownedRegs_eq_iff _ _).1 hu
  obtain ⟨kdor, kspeed, knonDma, kpcn, -⟩ := handle_keeps (entryOf u.params (opCmd u.fdc)).handler
    { u with fdc := { u.fdc with
      lastCmd := opCmd u.fdc, resLen := (entryOf u.params (opCmd u.fdc)).resLen } }
  refine ⟨absurd (kdor.trans hdor), absurd (kspeed.trans hspeed), fun hne => ⟨d, rfl, ?_⟩,
    fun hne => ⟨d, rfl, ?_⟩⟩
  · by_cases hh : (entryOf u.params (opCmd u.fdc)).handler = .specify
    · exact hh ▸ hcompletes
    · exact absurd ((knonDma hh).trans hnonDma) hne
  · by_cases hseek : (entryOf u.params (opCmd u.fdc)).handler = .seek
    · exact .inl (hseek ▸ hcompletes)
    by_cases hrecal : (entryOf u.params (opCmd u.fdc)).handler = .recalibrate
    · exact .inr (hrecal ▸ hcompletes)
    · exact absurd ((kpcn hseek hrecal).trans hpcn) hne

/-- Every port access writes the four registers as their owner only. -/
theorem portBody_ownersWrite {i : Instr} {body : State → State} (hb : portBody i = some body)
    (s : State) : OwnersWrite i s (body s) := by
  cases i <;> cases hb
  case out2 d =>
    obtain ⟨-, hspeed, hnonDma, hpcn⟩ := (ownedRegs_eq_iff _ _).1 (dorWrite_ownedRegs d s)
    exact ⟨fun _ => ⟨d, rfl⟩, absurd hspeed, absurd hnonDma, absurd hpcn⟩
  case out7 d => exact ⟨absurd rfl, fun _ => ⟨d, rfl⟩, absurd rfl, absurd rfl⟩
  case out5 d => exact dataRegisterWrite_ownersWrite d s
  case in0 | in1 => exact ownersWrite_of_kept (dataPortRead_ownedRegs s)
  case out0 d | out1 d => exact ownersWrite_of_kept (dataPortWrite_ownedRegs d s)
  case in5 => exact ownersWrite_of_kept (dataRegisterRead_ownedRegs s)
  case out4 d => exact ownersWrite_of_kept (pinResetWrite_ownedRegs d s)
  case in2 | in3 | in4 | in6 | in7 | out3 | out6 => exact ownersWrite_of_kept rfl

end Sys2Proof.Machine

namespace Sys2Proof.Proofs

open Sys2Proof.Machine

/-- Settles O15: a bus word is the access it decodes to, a host operation keeps all four registers, and
the frame of the step touches neither. -/
theorem registersAreWrittenOnlyByTheirOwners : Obligations.RegistersAreWrittenOnlyByTheirOwners := by
  intro s t r rest hin hsingle hstep hhard
  cases r with
  | host op =>
    rw [step_of_host hin] at hstep
    cases hstep
    have hop : op ≠ .hardReset := fun h => hhard (congrArg _ h)
    obtain ⟨hdor, hspeed, hnonDma, hpcn⟩ := (ownedRegs_eq_iff _ _).1
      (hostBody_ownedRegs hop (openStep { s with inputs := rest }))
    simp [hostStep, hdor, hspeed, hnonDma, hpcn]
  | cpu code =>
    cases code with
    | command bytes => cases hsingle
    | bus w =>
      obtain ⟨body, hb⟩ := portBody_decodeBus w
      rw [step_of_decode_ok hin rfl, exec_of_portBody hb] at hstep
      cases hstep
      have hw {i : Instr} {code : Encoded} (h : decodeBus w = i) (hi : encode i = code) :
          Request.cpu (.bus w) = .cpu code := by
        rw [← hi, ← h, encode_decodeBus]
      obtain ⟨hdor, hspeed, hnonDma, hpcn⟩ :=
        portBody_ownersWrite hb (openStep { s with inputs := rest })
      simp only [atomically_fdc]
      refine ⟨fun hne => ?_, fun hne => ?_, fun hne => ?_, fun hne => ?_⟩
      · obtain ⟨d, hd⟩ := hdor hne
        exact ⟨d, hw hd rfl⟩
      · obtain ⟨d, hd⟩ := hspeed hne
        exact ⟨d, hw hd rfl⟩
      · obtain ⟨d, hd, hcompletes⟩ := hnonDma hne
        exact ⟨d, hw hd rfl, hcompletes⟩
      · obtain ⟨d, hd, hcompletes⟩ := hpcn hne
        exact ⟨d, hw hd rfl, hcompletes⟩

end Sys2Proof.Proofs
end

section
/-! The image as the FDC and the FAT12 units access it (20_memory.md R62, R63, R64, R69, R72): a read
after a write, a range read byte by byte, and the LBA formula on the geometry. -/

namespace Sys2Proof.Machine

/-! ### Reads after writes (R62, R63) -/

theorem inImage_iff {s : State} {off : Int} :
    inImage s off = true ↔ 0 ≤ off ∧ off < (s.media.img.size : Int) := by
  simp [inImage]

/-- The image never grows or shrinks by a write (R63). -/
@[simp] theorem inImage_memWrite (off o : Int) (v : Byte) (s : State) :
    inImage (memWrite off v s) o = inImage s o := by
  simp [inImage]

theorem memWrite_outside {off : Int} {v : Byte} {s : State} (hp : s.media.present = true)
    (hoff : off < 0 ∨ (s.media.img.size : Int) ≤ off) : memWrite off v s = s := by
  have hout : ¬ inImage s off = true := by rw [inImage_iff]; omega
  rw [memWrite, if_pos hp, if_neg hout]

theorem memReadByte_memWrite_self {off : Int} {v : Byte} {s : State} (hp : s.media.present = true)
    (hw : s.media.img.wf = true) (hin : inImage s off = true) :
    memReadByte off (memWrite off v s) = v := by
  obtain ⟨hlo, hhi⟩ := inImage_iff.1 hin
  lift off to Nat using hlo
  simpa [memReadByte, hp, hin] using memWrite_read_self hp hw (by omega)

/-- No other offset sees a write, whether or not the write lands in the image (R63). -/
theorem memReadByte_memWrite_other {off o : Int} {v : Byte} {s : State} (ho : o ≠ off) :
    memReadByte o (memWrite off v s) = memReadByte o s := by
  simp only [memReadByte, memWrite_present, inImage_memWrite]
  split
  · next h =>
    have hin : 0 ≤ o := (inImage_iff.1 (Bool.and_eq_true_iff.1 h).2).1
    exact memWrite_read_other (by omega)
  · rfl

/-! ### Range reads (R64) -/

theorem rangeRead_getElem? {m : MediaStore} {off : Int} {n i : Nat} {bs : List Byte}
    (h : rangeRead m off n = some bs) (hi : i < n) :
    bs[i]? = some (m.img.read (off.toNat + i)) := by
  obtain ⟨-, -, -, hlen, hbytes⟩ := rangeRead_some h
  have hi' : i < bs.length := hlen.symm ▸ hi
  rw [← hbytes i hi, List.getD_eq_getElem bs 0 hi', List.getElem?_eq_getElem hi']

/-! ### The LBA on the geometry (R69) -/

/-- R69: a cylinder, head and sector of the geometry. -/
structure OnGeometry (c h r : Byte) : Prop where
  cylinder : c.toNat ≤ 79
  head : h.toNat ≤ 1
  sector_pos : 1 ≤ r.toNat
  sector_le : r.toNat ≤ 18

theorem lbaOf_range_of_onGeometry {c h r : Byte} (hg : OnGeometry c h r) :
    0 ≤ lbaOf c h r ∧ lbaOf c h r ≤ 2879 := by
  obtain ⟨hc, hh, hr1, hr2⟩ := hg
  unfold lbaOf
  omega

/-- The formula is the mixed-radix value of `(C, H, R - 1)` with `H < 2` and `R - 1 < 18`, so its digits
are determined by it. -/
theorem lbaOf_injective_of_onGeometry {c h r c' h' r' : Byte} (hg : OnGeometry c h r)
    (hg' : OnGeometry c' h' r') (heq : lbaOf c' h' r' = lbaOf c h r) : c' = c ∧ h' = h ∧ r' = r := by
  obtain ⟨-, hh, hr1, hr2⟩ := hg
  obtain ⟨-, hh', hr1', hr2'⟩ := hg'
  unfold lbaOf at heq
  have hdigits : c'.toNat = c.toNat ∧ h'.toNat = h.toNat ∧ r'.toNat = r.toNat := by omega
  exact ⟨BitVec.eq_of_toNat_eq hdigits.1, BitVec.eq_of_toNat_eq hdigits.2.1,
    BitVec.eq_of_toNat_eq hdigits.2.2⟩

end Sys2Proof.Machine

namespace Sys2Proof.Proofs

open Sys2Proof.Machine

/-- Settles O56: at the offset written the canonical form makes the read see the write; every other
offset, and the cases where the write is dropped, need neither it nor the bounds. -/
theorem imageWriteThenReadGivesTheByte : Obligations.ImageWriteThenReadGivesTheByte :=
  ⟨fun _ _ _ hp hw hlo hhi =>
      ⟨memReadByte_memWrite_self hp hw (inImage_iff.2 ⟨hlo, hhi⟩),
        fun _ ho => memReadByte_memWrite_other ho⟩,
    fun _ _ _ hp hoff => memWrite_outside hp hoff,
    fun _ _ _ habsent => memWrite_absent habsent⟩

/-- Settles O40: the formula is the definition, and the bounds on all bytes are those the invariant
uses. -/
theorem lbaIsInjectiveAndBounded : Obligations.LbaIsInjectiveAndBounded := by
  refine ⟨fun _ _ _ => rfl, fun c h r hc hh hr1 hr2 => ?geometry, lbaOf_range, by decide, by decide⟩
  have hg : OnGeometry c h r := ⟨hc, hh, hr1, hr2⟩
  obtain ⟨hlo, hhi⟩ := lbaOf_range_of_onGeometry hg
  exact ⟨hlo, hhi, fun c' h' r' hc' hh' hr1' hr2' heq =>
    lbaOf_injective_of_onGeometry hg ⟨hc', hh', hr1', hr2'⟩ heq⟩

/-- Settles O59, by the rules of a range read that fails and of one that succeeds. -/
theorem rangeReadGivesTheImageBytes : Obligations.RangeReadGivesTheImageBytes := fun _ _ _ =>
  ⟨rangeRead_eq_none, fun _ hread =>
    ⟨rangeRead_length hread, fun _ hi => rangeRead_getElem? hread hi⟩⟩

end Sys2Proof.Proofs
end

section
/-! The decoder and the encoder are inverse (30_encoding.md R80 to R85): a word or a byte sequence decodes to
the instruction that encodes to it, and how many bytes a command has is its first byte's (R83, R89). -/

namespace Sys2Proof

/-! ### Decoding an encoding -/

/-- R81: the word of a bus operation selects its own row. -/
theorem decodeBus_of_encode {i : Instr} {w : BitVec 12} (h : encode i = .bus w) :
    decodeBus w = i := by
  cases i
  case in0 | in1 | in2 | in3 | in4 | in5 | in6 | in7 | out0 | out1 | out2 | out3 | out4 | out5 | out6
      | out7 => cases h; simp [decodeBus]
  all_goals cases h

/-- R82, R85: the bytes of a command select its own row, and the bytes after them are left. -/
theorem decodeCommand_of_encode {i : Instr} {bs : List Byte} (h : encode i = .command bs)
    (rest : List Byte) : decodeCommand (bs ++ rest) = .ok (i, rest) := by
  cases i
  case in0 | in1 | in2 | in3 | in4 | in5 | in6 | in7 | out0 | out1 | out2 | out3 | out4 | out5 | out6
      | out7 => cases h
  case senseDriveStatus | recalibrate | readId => cases h; simp [decodeCommand, take1]
  case specify | seek => cases h; simp [decodeCommand, take2]
  case formatTrack => cases h; simp [decodeCommand, take5]
  case readTrack | writeData | readData | writeDeletedData | readDeletedData | scanEqual
      | scanLowOrEqual | scanHighOrEqual => cases h; simp [decodeCommand, take8]
  all_goals cases h; simp [decodeCommand]

theorem decode_of_encode {i : Instr} {code : Encoded} (h : encode i = code) :
    decode code = .ok (i, []) := by
  cases code with
  | bus w => rw [decode, decodeBus_of_encode h]
  | command bs => simpa [decode] using decodeCommand_of_encode h []

/-! ### What the decoder does with the bytes after a command byte -/

theorem take1_ok_iff (b : Byte) (ps : List Byte) (f : Byte → Instr) :
    (∃ r, take1 b ps f = .ok r) ↔ 1 ≤ ps.length := by
  match ps with
  | [] | _ :: _ => simp [take1]

theorem take2_ok_iff (b : Byte) (ps : List Byte) (f : Byte → Byte → Instr) :
    (∃ r, take2 b ps f = .ok r) ↔ 2 ≤ ps.length := by
  match ps with
  | [] | [_] | _ :: _ :: _ => simp [take2]

theorem take5_ok_iff (b : Byte) (ps : List Byte) (f : Byte → Byte → Byte → Byte → Byte → Instr) :
    (∃ r, take5 b ps f = .ok r) ↔ 5 ≤ ps.length := by
  match ps with
  | [] | [_] | [_, _] | [_, _, _] | [_, _, _, _] | _ :: _ :: _ :: _ :: _ :: _ => simp [take5]

theorem take8_ok_iff (b : Byte) (ps : List Byte)
    (f : Byte → Byte → Byte → Byte → Byte → Byte → Byte → Byte → Instr) :
    (∃ r, take8 b ps f = .ok r) ↔ 8 ≤ ps.length := by
  match ps with
  | [] | [_] | [_, _] | [_, _, _] | [_, _, _, _] | [_, _, _, _, _] | [_, _, _, _, _, _]
    | [_, _, _, _, _, _, _] | _ :: _ :: _ :: _ :: _ :: _ :: _ :: _ :: _ => simp [take8]

/-- The five forms in which a row of the decoder reads the parameter bytes `ps` after its command byte
`b` (R85): how many bytes a command of the row has, and what is read. `decodeCommand_reads` ties it to
the decoder. -/
inductive ReadsCommand (b : Byte) (ps : List Byte) :
    Nat → Except DecodeError (Instr × List Byte) → Prop where
  | none {i : Instr} (h : encode i = .command [b]) : ReadsCommand b ps 1 (.ok (i, ps))
  | one {f : Byte → Instr} (h : ∀ p1, encode (f p1) = .command [b, p1]) :
      ReadsCommand b ps 2 (take1 b ps f)
  | two {f : Byte → Byte → Instr} (h : ∀ p1 p2, encode (f p1 p2) = .command [b, p1, p2]) :
      ReadsCommand b ps 3 (take2 b ps f)
  | five {f : Byte → Byte → Byte → Byte → Byte → Instr}
      (h : ∀ p1 p2 p3 p4 p5, encode (f p1 p2 p3 p4 p5) = .command [b, p1, p2, p3, p4, p5]) :
      ReadsCommand b ps 6 (take5 b ps f)
  | eight {f : Byte → Byte → Byte → Byte → Byte → Byte → Byte → Byte → Instr}
      (h : ∀ p1 p2 p3 p4 p5 p6 p7 p8,
        encode (f p1 p2 p3 p4 p5 p6 p7 p8) = .command [b, p1, p2, p3, p4, p5, p6, p7, p8]) :
      ReadsCommand b ps 9 (take8 b ps f)

/-- R82 to R85: every row reads its parameter bytes in one of the five forms, as many bytes as the
default table says. -/
theorem decodeCommand_reads (b : Byte) (ps : List Byte) :
    ReadsCommand b ps (Machine.entryOf Config.defaultParams b).cmdLen (decodeCommand (b :: ps)) := by
  obtain ⟨opt, n, hn, rfl⟩ : ∃ opt n, ∃ hn : n < 32, b = cmdByte opt (.ofFin ⟨n, hn⟩) :=
    ⟨_, _, (cmdIndex b).isLt, (cmdByte_fields b).symm⟩
  simp only [decodeCommand, Machine.entryOf_cmdByte, cmdIndex_cmdByte, cmdOpt_cmdByte]
  match n, hn with
  | 0x04, _ | 0x07, _ | 0x0A, _ => exact .one fun _ => rfl
  | 0x03, _ | 0x0F, _ => exact .two fun _ _ => rfl
  | 0x0D, _ => exact .five fun _ _ _ _ _ => rfl
  | 0x02, _ | 0x05, _ | 0x06, _ | 0x09, _ | 0x0C, _ | 0x11, _ | 0x19, _ | 0x1D, _ =>
    exact .eight fun _ _ _ _ _ _ _ _ => rfl
  | 0x00, _ | 0x01, _ | 0x08, _ | 0x0B, _ | 0x0E, _ | 0x10, _ | 0x12, _ | 0x13, _ | 0x14, _ | 0x15, _
    | 0x16, _ | 0x17, _ | 0x18, _ | 0x1A, _ | 0x1B, _ | 0x1C, _ | 0x1E, _ | 0x1F, _ =>
    exact .none rfl
  | n + 32, hn => omega

/-- What a row reads is the encoding of the instruction it gives. -/
theorem ReadsCommand.encode_of_ok {b : Byte} {ps rest : List Byte} {n : Nat} {i : Instr}
    {x : Except DecodeError (Instr × List Byte)} (hr : ReadsCommand b ps n x)
    (h : x = .ok (i, rest)) : ∃ pre, encode i = .command pre ∧ b :: ps = pre ++ rest := by
  cases hr with
  | none he => cases h; exact ⟨_, he, rfl⟩
  | one he => obtain ⟨_, rfl, rfl⟩ := take1_ok h; exact ⟨_, he _, rfl⟩
  | two he => obtain ⟨_, _, rfl, rfl⟩ := take2_ok h; exact ⟨_, he _ _, rfl⟩
  | five he => obtain ⟨_, _, _, _, _, rfl, rfl⟩ := take5_ok h; exact ⟨_, he _ _ _ _ _, rfl⟩
  | eight he =>
    obtain ⟨_, _, _, _, _, _, _, _, rfl, rfl⟩ := take8_ok h
    exact ⟨_, he _ _ _ _ _ _ _ _, rfl⟩

/-- A row reads a command exactly where there are enough bytes for its form (R83). -/
theorem ReadsCommand.ok_iff {b : Byte} {ps : List Byte} {n : Nat}
    {x : Except DecodeError (Instr × List Byte)} (hr : ReadsCommand b ps n x) :
    (∃ r, x = .ok r) ↔ n ≤ ps.length + 1 := by
  cases hr with
  | none => simp
  | one => rw [take1_ok_iff, Nat.add_le_add_iff_right (n := 1)]
  | two => rw [take2_ok_iff, Nat.add_le_add_iff_right (n := 1)]
  | five => rw [take5_ok_iff, Nat.add_le_add_iff_right (n := 1)]
  | eight => rw [take8_ok_iff, Nat.add_le_add_iff_right (n := 1)]

theorem encode_of_decodeCommand {bs rest : List Byte} {i : Instr}
    (h : decodeCommand bs = .ok (i, rest)) : ∃ pre, encode i = .command pre ∧ bs = pre ++ rest := by
  cases bs with
  | nil => cases h
  | cons b ps => exact (decodeCommand_reads b ps).encode_of_ok h

/-- R83, R89: whether bytes hold a whole command is settled by the first byte and their number. -/
theorem decodeCommand_ok_iff (b : Byte) (ps : List Byte) :
    (∃ r, decodeCommand (b :: ps) = .ok r) ↔
      (Machine.entryOf Config.defaultParams b).cmdLen ≤ ps.length + 1 :=
  (decodeCommand_reads b ps).ok_iff

end Sys2Proof

namespace Sys2Proof.Proofs

open Sys2Proof.Machine

/-- Settles O1: a bus word and a byte sequence each select the row they came from. -/
theorem decodeAfterEncodeIsIdentity : Obligations.DecodeAfterEncodeIsIdentity := fun _ =>
  ⟨decode_of_encode rfl, fun _ rest h => decodeCommand_of_encode h rest⟩

/-- Settles O2: the instruction is the one the word decodes to. -/
theorem everyBusWordDecodesAndEncodesBack : Obligations.EveryBusWordDecodesAndEncodesBack :=
  fun w => ⟨decodeBus w, rfl, encode_decodeBus w⟩

/-- Settles O3: both halves hold of each of the five forms in which a row reads its bytes. -/
theorem decodedCommandIsItsBytes : Obligations.DecodedCommandIsItsBytes :=
  ⟨fun _ _ _ h => encode_of_decodeCommand h, decodeCommand_ok_iff⟩

/-- Settles O4: each sample is the encoding of its instruction. -/
theorem sampleWordsDecode : Obligations.SampleWordsDecode := by
  refine ⟨?_, ?_, ?_, ?_, ?_, ?_, ?_, ?_, ?_, ?_⟩ <;> exact decode_of_encode rfl

end Sys2Proof.Proofs
end

section
/-! Requests that are bytes of a command: an instruction word placed as the next request (30_encoding.md
R80, log 1, log 15), and a byte sequence that ends within its command (R89, log 5). -/

namespace Sys2Proof.Machine

/-- The bytes that `firstCommand` keeps are those of the command that the decoder reads (R82). -/
theorem encode_eq_firstCommand {bytes left : List Byte} {i : Instr}
    (h : decodeCommand bytes = .ok (i, left)) : encode i = .command (firstCommand bytes) := by
  obtain ⟨pre, hpre, rfl⟩ := encode_of_decodeCommand h
  simp [firstCommand, h, hpre]

/-- A table word is placed as the encoding of its instruction, with no parameter byte too many. -/
theorem withFetchWord_of_decodeTableWord {nbits w : Nat} {i : Instr}
    (h : decodeTableWord nbits w = some i) (s : State) :
    s.withFetchWord nbits w = { s with inputs := .cpu (encode i) :: s.inputs } := by
  unfold decodeTableWord at h
  split at h
  · cases h
  · next code hlay =>
    split at h
    · next j left hdecode =>
      cases h
      rw [State.withFetchWord, placeFirst, hlay]
      cases code with
      | bus word => cases hdecode; rw [encode_decodeBus]
      | command bytes => rw [encode_eq_firstCommand hdecode]
    · cases h

theorem entryOf_of_defaultTable {s : State} (h : DefaultTable s) (b : Byte) :
    entryOf s.params b = entryOf Config.defaultParams b := by
  simp only [entryOf, show s.params.table = Config.defaultTable from h]; rfl

/-- R83, R89: bytes fewer than the first one asks for are no command. -/
theorem decodeCommand_error_of_short {s : State} (htable : DefaultTable s) {b : Byte} {ps : List Byte}
    (hshort : ps.length + 1 < cmdCount (entryOf s.params b)) :
    ∃ e, decodeCommand (b :: ps) = .error e := by
  rw [entryOf_of_defaultTable htable, cmdCount] at hshort
  cases h : decodeCommand (b :: ps) with
  | error e => exact ⟨e, rfl⟩
  | ok r =>
    have hlen := (decodeCommand_ok_iff b ps).1 ⟨r, h⟩
    omega

/-- Bytes fewer than the first one asks for, issued from Idle phase, are all stored (R110, R111). -/
theorem issue_of_short {s : State} (hidle : s.fdc.phase = .idle) {b : Byte} {ps : List Byte}
    (hshort : ps.length + 1 < cmdCount (entryOf s.params b)) :
    issue (b :: ps) s = underWay (b :: ps) s := by
  have hfirst : 1 < (entryOf s.params b).cmdLen := by rw [cmdCount] at hshort; omega
  rw [issue, List.foldl_cons, writeByte_first hidle hfirst, foldl_writeByte_underWay [] ps (by simpa)]
  rfl

end Sys2Proof.Machine

namespace Sys2Proof.Proofs

open Sys2Proof.Machine

/-- Settles O7: what is placed is the encoding of the instruction, which decodes to it with no byte
left to request. -/
theorem placedTableWordRuns : Obligations.PlacedTableWordRuns := by
  intro s nbits w i h
  rw [withFetchWord_of_decodeTableWord h, step_of_decode_ok rfl (decode_of_encode rfl)]
  rfl

/-- Settles O38: the bytes are no whole command, so the step issues them, and none completes the
command. -/
theorem incompleteCommandWaits : Obligations.IncompleteCommandWaits := by
  intro b ps rest s hidle htable hshort hin
  obtain ⟨e, he⟩ := decodeCommand_error_of_short htable hshort
  refine ⟨underWay (b :: ps) { s with inputs := rest }, ?_, ?_, rfl, rfl, rfl, rfl⟩
  · rw [step_of_decodeCommand_error hin he]
    exact congrArg _ (issue_of_short (s := { s with inputs := rest }) hidle hshort)
  · rw [← underWay_settled]
    rfl

end Sys2Proof.Proofs
end

section
/-! A command row against its bytes as single OUT 5 accesses (30_encoding.md R90, 00_scope.md R12, log 4): a
port 5 write reads neither the outputs of the last step nor the requests, so clearing the outputs
between the bytes makes no difference to the machine. -/

namespace Sys2Proof.Machine

/-! ### The machine without its outputs and requests -/

/-- `t` is `s` but for the step's outputs and the pending requests. -/
structure SameMachine (s t : State) : Prop where
  fdc : t.fdc = s.fdc
  media : t.media = s.media
  params : t.params = s.params
  draws : t.draws = s.draws

theorem SameMachine.ioActive_eq {s t : State} (h : SameMachine s t) : ioActive t = ioActive s :=
  ioActive_congr (by rw [h.media]) (by rw [h.fdc]) (by rw [h.fdc])

theorem SameMachine.openStep {s t : State} (h : SameMachine s t) : SameMachine s (openStep t) :=
  { h with }

theorem activityRule_congr {s t : State} (h : SameMachine s t) :
    SameMachine (activityRule s) (activityRule t) := by
  constructor <;> simp [h.fdc, h.media, h.params, h.draws, h.ioActive_eq]

/-! ### Media writes -/

theorem memWrite_media_congr (off : Int) (v : Byte) {s t : State} (h : t.media = s.media) :
    (memWrite off v t).media = (memWrite off v s).media := by
  simp [memWrite, inImage, h, apply_ite State.media]

theorem memFill_media_congr (off : Int) (v : Byte) (n : Nat) {s t : State} (h : t.media = s.media) :
    (memFill off v n t).media = (memFill off v n s).media := by
  induction n with
  | zero => exact h
  | succ n ih => rw [memFill_succ, memFill_succ, memWrite_media_congr _ _ ih]

/-! ### Handlers (R140 to R175) -/

theorem handle_media_congr (hd : Handler) {s t : State} (h : SameMachine s t) :
    (handle hd t).media = (handle hd s).media := by
  by_cases hft : hd = .formatTrack
  · subst hft
    simp only [handle, handleFormatTrack_media, h.fdc]
    exact memFill_media_congr _ _ _ h.media
  · rw [handle_media hft, handle_media hft, h.media]

theorem handle_fdc_congr (hd : Handler) {s t : State} (h : SameMachine s t) :
    (handle hd t).fdc = (handle hd s).fdc := by
  cases hd
  case readId =>
    cases hp : s.media.present
    · have hp' : t.media.present = false := by rw [h.media, hp]
      simp only [handle, handleReadId_fdc_absent hp, handleReadId_fdc_absent hp', h.fdc]
    · have hp' : t.media.present = true := by rw [h.media, hp]
      simp only [handle, handleReadId_fdc_present hp, handleReadId_fdc_present hp', h.fdc]
  all_goals
    simp only [handle, handleSpecify_fdc, handleSenseInterruptStatus_fdc,
      handleSenseDriveStatus_fdc, handleRecalibrate_fdc, handleSeek_fdc, handleReadData_fdc,
      handleWriteData_fdc, handleFormatTrack_fdc, handleInvalid_fdc, handleReadTrack,
      handleReadDeletedData, handleWriteDeletedData, handleScanEqual, handleScanLowOrEqual,
      handleScanHighOrEqual, handleStub_fdc, h.fdc, h.media]

theorem handle_congr (hd : Handler) {s t : State} (h : SameMachine s t) :
    SameMachine (handle hd s) (handle hd t) :=
  ⟨handle_fdc_congr hd h, handle_media_congr hd h, by simp [h.params], by simp [h.draws]⟩

theorem runHandler_congr {s t : State} (h : SameMachine s t) :
    SameMachine (runHandler s) (runHandler t) := by
  simp only [runHandler, h.fdc, h.params]
  exact handle_congr _ ⟨rfl, h.media, rfl, h.draws⟩

/-! ### A port 5 write (R110 to R113) -/

theorem receiveCommand_congr (v : Byte) {s t : State} (h : SameMachine s t) :
    SameMachine (receiveCommand v s) (receiveCommand v t) :=
  ⟨by simp [h.fdc], h.media, h.params, h.draws⟩

theorem receiveParameter_congr (v : Byte) {s t : State} (h : SameMachine s t) :
    SameMachine (receiveParameter v s) (receiveParameter v t) :=
  ⟨by simp [h.fdc], h.media, h.params, h.draws⟩

theorem commandByte_congr (v : Byte) {s t : State} (h : SameMachine s t) :
    SameMachine (commandByte v s) (commandByte v t) := by
  simp only [commandByte, h.params]
  split
  · exact runHandler_congr (receiveCommand_congr v h)
  · exact receiveCommand_congr v h

theorem parameterByte_congr (v : Byte) {s t : State} (h : SameMachine s t) :
    SameMachine (parameterByte v s) (parameterByte v t) := by
  have hstored := receiveParameter_congr v h
  have hcomplete : commandComplete (receiveParameter v t) =
      commandComplete (receiveParameter v s) := by
    simp only [commandComplete, hstored.fdc, hstored.params]
  simp only [parameterByte, hcomplete]
  split
  · exact runHandler_congr hstored
  · exact hstored

theorem executionWrite_congr (v : Byte) {s t : State} (h : SameMachine s t) :
    SameMachine (executionWrite v s) (executionWrite v t) := by
  simp only [executionWrite, h.fdc]
  split
  · exact ⟨by simp [stubWrite, h.fdc], h.media, h.params, h.draws⟩
  · split
    · refine ⟨by simp [xferFromHost_fdc, h.fdc], ?_, by simp [h.params], by simp [h.draws]⟩
      simp only [xferFromHost_media, h.fdc]
      exact memWrite_media_congr _ _ h.media
    · exact h

theorem dataRegisterWrite_congr (v : Byte) {s t : State} (h : SameMachine s t) :
    SameMachine (dataRegisterWrite v s) (dataRegisterWrite v t) := by
  simp only [dataRegisterWrite, h.fdc]
  split
  · exact commandByte_congr v h
  · exact parameterByte_congr v h
  · exact executionWrite_congr v h
  · exact h

/-! ### The run of the words -/

/-- OUT 5 as the next request: one byte of a sequence, but for the outputs of the step. -/
theorem step_out5 {s u : State} {v : Byte} {rest : List Request}
    (hin : u.inputs = .cpu (.bus (busWord 0xD#4 v)) :: rest) (h : SameMachine s u) :
    ∃ u', step u = .next u' ∧ SameMachine (writeByte s v) u' ∧ u'.inputs = rest := by
  have htaken : SameMachine s { u with inputs := rest } := { h with }
  have hdecode : decode (.bus (busWord 0xD#4 v)) = .ok (.out5 v, []) := decode_of_encode rfl
  rw [step_of_decode_ok hin hdecode, exec_of_portBody rfl]
  exact ⟨_, rfl, activityRule_congr (dataRegisterWrite_congr v htaken.openStep), by simp [requeue]⟩

theorem run_succ_of_step {s t : State} (h : step s = .next t) (k : Nat) :
    Host.Core.run core (k + 1) s = Host.Core.run core k t := by
  have hcore : core.step s = .next t := h
  simp [Host.Core.run, hcore]

theorem run_out5_words (bs : List Byte) {s u : State}
    (hin : u.inputs = (bs.map (busWord 0xD#4)).map fun w => .cpu (.bus w)) (h : SameMachine s u) :
    ∃ u', Host.Core.run core bs.length u = .next u' ∧ SameMachine (bs.foldl writeByte s) u' ∧
      u'.inputs = [] := by
  induction bs generalizing s u with
  | nil => exact ⟨u, rfl, h, hin⟩
  | cons b bs ih =>
    obtain ⟨u₁, hstep, hsame, hrest⟩ := step_out5 hin h
    obtain ⟨u', hrun, hend⟩ := ih hrest hsame
    exact ⟨u', (run_succ_of_step hstep _).trans hrun, hend⟩

end Sys2Proof.Machine

namespace Sys2Proof.Proofs

open Sys2Proof.Machine

/-- Settles O16: the row issues its bytes, and the words run in step with them. -/
theorem commandEqualsItsByteAccesses : Obligations.CommandEqualsItsByteAccesses := by
  intro i bs s hbs
  have hstart : SameMachine (openStep s) (withWords s (bs.map (busWord 0xD#4))) :=
    ⟨rfl, rfl, rfl, rfl⟩
  obtain ⟨u, hrun, ⟨hfdc, hmedia, hparams, hdraws⟩, hinputs⟩ := run_out5_words bs rfl hstart
  exact ⟨issue bs s, u, exec_of_command hbs s, hrun, hfdc, hmedia, hparams, hdraws, hinputs⟩

end Sys2Proof.Proofs
end

section
/-! Data accesses of the ports (40_fdc_ports.md R101, R102, R104, R106, R108, R110 to R122): which operation
a data port or data register access is in each state, and what the step then leaves. -/

namespace Sys2Proof.Machine

/-! ### A stub's Execution phase (R122) -/

@[simp] theorem stubRead_fdc (s : State) : (stubRead s).fdc = stubEnded s.fdc := rfl
@[simp] theorem stubRead_media (s : State) : (stubRead s).media = s.media := rfl
@[simp] theorem stubRead_draws (s : State) : (stubRead s).draws = s.draws + 1 := rfl
@[simp] theorem stubRead_result (s : State) :
    (stubRead s).result = .byte (Config.openBus s.draws) := rfl

theorem dataPortRead_stub {s : State} (hphase : s.fdc.phase = .execution)
    (hpending : s.fdc.pending = 0) : dataPortRead s = stubRead s := by
  simp [dataPortRead, inStub, hphase, hpending]

theorem dataRegisterRead_stub {s : State} (hphase : s.fdc.phase = .execution)
    (hpending : s.fdc.pending = 0) : dataRegisterRead s = stubRead s := by
  simp [dataRegisterRead, executionRead, hphase, hpending]

theorem dataPortWrite_stub (v : Byte) {s : State} (hphase : s.fdc.phase = .execution)
    (hpending : s.fdc.pending = 0) : dataPortWrite v s = stubWrite s := by
  simp [dataPortWrite, inStub, hphase, hpending]

theorem dataRegisterWrite_stub (v : Byte) {s : State} (hphase : s.fdc.phase = .execution)
    (hpending : s.fdc.pending = 0) : dataRegisterWrite v s = stubWrite s := by
  simp [dataRegisterWrite, executionWrite, hphase, hpending]

/-! ### A window in the direction of the access (R101, R102, R112, R114) -/

/-- Bytes of a window are left, so no stub's Execution phase is under way. -/
theorem inStub_of_pending {f : FdcState} (h : 0 < f.pending) : inStub f = false := by
  simp [inStub, h.ne']

theorem dataPortRead_window {s : State} (hpending : 0 < s.fdc.pending)
    (hdir : s.fdc.xferDir = .toHost) : dataPortRead s = xferToHost s := by
  simp [dataPortRead, inStub_of_pending hpending, windowPending, hpending, hdir]

theorem dataRegisterRead_window {s : State} (hphase : s.fdc.phase = .execution)
    (hpending : 0 < s.fdc.pending) (hdir : s.fdc.xferDir = .toHost) :
    dataRegisterRead s = xferToHost s := by
  simp [dataRegisterRead, executionRead, hphase, hpending.ne', hdir]

theorem dataPortWrite_window (v : Byte) {s : State} (hpending : 0 < s.fdc.pending)
    (hdir : s.fdc.xferDir = .fromHost) : dataPortWrite v s = xferFromHost v s := by
  simp [dataPortWrite, inStub_of_pending hpending, windowPending, hpending, hdir]

theorem dataRegisterWrite_window (v : Byte) {s : State} (hphase : s.fdc.phase = .execution)
    (hpending : 0 < s.fdc.pending) (hdir : s.fdc.xferDir = .fromHost) :
    dataRegisterWrite v s = xferFromHost v s := by
  simp [dataRegisterWrite, executionWrite, hphase, hpending.ne', hdir]

/-! ### Writes with no effect (R102, R112, R113) -/

theorem dataPortWrite_no_window (v : Byte) {s : State}
    (hstub : ¬ (s.fdc.phase = .execution ∧ s.fdc.pending = 0))
    (hwindow : ¬ (0 < s.fdc.pending ∧ s.fdc.xferDir = .fromHost)) : dataPortWrite v s = s := by
  have h1 : ¬ inStub s.fdc = true := by simpa [inStub] using hstub
  have h2 : ¬ windowPending .fromHost s.fdc = true := by simpa [windowPending] using hwindow
  rw [dataPortWrite, if_neg h1, if_neg h2]

theorem dataRegisterWrite_other_window (v : Byte) {s : State} (hphase : s.fdc.phase = .execution)
    (hpending : 0 < s.fdc.pending) (hdir : s.fdc.xferDir ≠ .fromHost) :
    dataRegisterWrite v s = s := by
  simp [dataRegisterWrite, executionWrite, hphase, hpending.ne', hdir]

theorem dataRegisterWrite_in_result (v : Byte) {s : State} (hphase : s.fdc.phase = .result) :
    dataRegisterWrite v s = s := by
  simp [dataRegisterWrite, hphase]

theorem writeByte_in_result (v : Byte) {s : State} (hphase : s.fdc.phase = .result) :
    writeByte s v = activityRule s := by
  rw [writeByte, dataRegisterWrite_in_result v hphase]

theorem foldl_writeByte_in_result {s : State} (hphase : s.fdc.phase = .result) (hs : Settled s)
    (bs : List Byte) : bs.foldl writeByte s = s := by
  induction bs with
  | nil => rfl
  | cons b bs ih =>
    rw [List.foldl_cons, writeByte_in_result b hphase, activityRule_of_settled hs, ih]

/-- Bytes written in Result phase are lost: of a whole sequence only the activity rule remains, and after
the first byte it finds nothing new to report. -/
theorem issue_in_result {bs : List Byte} {s : State} (hbs : bs ≠ []) (hphase : s.fdc.phase = .result) :
    issue bs s = activityRule (openStep s) := by
  cases bs with
  | nil => exact absurd rfl hbs
  | cons b bs =>
    rw [issue, List.foldl_cons, writeByte_in_result b (s := openStep s) hphase]
    exact foldl_writeByte_in_result (by simp [hphase]) (activityRule_settled _) bs

/-- R82: a command has its command byte at least. -/
theorem ne_nil_of_encode_command {i : Instr} {bs : List Byte} (h : encode i = .command bs) :
    bs ≠ [] := by
  rintro rfl
  exact nomatch decodeCommand_of_encode h []

/-! ### Parameter bytes (R111) -/

theorem dataRegisterWrite_parameter (v : Byte) {s : State} (hphase : s.fdc.phase = .command)
    (hfirst : 1 ≤ s.fdc.idx) (hmore : s.fdc.idx + 1 < cmdCount (entryOf s.params s.fdc.cmdBuf[0])) :
    dataRegisterWrite v s = receiveParameter v s := by
  have hcmd : opCmd (receiveParameter v s).fdc = s.fdc.cmdBuf[0] := by
    rw [opCmd_receiveParameter, if_neg (by omega)]
  have hno : commandComplete (receiveParameter v s) = false := by
    rw [commandComplete, hcmd]
    exact decide_eq_false hmore.ne
  simp [dataRegisterWrite, hphase, parameterByte, hno]

/-! ### FdcState and the media after one byte of a window (R120) -/

theorem xferToHost_windowAfter {s : State} (h : 0 < s.fdc.pending) :
    (xferToHost s).fdc = windowAfter s.fdc := by
  have hlast : s.fdc.pending - 1 = 0 ↔ s.fdc.pending = 1 := by omega
  simp only [xferToHost_fdc, windowAfter, hlast]

theorem xferFromHost_windowAfter (v : Byte) {s : State} (h : 0 < s.fdc.pending) :
    (xferFromHost v s).fdc = windowAfter s.fdc := by
  have hlast : s.fdc.pending - 1 = 0 ↔ s.fdc.pending = 1 := by omega
  simp only [xferFromHost_fdc, windowAfter, hlast]

theorem memReadByte_eq (off : Int) (s : State) :
    memReadByte off s =
      if s.media.present = true ∧ 0 ≤ off ∧ off < (s.media.img.size : Int) then
        s.media.img.read off.toNat else 0x00 := by
  simp only [memReadByte, Bool.and_eq_true, inImage_iff]

/-- R63: a write latches "changed" exactly where there is no medium. -/
theorem memWrite_changed_eq (off : Int) (v : Byte) (s : State) :
    (memWrite off v s).media.changed = (s.media.changed || !s.media.present) := by
  cases hp : s.media.present
  · simp [memWrite_absent hp]
  · simp [memWrite_changed hp]

/-- R120: `Flush` comes once, after the last byte of the window and with a medium present. -/
theorem xferFromHost_flush_count (v : Byte) {s : State} (h : 0 < s.fdc.pending) :
    eventCount .flush (xferFromHost v s) =
      eventCount .flush s + if s.fdc.pending = 1 ∧ s.media.present = true then 1 else 0 := by
  have hlast : s.fdc.pending - 1 = 0 ↔ s.fdc.pending = 1 := by omega
  have hirq (c : Prop) [Decidable c] : (if c then [Event.irqRise] else []).count .flush = 0 := by
    split <;> rfl
  simp only [eventCount, xferFromHost_events, List.count_append, hirq, hlast]
  split <;> rfl

/-! ### Whole steps, by what the port body is -/

/-- A write whose port body leaves the state as it is has no effect. -/
theorem exec_ignoresWrite {i : Instr} {body : State → State} {s : State}
    (hi : portBody i = some body) (hb : body (openStep s) = openStep s) :
    ∃ t, exec i s = .next t ∧ IgnoresWrite s t :=
  ⟨_, exec_of_portBody hi s, by simp [IgnoresWrite, SameOutsideFdc, hb]⟩

/-- A write whose port body writes FdcState alone, and emits events at most. -/
theorem exec_of_fdcWrite {i : Instr} {body : State → State} {s : State} (f : FdcState)
    {es : List Event} (hi : portBody i = some body)
    (hb : body (openStep s) = { openStep s with fdc := f, events := es }) :
    ∃ t, exec i s = .next t ∧ t.fdc = { f with activeReported := ioActive t } ∧
      SameOutsideFdc s t ∧ t.result = .none :=
  ⟨_, exec_of_portBody hi s, by simp [SameOutsideFdc, hb]⟩

theorem exec_movesByteToHost {i : Instr} {body : State → State} {s : State}
    (hi : portBody i = some body) (hb : body (openStep s) = xferToHost (openStep s))
    (hpending : 0 < s.fdc.pending) : ∃ t, exec i s = .next t ∧ MovesByteToHost s t := by
  have hfdc : (xferToHost (openStep s)).fdc = windowAfter s.fdc := xferToHost_windowAfter hpending
  refine ⟨_, exec_of_portBody hi s, ?result, ?media, ?fdc, ?params, ?draws, ?inputs⟩
  case result =>
    rw [atomically_result, hb, xferToHost_result]
    exact congrArg _ (memReadByte_eq s.fdc.off (openStep s))
  case media =>
    rw [atomically_media, hb]
    exact xferToHost_media (openStep s)
  case fdc => simp [hb, hfdc]
  case params | draws | inputs => simp [hb]

theorem exec_movesByteFromHost {i : Instr} {body : State → State} {v : Byte} {s : State}
    (hi : portBody i = some body) (hb : body (openStep s) = xferFromHost v (openStep s))
    (hpending : 0 < s.fdc.pending) : ∃ t, exec i s = .next t ∧ MovesByteFromHost v s t := by
  have hfdc : (xferFromHost v (openStep s)).fdc = windowAfter s.fdc :=
    xferFromHost_windowAfter v hpending
  have hmedia : (atomically body s).media = (memWrite s.fdc.off v (openStep s)).media := by
    simp [hb]
  have hflush : eventCount .flush (atomically body s) =
      if s.fdc.pending = 1 ∧ s.media.present = true then 1 else 0 := by
    rw [atomically, hb, eventCount_activityRule (by decide)]
    exact (xferFromHost_flush_count v (s := openStep s) hpending).trans (Nat.zero_add _)
  refine ⟨_, exec_of_portBody hi s, ?other, ?self, ?present, ?size, ?changed, ?absent, ?fdc, ?params,
    ?draws, ?inputs, ?result, hflush⟩
  case other => exact fun a ha => hmedia ▸ memWrite_read_other ha
  case self =>
    intro hp hw hlo hhi
    obtain ⟨a, ha⟩ := Int.eq_ofNat_of_zero_le hlo
    rw [hmedia, ha]
    exact memWrite_read_self (s := openStep s) hp hw (by simp; omega)
  case present => rw [hmedia, memWrite_present, openStep_media]
  case size => rw [hmedia, memWrite_size, openStep_media]
  case changed => rw [hmedia, memWrite_changed_eq, openStep_media]
  case absent =>
    intro hp
    rw [hmedia, memWrite_absent (by simpa using hp)]
    rfl
  case fdc => simp [hb, hfdc]
  case params | draws | inputs | result => simp [hb]

theorem exec_stubRead {i : Instr} {body : State → State} {s : State} (hi : portBody i = some body)
    (hb : body (openStep s) = stubRead (openStep s)) :
    ∃ t, exec i s = .next t ∧
      t.result = .byte (Config.openBus s.draws) ∧ t.draws = s.draws + 1 ∧
      t.fdc = { stubEnded s.fdc with activeReported := ioActive t } ∧ t.media = s.media ∧
      t.params = s.params ∧ t.inputs = s.inputs :=
  ⟨_, exec_of_portBody hi s, by simp [hb]⟩

theorem exec_stubWrite {i : Instr} {body : State → State} {s : State} (hi : portBody i = some body)
    (hb : body (openStep s) = stubWrite (openStep s)) :
    ∃ t, exec i s = .next t ∧ t.result = .none ∧
      t.fdc = { stubEnded s.fdc with activeReported := ioActive t } ∧ SameOutsideFdc s t := by
  obtain ⟨t, hexec, hfdc, houtside, hresult⟩ := exec_of_fdcWrite (stubEnded s.fdc) hi hb
  exact ⟨t, hexec, hresult, hfdc, houtside⟩

end Sys2Proof.Machine

namespace Sys2Proof.Proofs

open Sys2Proof.Machine

/-- Settles O21: with a ToHost window each of the three reads is a transfer step to the host. -/
theorem dataReadMovesOneWindowByte : Obligations.DataReadMovesOneWindowByte := by
  intro d s hpending hdir
  have hport := dataPortRead_window (s := openStep s) hpending hdir
  exact ⟨exec_movesByteToHost rfl hport hpending, exec_movesByteToHost rfl hport hpending,
    fun hphase => exec_movesByteToHost rfl (dataRegisterRead_window hphase hpending hdir) hpending⟩

/-- Settles O22: with a FromHost window each of the three writes is a transfer step from the host. -/
theorem dataWriteMovesOneWindowByte : Obligations.DataWriteMovesOneWindowByte := by
  intro d s hpending hdir
  have hport := dataPortWrite_window d (s := openStep s) hpending hdir
  exact ⟨exec_movesByteFromHost rfl hport hpending, exec_movesByteFromHost rfl hport hpending,
    fun hphase =>
      exec_movesByteFromHost rfl (dataRegisterWrite_window d hphase hpending hdir) hpending⟩

/-- Settles O37: the row issues its bytes, at least one, and each is lost. -/
theorem commandInResultPhaseIsLost : Obligations.CommandInResultPhaseIsLost := by
  intro i bs s hbs hphase
  refine ⟨_, exec_of_command hbs s, ?_⟩
  rw [issue_in_result (ne_nil_of_encode_command hbs) hphase]
  simp [IgnoresWrite, SameOutsideFdc]

/-- Settles O19: in each case the port body leaves the state as it is. -/
theorem writesWithoutMeaningChangeNothing : Obligations.WritesWithoutMeaningChangeNothing := by
  intro d s
  refine ⟨exec_ignoresWrite rfl rfl, exec_ignoresWrite rfl rfl, fun hphase => ?_,
    fun hphase hpending hdir => ?_, fun hstub hwindow => ?_⟩
  · exact exec_ignoresWrite rfl (dataRegisterWrite_in_result d hphase)
  · exact exec_ignoresWrite rfl (dataRegisterWrite_other_window d hphase hpending hdir)
  · have hkept := dataPortWrite_no_window d (s := openStep s) hstub hwindow
    exact ⟨exec_ignoresWrite rfl hkept, exec_ignoresWrite rfl hkept⟩

/-- Settles O23: each of the six accesses is the stub access of R122. -/
theorem stubAccessEndsExecution : Obligations.StubAccessEndsExecution := by
  intro d s hphase hpending
  simp only [List.forall_mem_cons, List.not_mem_nil, false_imp_iff, implies_true, and_true]
  have hread := dataPortRead_stub (s := openStep s) hphase hpending
  have hwrite := dataPortWrite_stub d (s := openStep s) hphase hpending
  exact ⟨⟨exec_stubRead rfl hread, exec_stubRead rfl hread,
      exec_stubRead rfl (dataRegisterRead_stub hphase hpending)⟩,
    ⟨exec_stubWrite rfl hwrite, exec_stubWrite rfl hwrite,
      exec_stubWrite rfl (dataRegisterWrite_stub d hphase hpending)⟩⟩

/-- Settles O24, by the rules of a result byte read within the buffer. -/
theorem resultByteIsReadAndDrained : Obligations.ResultByteIsReadAndDrained := by
  intro d s hidx hphase
  have hbody : dataRegisterRead (openStep s) = readResult (openStep s) := by
    simp [dataRegisterRead, hphase]
  refine ⟨_, exec_of_portBody (body := dataRegisterRead) rfl s, ?result, ?fdc, ?outside⟩
  case result =>
    rw [atomically_result, hbody]
    exact readResult_result (s := openStep s) hidx
  case fdc =>
    rw [ioActive_atomically, atomically_fdc, hbody, readResult_fdc]
    rfl
  case outside => simp [SameOutsideFdc, hbody, readResult_draws (s := openStep s) hidx]

/-- Settles O25: a byte that does not complete its command is only received. -/
theorem commandBytesAreCollected : Obligations.CommandBytesAreCollected := by
  refine ⟨fun d s hphase hlen => ?command, fun d s hidx hphase hfirst hmore => ?parameter⟩
  case command =>
    refine ⟨_, congrArg Host.Outcome.next (writeByte_first hphase hlen), ?_⟩
    simp [underWay, ioActive, SameOutsideFdc]
  case parameter =>
    have hset : s.fdc.cmdBuf.setIfInBounds s.fdc.idx d = s.fdc.cmdBuf.set s.fdc.idx d := by
      simp [Vector.setIfInBounds, Vector.set, Array.setIfInBounds, hidx]
    refine exec_of_fdcWrite (es := [])
      { s.fdc with cmdBuf := s.fdc.cmdBuf.set s.fdc.idx d, idx := s.fdc.idx + 1 } rfl ?_
    rw [dataRegisterWrite_parameter d (s := openStep s) hphase hfirst hmore, ← hset]
    rfl

/-- Settles O26: each of the three bodies writes FdcState alone. -/
theorem controlPortsResetOrLatch : Obligations.ControlPortsResetOrLatch := by
  intro v s
  refine ⟨exec_of_fdcWrite (es := []) _ (body := dorWrite v) rfl ?dor,
    exec_of_fdcWrite (es := []) _ (body := pinResetWrite v) rfl ?pin,
    exec_of_fdcWrite (es := []) { s.fdc with speed := BitVec.ofNat 2 v.toNat }
      (body := speedWrite v) rfl ?speed⟩
  case dor => unfold dorWrite; split <;> rfl
  case pin => unfold pinResetWrite; split <;> rfl
  case speed =>
    have hbits : v.extractLsb' 0 2 = BitVec.ofNat 2 v.toNat := by simp [BitVec.extractLsb']
    rw [← hbits]
    rfl

end Sys2Proof.Proofs
end

section
/-! The commands issued from Idle phase under the default table (41_fdc_commands.md R140 to R175,
30_encoding.md R84): the row issues its bytes, its handler runs on the bytes stored, and what the
step leaves is what the handler leaves. Then the sector advance on the disk's geometry (R151). -/

namespace Sys2Proof.Machine

/-! ### The operands that a handler reads (R25, R85) -/

theorem opHdus_handlerState (b p : Byte) (ps : List Byte) (s : State) :
    opHdus (handlerState b (p :: ps) s).fdc = p := by
  simp [opHdus, handlerState_fdc, storedBytes_getElem]

theorem opC_handlerState (b p c : Byte) (ps : List Byte) (s : State) :
    opC (handlerState b (p :: c :: ps) s).fdc = c := by
  simp [opC, handlerState_fdc, storedBytes_getElem]

theorem opH_handlerState (b p c h : Byte) (ps : List Byte) (s : State) :
    opH (handlerState b (p :: c :: h :: ps) s).fdc = h := by
  simp [opH, handlerState_fdc, storedBytes_getElem]

theorem opR_handlerState (b p c h r : Byte) (ps : List Byte) (s : State) :
    opR (handlerState b (p :: c :: h :: r :: ps) s).fdc = r := by
  simp [opR, handlerState_fdc, storedBytes_getElem]

theorem opN_handlerState (b p c h r n : Byte) (ps : List Byte) (s : State) :
    opN (handlerState b (p :: c :: h :: r :: n :: ps) s).fdc = n := by
  simp [opN, handlerState_fdc, storedBytes_getElem]

theorem dataPhase_handlerState (b : Byte) (ps : List Byte) (s : State) :
    dataPhase (handlerState b ps s).fdc = dataPhase s.fdc := by
  simp [dataPhase, handlerState_fdc]

/-! ### The phase after a command (R141) -/

@[simp] theorem concludePhase_no_result (next : Phase) (h : next ≠ .execution) :
    concludePhase next 0 = .idle := by
  simp [concludePhase, h]

@[simp] theorem concludePhase_result_succ (n : Nat) : concludePhase .result (n + 1) = .result := by
  simp [concludePhase]

@[simp] theorem concludePhase_dataPhase_succ (f : FdcState) (n : Nat) :
    concludePhase (dataPhase f) (n + 1) = if f.nonDma then .execution else .result := by
  unfold dataPhase concludePhase
  split <;> simp

/-! ### The IrqRise events of a handler (R304, R307) -/

/-- R141, R304: concluding raises the line exactly if the latch goes from clear to set. -/
theorem eventCount_irqRise_conclude {next : Phase} {raise : Bool} {s u : State}
    (hirq : u.fdc.irq = s.fdc.irq) (hevents : eventCount .irqRise u = eventCount .irqRise s) :
    eventCount .irqRise (conclude next raise u) = eventCount .irqRise s +
      if (conclude next raise u).fdc.irq = true ∧ s.fdc.irq = false then 1 else 0 := by
  rw [← hevents, conclude_fdc, ← hirq, eventCount, conclude_events, List.count_append]
  cases raise <;> cases u.fdc.irq <;> simp [eventCount]

/-- R307: a handler's IrqRise events are the rising edges of the latch. -/
theorem eventCount_irqRise_handle (hd : Handler) (s : State) :
    eventCount .irqRise (handle hd s) = eventCount .irqRise s +
      if (handle hd s).fdc.irq = true ∧ s.fdc.irq = false then 1 else 0 := by
  cases hd
  case senseInterruptStatus =>
    simp [handle, handleSenseInterruptStatus, eventCount]
  case readId =>
    simp only [handle, handleReadId]
    split <;> exact eventCount_irqRise_conclude rfl rfl
  case formatTrack =>
    simp only [handle, handleFormatTrack]
    refine eventCount_irqRise_conclude ?latch ?events
    case latch => simp [withSevenResults, withNormalStatus]
    case events =>
      rw [eventCount]
      simp only [flushMedium_events, memFill_events, memFill_present]
      split <;> simp [eventCount]
  all_goals exact eventCount_irqRise_conclude rfl rfl

/-- Format Track flushes the medium it wrote to, if there is one (R73, R162). -/
theorem eventCount_flush_handleFormatTrack (s : State) :
    eventCount .flush (handleFormatTrack s) =
      eventCount .flush s + if s.media.present then 1 else 0 := by
  have hirq (c : Prop) [Decidable c] : (if c then [Event.irqRise] else []).count .flush = 0 := by
    split <;> rfl
  rw [eventCount, handleFormatTrack, conclude_events, List.count_append, hirq]
  cases h : s.media.present <;> simp [eventCount, h]

/-! ### A command row issued from Idle phase (R82, R84, R90, R140) -/

/-- The row `i` is the command byte `b` and the parameter bytes `ps`, as many as its table entry `e`
asks for, and it is issued from Idle phase. -/
structure IssuedFromIdle (i : Instr) (b : Byte) (ps : List Byte) (e : TableEntry) (s : State) :
    Prop where
  bytes : encode i = .command (b :: ps)
  idle : s.fdc.phase = .idle
  entry : entryOf s.params b = e
  count : cmdCount e = ps.length + 1

/-- R84: under the default table the entry is that of the command's index. -/
theorem issuedFromIdle_of_defaultTable {i : Instr} {opt : BitVec 3} {idx : BitVec 5}
    {ps : List Byte} {e : TableEntry} {s : State} (hidle : s.fdc.phase = .idle)
    (htable : DefaultTable s) (hbytes : encode i = .command (cmdByte opt idx :: ps))
    (hentry : Config.defaultTable[idx.toNat]'idx.isLt = e) (hcount : cmdCount e = ps.length + 1) :
    IssuedFromIdle i (cmdByte opt idx) ps e s where
  bytes := hbytes
  idle := hidle
  entry := by rw [entryOf_cmdByte]; simp only [htable, hentry]
  count := hcount

/-- No interrupt has been raised and nothing flushed before the handler runs (R307, R310). -/
theorem eventCount_handlerState {ev : Event} (h : ev ≠ .ioStarted ∧ ev ≠ .ioStopped) (b : Byte)
    (ps : List Byte) (s : State) : eventCount ev (handlerState b ps s) = 0 := by
  rw [eventCount, handlerState_events]
  split
  · rfl
  · exact count_firstByteEvents h s

/-- `exec` on a command row answers the state its bytes leave; `f` is what its handler makes of
FdcState. -/
theorem IssuedFromIdle.exec_leaves {i : Instr} {b : Byte} {ps : List Byte} {e : TableEntry}
    {s : State} (h : IssuedFromIdle i b ps e s) {f : FdcState}
    (hfdc : (handle e.handler (handlerState b ps s)).fdc =
      { f with
        cmdBuf := storedBytes s.fdc.cmdBuf (b :: ps), lastCmd := b, idx := 0,
        activeReported := if ps = [] then s.fdc.activeReported else s.media.present }) :
    ∃ t, exec i s = .next t ∧ CommandLeaves (b :: ps) f s t ∧
      t.media = (handle e.handler (handlerState b ps s)).media ∧
      (∀ ev, ev ≠ .ioStarted ∧ ev ≠ .ioStopped →
        eventCount ev t = eventCount ev (handle e.handler (handlerState b ps s))) ∧
      eventCount .irqRise t = if f.irq = true ∧ s.fdc.irq = false then 1 else 0 := by
  obtain ⟨hbytes, hidle, hentry, hcount⟩ := h
  have hevents {ev : Event} (hev : ev ≠ .ioStarted ∧ ev ≠ .ioStopped) :=
    eventCount_issue hidle hentry hcount hev
  refine ⟨_, exec_of_command hbytes s, issue_leaves hidle hentry hcount hfdc, ?media,
    fun _ => hevents, ?rise⟩
  case media =>
    subst hentry
    rw [issue_eq hidle hcount, activityRule_media]
  case rise =>
    rw [hevents (by decide), eventCount_irqRise_handle, eventCount_handlerState (by decide), hfdc,
      handlerState_fdc, Nat.zero_add]

/-- R176: a command but Format Track, which leaves the media store as it is. -/
theorem IssuedFromIdle.exec_leaves_media {i : Instr} {b : Byte} {ps : List Byte} {e : TableEntry}
    {s : State} (h : IssuedFromIdle i b ps e s) (hd : e.handler ≠ .formatTrack) {f : FdcState}
    {n : Nat}
    (hfdc : (handle e.handler (handlerState b ps s)).fdc =
      { f with
        cmdBuf := storedBytes s.fdc.cmdBuf (b :: ps), lastCmd := b, idx := 0,
        activeReported := if ps = [] then s.fdc.activeReported else s.media.present })
    (hrise : (if f.irq = true ∧ s.fdc.irq = false then 1 else 0) = n) :
    ∃ t, exec i s = .next t ∧ CommandLeaves (b :: ps) f s t ∧ t.media = s.media ∧
      eventCount .irqRise t = n := by
  obtain ⟨t, hexec, hleaves, hmedia, -, hcount⟩ := h.exec_leaves hfdc
  exact ⟨t, hexec, hleaves, by rw [hmedia, handle_media hd, handlerState_media], hcount.trans hrise⟩

/-- R304: a latch that is set afterwards has risen exactly if it was clear. -/
theorem rises_of_set {before after : Bool} (h : after = true) :
    (if after = true ∧ before = false then 1 else 0) = if before then 0 else 1 := by
  subst h
  cases before <;> rfl

/-- R304: a latch that keeps its value has not risen. -/
theorem rises_of_kept {before after : Bool} (h : after = before) :
    (if after = true ∧ before = false then 1 else 0) = 0 := by
  subst h
  cases after <;> rfl

/-! ### Rows that share a handler (R164, R175) -/

/-- R164: a row whose handler is a stub of the direction `dir`. -/
theorem exec_stub {i : Instr} {opt : BitVec 3} {idx : BitVec 5} {hdus c h r n eot gpl dtl : Byte}
    {s : State} {hd : Handler} (dir : XferDir) (hidle : s.fdc.phase = .idle)
    (htable : DefaultTable s)
    (hbytes : encode i = .command [cmdByte opt idx, hdus, c, h, r, n, eot, gpl, dtl])
    (hentry : Config.defaultTable[idx.toNat]'idx.isLt = ⟨9, 7, hd⟩)
    (hstub : handle hd = handleStub dir) (hd_ne : hd ≠ .formatTrack) :
    ∃ t, exec i s = .next t ∧
      CommandLeaves [cmdByte opt idx, hdus, c, h, r, n, eot, gpl, dtl]
        (stubFields dir hdus c h r n s.fdc) s t ∧ t.media = s.media ∧
      eventCount .irqRise t = (if s.fdc.irq then 0 else 1) := by
  have hrow := issuedFromIdle_of_defaultTable hidle htable hbytes hentry rfl
  refine hrow.exec_leaves_media hd_ne ?_ (rises_of_set rfl)
  simp only [hstub, handleStub_fdc, opHdus_handlerState, opC_handlerState, opH_handlerState,
    opR_handlerState, opN_handlerState, dataPhase_handlerState]
  simp [handlerState_fdc, hrow.entry, stubFields, hdUs]

/-- R175: a row without an assigned index. -/
theorem exec_invalid {i : Instr} {opt : BitVec 3} {idx : BitVec 5} {s : State}
    (hidle : s.fdc.phase = .idle) (htable : DefaultTable s)
    (hbytes : encode i = .command [cmdByte opt idx])
    (hentry : Config.defaultTable[idx.toNat]'idx.isLt = Config.invalidEntry) :
    ∃ t, exec i s = .next t ∧ CommandLeaves [cmdByte opt idx] (invalidFields s.fdc) s t ∧
      t.media = s.media ∧ eventCount .irqRise t = 0 := by
  have hrow := issuedFromIdle_of_defaultTable hidle htable hbytes hentry rfl
  refine hrow.exec_leaves_media nofun ?_ (rises_of_kept rfl)
  simp [handle, handleInvalid_fdc, handlerState_fdc, hrow.entry, invalidFields]

/-! ### Format Track (R162) -/

/-- R42, R63: a fill of a whole sector latches "media changed" exactly where there is no medium. -/
theorem memFill_sector_changed (off : Int) (v : Byte) (s : State) :
    (memFill off v 512 s).media.changed = (s.media.changed || !s.media.present) := by
  cases h : s.media.present
  · rw [memFill_absent (n := 511) h]
    simp
  · rw [memFill_changed h]
    simp

/-- R162: the handler fills the sector that `lba` names with the pattern byte, on the media store as it
is before the command. -/
theorem handleFormatTrack_handlerState_media (b hdus n sc gpl d : Byte) (s : State) :
    (handleFormatTrack (handlerState b [hdus, n, sc, gpl, d] s)).media =
      (memFill (s.fdc.lba * 512) d 512 s).media := by
  have hlba : (handlerState b [hdus, n, sc, gpl, d] s).fdc.lba = s.fdc.lba := by
    rw [handlerState_fdc]
  rw [handleFormatTrack_media, opN_handlerState, hlba]
  exact memFill_media_congr _ _ _ (handlerState_media _ _ _)

/-! ### The sector advance (R151) -/

/-- Not the last sector of its track: the next one. -/
theorem advance_within_track {c h r : Byte} (hr : r.toNat < 18) :
    advance c h r = (c, h, r + 1) := by
  have hnat : advanceNat c.toNat h.toNat r.toNat = (c.toNat, h.toNat, r.toNat + 1) := by
    rw [advanceNat, if_neg (by simp only [Config.spt]; omega)]
  simp [advance, hnat, BitVec.ofNat_add]

/-- The last sector of head 0: the first one of head 1. -/
theorem advance_to_second_head {c h r : Byte} (hr : 18 ≤ r.toNat) (hh : h = 0) :
    advance c h r = (c, 1, 1) := by
  have hh0 : h.toNat = 0 := by rw [hh]; rfl
  have hnat : advanceNat c.toNat h.toNat r.toNat = (c.toNat, 1, 1) := by
    rw [advanceNat, if_pos (by simp only [Config.spt]; omega), hh0, if_neg (by decide)]
  simp [advance, hnat]

/-- The last sector of a cylinder but the last: the first one of the next cylinder. -/
theorem advance_to_next_cylinder {c h r : Byte} (hr : 18 ≤ r.toNat) (hh : h ≠ 0)
    (hc : c.toNat < 79) : advance c h r = (c + 1, 0, 1) := by
  have hnat : advanceNat c.toNat h.toNat r.toNat = (c.toNat + 1, 0, 1) := by
    have hlast : 1 ≤ h.toNat := by bv_omega
    rw [advanceNat, if_pos (by simp only [Config.spt]; omega),
      if_pos (by simp only [Config.heads]; omega), if_neg (by simp only [Config.cyls]; omega)]
  simp [advance, hnat, BitVec.ofNat_add]

/-- The last sector of the disk: its first one. -/
theorem advance_wraps {c h r : Byte} (hr : 18 ≤ r.toNat) (hh : h ≠ 0) (hc : 79 ≤ c.toNat) :
    advance c h r = (0, 0, 1) := by
  have hnat : advanceNat c.toNat h.toNat r.toNat = (0, 0, 1) := by
    have hlast : 1 ≤ h.toNat := by bv_omega
    rw [advanceNat, if_pos (by simp only [Config.spt]; omega),
      if_pos (by simp only [Config.heads]; omega), if_pos (by simp only [Config.cyls]; omega)]
  simp [advance, hnat]

/-- R151, R69: on the geometry the advance goes to the next LBA, and from the last one to LBA 0. -/
theorem advance_on_geometry {c h r : Byte} (hg : OnGeometry c h r) :
    (advance c h r).1.toNat ≤ 79 ∧ (advance c h r).2.1.toNat ≤ 1 ∧
      lbaOf (advance c h r).1 (advance c h r).2.1 (advance c h r).2.2 =
        (lbaOf c h r + 1) % 2880 := by
  obtain ⟨hc, hh, hr1, hr2⟩ := hg
  have hzero : (0 : Byte).toNat = 0 := rfl
  have hone : (1 : Byte).toNat = 1 := rfl
  unfold lbaOf
  rcases Nat.lt_or_ge r.toNat 18 with hr | hr
  · have hnext : (r + 1).toNat = r.toNat + 1 := by bv_omega
    simp only [advance_within_track hr, hnext]
    omega
  by_cases hh0 : h = 0
  · simp only [advance_to_second_head hr hh0, hone, congrArg BitVec.toNat hh0, hzero]
    omega
  have hlast : h.toNat = 1 := by bv_omega
  rcases Nat.lt_or_ge c.toNat 79 with hc79 | hc79
  · have hnext : (c + 1).toNat = c.toNat + 1 := by bv_omega
    simp only [advance_to_next_cylinder hr hh0 hc79, hnext, hzero, hone]
    omega
  · simp only [advance_wraps hr hh0 hc79, hzero, hone]
    omega

end Sys2Proof.Machine

namespace Sys2Proof.Proofs

open Sys2Proof.Machine

/-- Settles O27: Specify writes `nonDma` alone, and its table entry gives no result byte. -/
theorem specifySetsTheTransferMode : Obligations.SpecifySetsTheTransferMode := by
  intro opt srtHut hltNd s hidle htable
  have hrow : IssuedFromIdle (.specify opt srtHut hltNd) _ _ ⟨3, 0, .specify⟩ s :=
    issuedFromIdle_of_defaultTable hidle htable rfl rfl rfl
  refine hrow.exec_leaves_media nofun ?_ (rises_of_kept rfl)
  simp only [handle, handleSpecify_fdc, opC_handlerState]
  simp [handlerState_fdc, hrow.entry, hidle, ndBit]

/-- Settles O28: the latch is clear afterwards, so no edge has risen. -/
theorem senseInterruptStatusReportsSt0AndCylinder :
    Obligations.SenseInterruptStatusReportsSt0AndCylinder := by
  intro opt s hidle htable
  have hrow : IssuedFromIdle (.senseInterruptStatus opt) _ _ ⟨1, 2, .senseInterruptStatus⟩ s :=
    issuedFromIdle_of_defaultTable hidle htable rfl rfl rfl
  refine hrow.exec_leaves_media nofun ?_ rfl
  simp [handle, handleSenseInterruptStatus_fdc, handlerState_fdc, hrow.entry]

/-- Settles O29: the byte composed is the model's ST3, which reads the medium before the command. -/
theorem senseDriveStatusReportsSt3 : Obligations.SenseDriveStatusReportsSt3 := by
  intro opt hdus s hidle htable
  have hrow : IssuedFromIdle (.senseDriveStatus opt hdus) _ _ ⟨2, 1, .senseDriveStatus⟩ s :=
    issuedFromIdle_of_defaultTable hidle htable rfl rfl rfl
  refine (hrow.exec_leaves_media nofun ?fdc ?rise).imp
    fun t ⟨hexec, hleaves⟩ => ⟨_, hexec, rfl, hleaves⟩
  case fdc =>
    simp only [handle, handleSenseDriveStatus_fdc, opHdus_handlerState]
    simp [handlerState_fdc, hrow.entry, st3Of, hdUs]
  case rise => exact rises_of_kept rfl

/-- Settles O30: both handlers set the latch and ask for Idle phase. -/
theorem recalibrateAndSeekTrackTheCylinder : Obligations.RecalibrateAndSeekTrackTheCylinder := by
  intro opt s hidle htable
  refine ⟨fun us => ?recalibrate, fun hdus ncn => ?seek⟩
  case recalibrate =>
    have hrow : IssuedFromIdle (.recalibrate opt us) _ _ ⟨2, 0, .recalibrate⟩ s :=
      issuedFromIdle_of_defaultTable hidle htable rfl rfl rfl
    refine hrow.exec_leaves_media nofun ?_ (rises_of_set rfl)
    simp only [handle, handleRecalibrate_fdc, opHdus_handlerState]
    simp [handlerState_fdc, hrow.entry, hidle, st0Recalibrate, unitOf]
  case seek =>
    have hrow : IssuedFromIdle (.seek opt hdus ncn) _ _ ⟨3, 0, .seek⟩ s :=
      issuedFromIdle_of_defaultTable hidle htable rfl rfl rfl
    refine hrow.exec_leaves_media nofun ?_ (rises_of_set rfl)
    simp only [handle, handleSeek_fdc, opHdus_handlerState, opC_handlerState]
    simp [handlerState_fdc, hrow.entry, hidle, st0Seek, hdUs]

/-- Settles O31: the window opens at the clamped LBA of the operand bytes. -/
theorem readDataOpensAToHostWindow : Obligations.ReadDataOpensAToHostWindow := by
  intro opt hdus c h r n eot gpl dtl s hidle htable
  have hrow : IssuedFromIdle (.readData opt hdus c h r n eot gpl dtl) _ _ ⟨9, 7, .readData⟩ s :=
    issuedFromIdle_of_defaultTable hidle htable rfl rfl rfl
  refine hrow.exec_leaves_media nofun ?_ (rises_of_set rfl)
  simp only [handle, handleReadData_fdc, openWindow_eq, opHdus_handlerState, opC_handlerState,
    opH_handlerState, opR_handlerState, opN_handlerState, dataPhase_handlerState]
  simp [handlerState_fdc, hrow.entry, hdUs, clampRead, lbaOf]

/-- Settles O32: as for Read Data, without the clamp. -/
theorem writeDataOpensAFromHostWindow : Obligations.WriteDataOpensAFromHostWindow := by
  intro opt hdus c h r n eot gpl dtl s hidle htable
  have hrow : IssuedFromIdle (.writeData opt hdus c h r n eot gpl dtl) _ _ ⟨9, 7, .writeData⟩ s :=
    issuedFromIdle_of_defaultTable hidle htable rfl rfl rfl
  refine hrow.exec_leaves_media nofun ?_ (rises_of_set rfl)
  simp only [handle, handleWriteData_fdc, openWindow_eq, opHdus_handlerState, opC_handlerState,
    opH_handlerState, opR_handlerState, opN_handlerState, dataPhase_handlerState]
  simp [handlerState_fdc, hrow.entry, hdUs, lbaOf]

/-- Settles O33: the handler's two cases, by the medium before the command. -/
theorem readIdNeedsAMedium : Obligations.ReadIdNeedsAMedium := by
  intro opt hdus s hidle htable
  have hrow : IssuedFromIdle (.readId opt hdus) _ _ ⟨2, 7, .readId⟩ s :=
    issuedFromIdle_of_defaultTable hidle htable rfl rfl rfl
  have hmedium (b : Byte) (ps : List Byte) :
      (handlerState b ps s).media.present = s.media.present := by simp
  refine ⟨fun hpresent => ?present, fun habsent => ?absent⟩
  case present =>
    refine hrow.exec_leaves_media nofun ?_ (rises_of_set rfl)
    simp only [handle, handleReadId_fdc_present ((hmedium _ _).trans hpresent), opHdus_handlerState]
    simp [handlerState_fdc, hrow.entry, hdUs]
  case absent =>
    refine hrow.exec_leaves_media nofun ?_ (rises_of_kept rfl)
    simp only [handle, handleReadId_fdc_absent ((hmedium _ _).trans habsent)]
    simp [handlerState_fdc, hidle]

/-- Settles O34: the media store is the one that the fill of the sector leaves. -/
theorem formatTrackFillsTheCurrentSector : Obligations.FormatTrackFillsTheCurrentSector := by
  intro opt hdus n sc gpl d s hidle htable
  have hrow : IssuedFromIdle (.formatTrack opt hdus n sc gpl d) _ _ ⟨6, 7, .formatTrack⟩ s :=
    issuedFromIdle_of_defaultTable hidle htable rfl rfl rfl
  refine (hrow.exec_leaves ?fdc).imp fun t ⟨hexec, hleaves, hmedia, hevents, hrise⟩ =>
    ⟨hexec, hleaves, ?effects⟩
  case fdc =>
    simp only [handle, handleFormatTrack_fdc, opHdus_handlerState, opC_handlerState]
    simp [handlerState_fdc, hrow.entry, hdUs]
  case effects =>
    rw [hmedia.trans (handleFormatTrack_handlerState_media _ _ _ _ _ _ _)]
    refine ⟨fun _ hout => memFill_read_outside (by omega), fun _ hpresent hwf hsize hlo hhi =>
        memFill_read_inside hpresent hwf hsize hlo (by omega), memFill_size _ _ _ _,
      memFill_present _ _ _ _, memFill_sector_changed _ _ _, fun habsent => ?image, ?flush,
      hrise.trans (rises_of_set rfl)⟩
    case image => rw [memFill_absent (n := 511) habsent]
    case flush =>
      rw [hevents .flush (by decide), handle, eventCount_flush_handleFormatTrack,
        eventCount_handlerState (by decide), handlerState_media, Nat.zero_add]

/-- Settles O35: each of the six rows is a stub of its direction. -/
theorem stubsOnlyEnterTheirPhase : Obligations.StubsOnlyEnterTheirPhase := by
  intro opt hdus c h r n eot gpl dtl s hidle htable
  exact ⟨exec_stub .toHost hidle htable rfl rfl rfl nofun,
    exec_stub .toHost hidle htable rfl rfl rfl nofun,
    exec_stub .fromHost hidle htable rfl rfl rfl nofun,
    exec_stub .fromHost hidle htable rfl rfl rfl nofun,
    exec_stub .fromHost hidle htable rfl rfl rfl nofun,
    exec_stub .fromHost hidle htable rfl rfl rfl nofun⟩

/-- Settles O36: the table entry of each of the 17 indices is the invalid one. -/
theorem invalidCommandsReportInvalid : Obligations.InvalidCommandsReportInvalid := by
  intro opt s hidle htable
  and_intros <;> exact exec_invalid hidle htable rfl rfl

/-- Settles O39: the four cases of R151, and on the geometry the LBA of each. -/
theorem sectorAdvanceIsTheNextLba : Obligations.SectorAdvanceIsTheNextLba :=
  ⟨fun _ _ _ => ⟨advance_within_track, advance_to_second_head, advance_to_next_cylinder,
      advance_wraps⟩,
    fun _ _ _ hc hh hr1 hr2 => advance_on_geometry ⟨hc, hh, hr1, hr2⟩, advance_sector⟩

end Sys2Proof.Proofs
end

section
/-! The FAT12 geometry and the 12-bit entry codec (42_fat12_codec.md R201, R202, R210 to R213): when each
fails, the bits of an entry and the bytes of a write as numbers, which bytes two entries share, and the
geometry of the image's own boot sector. -/

namespace Sys2Proof.Machine

/-! ### When the codec fails (R212) -/

theorem readEntry_eq_none_iff {fat : List Byte} {c : Nat} :
    readEntry fat c = none ↔ c + c / 2 + 1 ≥ fat.length := by
  simp [readEntry_eq, entryIndex]

theorem writeEntry_eq_none_iff {fat : List Byte} {c v : Nat} :
    writeEntry fat c v = none ↔ c + c / 2 + 1 ≥ fat.length := by
  simp [writeEntry, entryIndex]

theorem readEntry_of_lt {fat : List Byte} {c : Nat} (h : entryIndex c + 1 < fat.length) :
    readEntry fat c = some (entryOfWord c (le16 fat (entryIndex c))) := by
  rw [readEntry_eq, if_neg (by omega)]

/-! ### The bits as numbers (R10, R210, R211) -/

theorem toNat_append_eq_add {m n : Nat} (x : BitVec m) (y : BitVec n) :
    (x ++ y).toNat = x.toNat * 2 ^ n + y.toNat := by
  rw [BitVec.toNat_append, ← Nat.shiftLeft_add_eq_or_of_lt y.isLt, Nat.shiftLeft_eq]

theorem entryOfWord_toNat (c : Nat) (w : U16) :
    (entryOfWord c w).toNat = if c % 2 = 0 then w.toNat % 4096 else w.toNat / 16 := by
  unfold entryOfWord
  split <;> simp [Nat.shiftRight_eq_div_pow]
  omega

theorem entryLowByte_toNat (c v : Nat) (old : Byte) :
    (entryLowByte c (BitVec.ofNat 12 v) old).toNat =
      if c % 2 = 0 then v % 256 else old.toNat % 16 + v % 16 * 16 := by
  unfold entryLowByte
  split
  · simp
  · rw [toNat_append_eq_add]
    simp
    omega

theorem entryHighByte_toNat (c v : Nat) (old : Byte) :
    (entryHighByte c (BitVec.ofNat 12 v) old).toNat =
      if c % 2 = 0 then old.toNat / 16 * 16 + v % 4096 / 256 else v % 4096 / 16 := by
  have hold := old.isLt
  unfold entryHighByte
  split
  · rw [toNat_append_eq_add]
    simp [Nat.shiftRight_eq_div_pow]
    omega
  · simp [Nat.shiftRight_eq_div_pow]
    omega

/-! ### What a write leaves (R211) -/

/-- `fat'` is `fat` with the entry `c` overwritten by `v`: the two bytes of R211, every other byte and
the length kept. -/
structure EntryWritten (fat fat' : List Byte) (c v : Nat) : Prop where
  length : fat'.length = fat.length
  low : byteAt fat' (entryIndex c) =
    entryLowByte c (BitVec.ofNat 12 v) (byteAt fat (entryIndex c))
  high : byteAt fat' (entryIndex c + 1) =
    entryHighByte c (BitVec.ofNat 12 v) (byteAt fat (entryIndex c + 1))
  kept : ∀ j, j ≠ entryIndex c → j ≠ entryIndex c + 1 → byteAt fat' j = byteAt fat j

theorem entryWritten_of_writeEntry {fat fat' : List Byte} {c v : Nat}
    (h : writeEntry fat c v = some fat') :
    entryIndex c + 1 < fat.length ∧ EntryWritten fat fat' c v := by
  obtain ⟨hin, rfl⟩ := writeEntry_some h
  refine ⟨hin, by simp, ?low, ?high, fun j hj hj1 => ?kept⟩
  case low => rw [byteAt_set_other _ _ (by omega), byteAt_set_self _ (by omega)]
  case high => rw [byteAt_set_self _ (by simpa using hin)]
  case kept => rw [byteAt_set_other _ _ hj1, byteAt_set_other _ _ hj]

/-! ### The codec laws (R213) -/

/-- Two entries that share a byte are the even and the odd one of a pair, and share the middle one of the
pair's three bytes. -/
theorem entryIndex_disjoint_or_neighbour {c d : Nat} (h : d ≠ c) :
    (entryIndex d + 1 < entryIndex c ∨ entryIndex c + 1 < entryIndex d) ∨
      (c % 2 = 0 ∧ d % 2 = 1 ∧ entryIndex d = entryIndex c + 1) ∨
      (c % 2 = 1 ∧ d % 2 = 0 ∧ entryIndex c = entryIndex d + 1) := by
  unfold entryIndex
  omega

namespace EntryWritten

variable {fat fat' : List Byte} {c v : Nat}

theorem readEntry_self (h : EntryWritten fat fat' c v) (hin : entryIndex c + 1 < fat.length) :
    readEntry fat' c = some (BitVec.ofNat 12 v) := by
  rw [readEntry_of_lt (h.length.symm ▸ hin), le16, h.low, h.high, entryOfWord_written]

/-- An entry disjoint from the written one reads kept bytes; a neighbour reads its own nibble of the
shared byte. -/
theorem entryOfWord_other (h : EntryWritten fat fat' c v) {d : Nat} (hd : d ≠ c) :
    entryOfWord d (le16 fat' (entryIndex d)) = entryOfWord d (le16 fat (entryIndex d)) := by
  unfold le16
  obtain hdisj | ⟨hc, hodd, hi⟩ | ⟨hc, heven, hi⟩ := entryIndex_disjoint_or_neighbour hd
  · rw [h.kept _ (by omega) (by omega), h.kept _ (by omega) (by omega)]
  · rw [hi, h.high, h.kept _ (by omega) (by omega), entryOfWord_high_kept hc hodd]
  · rw [← hi, h.low, h.kept _ (by omega) (by omega), entryOfWord_low_kept hc heven]

theorem readEntry_other (h : EntryWritten fat fat' c v) {d : Nat} (hd : d ≠ c) :
    readEntry fat' d = readEntry fat d := by
  rw [readEntry_eq, readEntry_eq, h.length, h.entryOfWord_other hd]

end EntryWritten

/-! ### The boot sector (R201) -/

theorem totalSectors_eq (b : List Byte) (size bps : Nat) :
    totalSectors b size bps = if leNat b 0x13 2 ≠ 0 then leNat b 0x13 2
      else if leNat b 0x20 4 ≠ 0 then leNat b 0x20 4 else size / bps := by
  simp only [totalSectors, ne_eq, ← BitVec.toNat_inj, le16_toNat, le32_toNat,
    BitVec.ofNat_eq_ofNat, BitVec.toNat_ofNat, Nat.zero_mod]

/-- A field that R201 refuses when it is 0. -/
def HasZeroField (b : List Byte) : Prop :=
  leNat b 0x0B 2 = 0 ∨ leNat b 0x0D 1 = 0 ∨ leNat b 0x10 1 = 0 ∨ leNat b 0x16 2 = 0

theorem geometryOf_of_hasZeroField {b : List Byte} {size : Nat} (h : HasZeroField b) :
    geometryOf b size = none := by
  simp only [geometryOf, le16_toNat]
  exact if_pos h

theorem geometryOf_of_not_hasZeroField {b : List Byte} {size : Nat} (h : ¬ HasZeroField b) :
    geometryOf b size = some (deriveGeometry (leNat b 0x0B 2) (leNat b 0x0D 1) (leNat b 0x0E 2)
      (leNat b 0x10 1) (leNat b 0x11 2) (leNat b 0x16 2)
      (totalSectors b size (leNat b 0x0B 2))) := by
  simp only [geometryOf, le16_toNat]
  exact if_neg h

/-- The geometry depends on the first 512 bytes alone. -/
theorem geometryOf_congr {a b : List Byte} (h : ∀ j, j < 512 → byteAt a j = byteAt b j)
    (size : Nat) : geometryOf a size = geometryOf b size := by
  have h16 (i : Nat) (hi : i + 1 < 512) : le16 a i = le16 b i := by
    rw [le16, le16, h _ hi, h _ (by omega)]
  have hts (bps : Nat) : totalSectors a size bps = totalSectors b size bps := by
    rw [totalSectors, totalSectors, le32, le32, h16 0x13 (by omega), h16 0x20 (by omega),
      h16 (0x20 + 2) (by omega)]
  simp (disch := decide) only [geometryOf, hts, h, h16]

theorem loadGeometry_of_no_boot_sector {m : MediaStore} (h : m.present = false ∨ m.img.size < 512) :
    loadGeometry m = none := by
  have hread : rangeRead m 0 512 = none := rangeRead_eq_none.2 (h.imp_right fun _ => .inr (by omega))
  rw [loadGeometry, hread]

theorem loadGeometry_of_boot_sector {m : MediaStore} (hp : m.present = true)
    (hsize : 512 ≤ m.img.size) : loadGeometry m = geometryOf m.img.toBytes m.img.size := by
  cases hread : rangeRead m 0 512 with
  | none =>
    obtain habsent | hneg | hshort := rangeRead_eq_none.1 hread
    · simp [hp] at habsent
    · omega
    · omega
  | some b =>
    obtain ⟨-, -, -, -, hbytes⟩ := rangeRead_some hread
    rw [loadGeometry, hread]
    refine geometryOf_congr (fun j hj => ?_) _
    rw [byteAt, hbytes j hj, byteAt_toBytes _ (by omega)]
    simp

/-! ### The derived fields (R202) -/

/-- The least multiple of `b` that is not below `a`. -/
theorem ceilDiv_mul_bounds (a : Nat) {b : Nat} (hb : b ≠ 0) :
    a ≤ ceilDiv a b * b ∧ ceilDiv a b * b < a + b := by
  have hdiv := Nat.div_add_mod' (a + b - 1) b
  have hmod := Nat.mod_lt (a + b - 1) (Nat.pos_of_ne_zero hb)
  unfold ceilDiv
  omega

/-- R202's difference on `Int`, negative or 0 for a disk without data sectors, is a `Nat` comparison. -/
theorem deriveGeometry_totalClusters (bps spc rsv nfat rootEnt spf ts : Nat) :
    (deriveGeometry bps spc rsv nfat rootEnt spf ts).totalClusters =
      if rsv + nfat * spf + ceilDiv (rootEnt * 32) bps < ts then
        (ts - (rsv + nfat * spf + ceilDiv (rootEnt * 32) bps)) / spc else 0 := by
  simp only [deriveGeometry, Config.dirEntryBytes, ← Int.natCast_mul, ← Int.natCast_add, gt_iff_lt,
    Int.sub_pos, Int.ofNat_lt, Int.toNat_sub]

end Sys2Proof.Machine

namespace Sys2Proof.Proofs

open Sys2Proof.Machine

/-- Settles O46: the bytes that a write leaves, and which of them an entry reads. -/
theorem codecLaws : Obligations.CodecLaws := by
  intro fat fat' c v hwrite
  obtain ⟨hin, hw⟩ := entryWritten_of_writeEntry hwrite
  exact ⟨hw.readEntry_self hin, fun _ => hw.readEntry_other, hw.length⟩

/-- Settles O50: the boot sector is there or not, a field is 0 or not, and the rest is R202. -/
theorem geometryIsReadFromTheBootSector : Obligations.GeometryIsReadFromTheBootSector := by
  rintro m _ rfl
  refine ⟨fun hfail => ?fails, fun hp hsize hbps hspc hnfat hspf => ?reads⟩
  case fails =>
    obtain habsent | hshort | hzero := hfail
    · exact loadGeometry_of_no_boot_sector (.inl habsent)
    · exact loadGeometry_of_no_boot_sector (.inr hshort)
    · by_cases hboot : m.present = true ∧ 512 ≤ m.img.size
      · rw [loadGeometry_of_boot_sector hboot.1 hboot.2, geometryOf_of_hasZeroField hzero]
      · exact loadGeometry_of_no_boot_sector (by simpa [imp_iff_not_or] using hboot)
  case reads =>
    have hfields : ¬ HasZeroField m.img.toBytes := by simp [HasZeroField, hbps, hspc, hnfat, hspf]
    obtain ⟨hroot, hrootLeast⟩ := ceilDiv_mul_bounds (leNat m.img.toBytes 0x11 2 * 32) hbps
    exact ⟨_, _, (loadGeometry_of_boot_sector hp hsize).trans (geometryOf_of_not_hasZeroField hfields),
      rfl, rfl, rfl, rfl, rfl, rfl, hroot, hrootLeast, rfl, rfl, rfl, rfl, totalSectors_eq _ _ _,
      deriveGeometry_totalClusters _ _ _ _ _ _ _⟩

/-- Settles O60: the bits read and the bytes written, as numbers. -/
theorem codecPacksTwelveBits : Obligations.CodecPacksTwelveBits := by
  rintro fat c _ rfl hin
  refine ⟨⟨_, readEntry_of_lt hin, ?read⟩, fun v => ?write⟩
  case read => rw [entryOfWord_toNat, le16_toNat]; rfl
  case write =>
    obtain ⟨fat', hwrite⟩ : ∃ fat', writeEntry fat c v = some fat' :=
      Option.ne_none_iff_exists'.1 fun hnone => absurd (writeEntry_eq_none_iff.1 hnone) (by omega)
    obtain ⟨-, hw⟩ := entryWritten_of_writeEntry hwrite
    exact ⟨fat', hwrite, hw.length, hw.kept, hw.low ▸ entryLowByte_toNat _ _ _,
      hw.high ▸ entryHighByte_toNat _ _ _⟩

/-- Settles O47, by R212 of each direction. -/
theorem codecFailsExactlyPastTheBuffer : Obligations.CodecFailsExactlyPastTheBuffer :=
  fun _ _ _ => ⟨readEntry_eq_none_iff, writeEntry_eq_none_iff⟩

end Sys2Proof.Proofs
end

section
/-! The cluster chain (43_cluster_chain.md R230 to R234): the clusters that a chain read visits, as a list
that is tied to the walk of the statements (`chainCluster`) and to the loop of R231, and the free list
that Allocate takes from. -/

namespace Sys2Proof.Machine

/-! ### Blocks of one length -/

/-- The block at an index of a concatenation of blocks of length `n`. -/
theorem take_drop_flatten {α : Type} {n k : Nat} {bs : List (List α)} {b : List α}
    (hlen : ∀ d ∈ bs, d.length = n) (hk : bs[k]? = some b) :
    (bs.flatten.drop (k * n)).take n = b := by
  induction bs generalizing k with
  | nil => simp at hk
  | cons d bs ih =>
    obtain ⟨hd, hrest⟩ := List.forall_mem_cons.1 hlen
    cases k with
    | zero =>
      obtain rfl : d = b := by simpa using hk
      simp [← hd]
    | succ k =>
      rw [Nat.succ_mul, Nat.add_comm, ← hd, List.flatten_cons, List.drop_length_add_append, hd]
      exact ih hrest (by simpa using hk)

/-! ### The clusters of the walk (R231) -/

/-- The clusters that at most `steps` passes of the loop of R231 visit, from `c` on. -/
def chainWalk (g : Geometry) (fat : List Byte) : (steps c : Nat) → List Nat
  | 0, _ => []
  | steps + 1, c =>
    if validCluster g c then c :: (nextCluster fat c).elim [] (chainWalk g fat steps) else []

/-- The FAT entry that the loop goes on with: neither a free entry nor an end of chain (R214, R231). -/
theorem nextCluster_eq (fat : List Byte) (c : Nat) :
    nextCluster fat c = (readEntry fat c).bind fun e =>
      if e.toNat ≠ 0 ∧ e.toNat < 0xFF8 then some e.toNat else none := by
  unfold nextCluster
  cases readEntry fat c with
  | none => rfl
  | some e =>
    have hstop : (Config.eocMin ≤ e.toNat ∨ e = 0) ↔ ¬ (e.toNat ≠ 0 ∧ e.toNat < 0xFF8) := by
      rw [show e = 0 ↔ e.toNat = 0 from BitVec.toNat_inj.symm, Config.eocMin]
      omega
    simp only [hstop, ite_not, Option.bind_some]

/-- The second cluster of the walk is the one that the loop goes on with, if that is valid. -/
theorem chainCluster_one {g : Geometry} {c : Nat} (fat : List Byte) (hc : validCluster g c = true) :
    chainCluster g fat c 1 = (nextCluster fat c).bind (chainCluster g fat · 0) := by
  rw [chainCluster_succ, chainCluster_zero, if_pos hc, Option.bind_some, nextCluster_eq, chainLink]
  cases readEntry fat c with
  | none => rfl
  | some e =>
    by_cases hgo : e.toNat ≠ 0 ∧ e.toNat < 0xFF8
    · simp [hgo, chainCluster]
    · simp [hgo, ← and_assoc]

/-- The list holds the walk's clusters, in order, up to the bound. -/
theorem chainWalk_getElem? (g : Geometry) (fat : List Byte) (steps c k : Nat) :
    (chainWalk g fat steps c)[k]? = if k < steps then chainCluster g fat c k else none := by
  induction steps generalizing c k with
  | zero => simp [chainWalk]
  | succ steps ih =>
    by_cases hc : validCluster g c = true
    · cases k with
      | zero => simp [chainWalk, chainCluster_zero, hc]
      | succ k =>
        have hone := chainCluster_one fat hc
        cases hnext : nextCluster fat c with
        | none =>
          have hstop : chainCluster g fat c (1 + k) = none :=
            chainCluster_stopped (by simpa [hnext] using hone) k
          simp [chainWalk, hc, hnext, Nat.add_comm k, hstop]
        | some e =>
          have hshift := chainCluster_shift (by simpa [hnext] using hone) k
          simp [chainWalk, hc, hnext, ih, hshift]
    · have hstop : chainCluster g fat c (0 + k) = none :=
        chainCluster_stopped (by simp [chainCluster_zero, hc]) k
      rw [Nat.zero_add] at hstop
      simp [chainWalk, hc, hstop]

theorem mem_chainWalk {g : Geometry} {fat : List Byte} {steps c e : Nat} :
    e ∈ chainWalk g fat steps c ↔ ∃ k, k < steps ∧ chainCluster g fat c k = some e := by
  simp [List.mem_iff_getElem?, chainWalk_getElem?]

theorem chainCluster_of_lt_length {g : Geometry} {fat : List Byte} {steps c k : Nat}
    (h : k < (chainWalk g fat steps c).length) :
    chainCluster g fat c k = some (chainWalk g fat steps c)[k] := by
  have hk := chainWalk_getElem? g fat steps c k
  rw [List.getElem?_eq_getElem h] at hk
  split at hk
  · exact hk.symm
  · cases hk

theorem chainWalk_length_le (g : Geometry) (fat : List Byte) (steps c : Nat) :
    (chainWalk g fat steps c).length ≤ steps := by
  rw [← List.getElem?_eq_none_iff, chainWalk_getElem?, if_neg (Nat.lt_irrefl _)]

/-- The list ends at the bound or where the walk does. -/
theorem chainWalk_ends (g : Geometry) (fat : List Byte) (steps c : Nat) :
    (chainWalk g fat steps c).length = steps ∨
      chainCluster g fat c (chainWalk g fat steps c).length = none := by
  obtain heq | hlt := (chainWalk_length_le g fat steps c).eq_or_lt
  · exact .inl heq
  · have hend := chainWalk_getElem? g fat steps c (chainWalk g fat steps c).length
    rw [if_pos hlt, List.getElem?_eq_none le_rfl] at hend
    exact .inr hend.symm

/-- Every cluster of the walk is a valid one (R230). -/
theorem chainCluster_bounds {g : Geometry} {fat : List Byte} {start k c : Nat}
    (h : chainCluster g fat start k = some c) : 2 ≤ c ∧ c < g.totalClusters + 2 := by
  cases k with
  | zero =>
    obtain ⟨hvalid, hc⟩ := Option.ite_none_right_eq_some.1 h
    cases hc
    exact hvalid
  | succ k =>
    obtain ⟨b, -, hlink⟩ := Option.bind_eq_some_iff.1 h
    obtain ⟨e, -, hentry⟩ := Option.bind_eq_some_iff.1 hlink
    obtain ⟨⟨-, -, hvalid⟩, he⟩ := Option.ite_none_right_eq_some.1 hentry
    cases he
    exact hvalid

/-! ### What the loop collects (R231) -/

/-- The bytes of the clusters, each as the loop reads it. -/
def clusterBlocks (m : MediaStore) (g : Geometry) (cs : List Nat) : List (List Byte) :=
  cs.map fun c => (clusterBytes m g c).getD []

/-- The loop fails at the first cluster it cannot read, and else collects those of the walk. -/
theorem readChainFrom_eq (m : MediaStore) (g : Geometry) (fat : List Byte) (steps c : Nat)
    (out : List Byte) :
    readChainFrom m g fat steps c out =
      if ∃ e ∈ chainWalk g fat steps c, clusterBytes m g e = none then none
      else some (out ++ (clusterBlocks m g (chainWalk g fat steps c)).flatten) := by
  induction steps generalizing c out with
  | zero => simp [readChainFrom, chainWalk, clusterBlocks]
  | succ steps ih =>
    rw [readChainFrom_succ]
    by_cases hc : validCluster g c = true
    · cases hread : clusterBytes m g c with
      | none => simp [chainWalk, hc, hread]
      | some d =>
        cases hnext : nextCluster fat c with
        | none => simp [chainWalk, clusterBlocks, hc, hread, hnext]
        | some e => simp [chainWalk, clusterBlocks, hc, hread, hnext, ih]
    · simp [chainWalk, clusterBlocks, hc]

/-- ReadChain fails exactly on an unreadable cluster of the walk within the bound. -/
theorem readChain_eq_none_iff {m : MediaStore} {g : Geometry} {fat : List Byte} {start : Nat} :
    readChain m g fat start = none ↔ ∃ k c, k < g.totalClusters + 2 ∧
      chainCluster g fat start k = some c ∧ clusterBytes m g c = none := by
  simp only [readChain, readChainFrom_eq, ite_eq_left_iff, reduceCtorEq, imp_false, not_not,
    mem_chainWalk]
  constructor
  · rintro ⟨c, ⟨k, hk, hc⟩, hread⟩
    exact ⟨k, c, hk, hc, hread⟩
  · rintro ⟨k, c, hk, hc, hread⟩
    exact ⟨c, ⟨k, hk, hc⟩, hread⟩

/-- ReadChain, where it gives bytes: all clusters of the walk can be read, and these are their blocks. -/
theorem readChain_eq_some {m : MediaStore} {g : Geometry} {fat out : List Byte} {start : Nat}
    (h : readChain m g fat start = some out) :
    (∀ c ∈ chainWalk g fat (g.totalClusters + 2) start, ∃ d, clusterBytes m g c = some d) ∧
      out = (clusterBlocks m g (chainWalk g fat (g.totalClusters + 2) start)).flatten := by
  obtain ⟨hread, hout⟩ := Option.ite_none_left_eq_some.1 ((readChainFrom_eq ..).symm.trans h)
  exact ⟨fun c hc => Option.ne_none_iff_exists'.1 fun hnone => hread ⟨c, hc, hnone⟩,
    by simpa using hout.symm⟩

/-- Where every cluster can be read, each block is a whole cluster. -/
theorem length_of_mem_clusterBlocks {m : MediaStore} {g : Geometry} {cs : List Nat}
    (h : ∀ c ∈ cs, ∃ d, clusterBytes m g c = some d) :
    ∀ b ∈ clusterBlocks m g cs, b.length = g.bytesPerCluster := by
  intro b hb
  obtain ⟨c, hc, rfl⟩ := List.mem_map.1 hb
  obtain ⟨d, hd⟩ := h c hc
  rw [hd, Option.getD_some, clusterBytes_length hd]

/-- A start that is no valid cluster ends the loop at once (R230, R231). -/
theorem readChain_of_invalid {g : Geometry} {start : Nat} (m : MediaStore) (fat : List Byte)
    (h : start < 2 ∨ g.totalClusters + 2 ≤ start) : readChain m g fat start = some [] := by
  have hinvalid : validCluster g start = false := by
    simp only [validCluster, Bool.and_eq_false_iff, decide_eq_false_iff_not]
    omega
  rw [readChain, readChainFrom_succ, hinvalid]
  rfl

/-! ### The free clusters (R233, R234) -/

/-- Allocate is the beginning of the free list, where that is long enough (R233). -/
theorem allocate_eq (g : Geometry) (fat : List Byte) (count : Nat) :
    allocate g fat count =
      if freeClusters g fat < count then none else some ((freeList g fat).take count) := by
  have hshort : ((freeList g fat).take count).length < count ↔ freeClusters g fat < count := by
    rw [List.length_take, min_lt_iff, freeClusters]
    simp
  exact if_congr hshort rfl rfl

/-- An ascending list's first elements lie below the rest. -/
theorem lt_of_mem_take_of_not_mem {l : List Nat} (h : l.Pairwise (· < ·)) {n c d : Nat}
    (hc : c ∈ l) (hnot : c ∉ l.take n) (hd : d ∈ l.take n) : d < c := by
  rw [← List.take_append_drop n l] at h hc
  obtain ⟨-, -, hbelow⟩ := List.pairwise_append.1 h
  exact hbelow d hd c ((List.mem_append.1 hc).resolve_left hnot)

/-- FreeClusters as a count over all cluster numbers: 0 and 1 take no part (R230, R234). -/
theorem freeClusters_eq_countP (g : Geometry) (fat : List Byte) :
    freeClusters g fat = (List.range (g.totalClusters + 2)).countP fun c =>
      decide (2 ≤ c) && decide (readEntry fat c = some 0) := by
  have hrange : List.range (g.totalClusters + 2) = [0, 1] ++ List.range' 2 g.totalClusters := by
    rw [List.range_eq_range', Nat.add_comm, ← List.range'_append_1]
    rfl
  have hsmall : [0, 1].countP
      (fun c => decide (2 ≤ c) && decide (readEntry fat c = some 0)) = 0 := by simp
  rw [hrange, List.countP_append, hsmall, Nat.zero_add, freeClusters, freeList,
    ← List.countP_eq_length_filter]
  refine List.countP_congr fun c hc => ?_
  obtain ⟨htwo, -⟩ := List.mem_range'_1.1 hc
  simp [isFree, htwo]

end Sys2Proof.Machine

namespace Sys2Proof.Proofs

open Sys2Proof.Machine

/-- Settles O48: the loop collects the blocks of the walk's clusters, or fails on one of them. -/
theorem chainIsBoundedAndFailsOnlyOnIo : Obligations.ChainIsBoundedAndFailsOnlyOnIo := by
  refine ⟨fun m g fat out start hout => ?content, fun m g fat start => readChain_eq_none_iff,
    fun m g fat start hreadable => ?total, fun m g fat start => readChain_of_invalid m fat⟩
  case content =>
    obtain ⟨hread, rfl⟩ := readChain_eq_some hout
    have hlen := length_of_mem_clusterBlocks hread
    refine ⟨_, chainWalk_length_le g fat _ start, ?_, fun k hk => ?_, chainWalk_ends g fat _ start⟩
    · rw [List.length_flatten, List.map_eq_replicate_iff.2 hlen, List.sum_replicate_nat,
        clusterBlocks, List.length_map]
    · obtain ⟨d, hd⟩ := hread _ (List.getElem_mem hk)
      refine ⟨_, chainCluster_of_lt_length hk, ?_⟩
      rw [take_drop_flatten (b := d) hlen (by simp [clusterBlocks, hk, hd])]
      exact hd
  case total =>
    refine Option.ne_none_iff_exists'.1 fun hfail => ?_
    obtain ⟨k, c, -, hc, hnone⟩ := readChain_eq_none_iff.1 hfail
    obtain ⟨hlow, hhigh⟩ := chainCluster_bounds hc
    exact hreadable c hlow hhigh hnone

/-- Settles O49: Allocate takes from the front of the ascending free list. -/
theorem allocateTakesTheFirstFreeClusters : Obligations.AllocateTakesTheFirstFreeClusters := by
  intro g fat count
  rw [allocate_eq]
  refine ⟨fun cs hcs => ?_, by simp, freeClusters_eq_countP g fat⟩
  obtain ⟨hcount, hcs⟩ := Option.ite_none_left_eq_some.1 hcs
  cases hcs
  refine ⟨List.length_take_of_le (Nat.not_lt.1 hcount), (freeList_ascending g fat).take,
    fun c hc => mem_freeList.1 (List.mem_of_mem_take hc), fun c hlow hhigh hfree hnot d hd => ?_⟩
  exact lt_of_mem_take_of_not_mem (freeList_ascending g fat) (mem_freeList.2 ⟨hlow, hhigh, hfree⟩)
    hnot hd

end Sys2Proof.Proofs
end

section
/-! Names and times (44_directory_parser.md R255, R256, R259, R260, R263): what a long-name fragment leaves
in the accumulator, where a long name ends, what a name field says and how every field is one, and the
fields of a timestamp as numbers. -/

namespace Sys2Proof.Machine

/-! ### The accumulator (R255, R256) -/

theorem fragmentUnit_eq (e : List Byte) (j : Nat) :
    fragmentUnit e j = le16 e (unitPositions.getD j 0) := (le16_eq_ofNat _ _).symm

theorem lfnResize_eq (acc : List U16) (e : List Byte) :
    lfnResize acc e = if byteAt e 0 &&& 0x40 ≠ 0 then
      List.replicate ((byteAt e 0).toNat % 32 * 13) 0x0000 else acc := by
  rw [← lfnSeq_eq]
  rfl

/-- A fragment without a number, or with one past the accumulator, writes no unit. -/
theorem lfnFragment_of_ignored {acc : List U16} {e : List Byte}
    (h : lfnSeq e = 0 ∨ (lfnResize acc e).length < lfnSeq e * 13) :
    lfnFragment acc e = lfnResize acc e := if_pos h

theorem lfnFragment_of_taken {acc : List U16} {e : List Byte} (hseq : 1 ≤ lfnSeq e)
    (hlen : lfnSeq e * 13 ≤ (lfnResize acc e).length) :
    lfnFragment acc e = putUnits e unitPositions ((lfnSeq e - 1) * 13) (lfnResize acc e) :=
  if_neg (not_or.2 ⟨Nat.pos_iff_ne_zero.1 hseq, Nat.not_lt.2 hlen⟩)

/-- Units are written in place: only the resizing bit changes the length. -/
@[simp] theorem lfnFragment_length (acc : List U16) (e : List Byte) :
    (lfnFragment acc e).length = (lfnResize acc e).length := by
  by_cases h : lfnSeq e = 0 ∨ (lfnResize acc e).length < lfnSeq e * 13
  · rw [lfnFragment_of_ignored h]
  · rw [lfnFragment_of_taken (by omega) (by omega), putUnits_length]

/-! ### Long names (R259) -/

theorem longName_cons (u : U16) (us : List U16) :
    longName (u :: us) = if u = 0x0000 then [] else u :: longName us := by
  simp only [longName, List.takeWhile_cons, bne_iff_ne, ne_eq, ite_not]

theorem longName_ends (acc : List U16) :
    longName acc = acc ∨ acc[(longName acc).length]? = some 0x0000 := by
  induction acc with
  | nil => exact .inl rfl
  | cons u us ih =>
    rw [longName_cons]
    split
    · next hnul => exact .inr (by simp [hnul])
    · simpa using ih

/-! ### Name fields (R260) -/

theorem unescapeFirst_eq (b : List Byte) :
    unescapeFirst b = if b.head? = some 0x05 then 0xE5 :: b.tail else b := by
  cases b with
  | nil => rfl
  | cons x xs =>
    simp only [unescapeFirst, List.head?_cons, Option.some.injEq, List.tail_cons]
    split <;> rfl

/-- Undoing the escape makes no space and touches none, so it commutes with the filling. -/
theorem unescapeFirst_append_spaces (b : List Byte) (n : Nat) :
    unescapeFirst (b ++ List.replicate n 0x20) = unescapeFirst b ++ List.replicate n 0x20 := by
  cases b with
  | nil => cases n <;> rfl
  | cons => rfl

theorem unescapeFirst_getLast? {b : List Byte} (h : b.getLast? ≠ some 0x20) :
    (unescapeFirst b).getLast? ≠ some 0x20 := by
  cases b with
  | nil => exact h
  | cons x xs =>
    cases xs with
    | nil => by_cases hx : x = 0x05 <;> simp_all [unescapeFirst]
    | cons => simpa [unescapeFirst] using h

/-- Trimming as the library's operation. -/
theorem trimSpaces_eq (f : List Byte) : trimSpaces f = f.rdropWhile (· == 0x20) := rfl

theorem trimSpaces_getLast? (f : List Byte) : (trimSpaces f).getLast? ≠ some 0x20 := by
  intro h
  obtain ⟨hne, hlast⟩ := List.mem_getLast?_eq_getLast h
  exact List.rdropWhile_last_not _ _ hne (beq_iff_eq.2 hlast.symm)

/-- Every field is its trimmed bytes, filled up with spaces. -/
theorem paddedField_trimSpaces (f : List Byte) : paddedField (trimSpaces f) f.length = f := by
  have hspaces : f.rtakeWhile (· == 0x20) = List.replicate (f.rtakeWhile (· == 0x20)).length 0x20 :=
    List.eq_replicate_iff.2 ⟨rfl, fun x hx => by simpa using List.mem_rtakeWhile_imp hx⟩
  have happend : trimSpaces f ++ f.rtakeWhile (· == 0x20) = f := List.rdropWhile_append_rtakeWhile
  have hlen : (f.rtakeWhile (· == 0x20)).length = f.length - (trimSpaces f).length := by
    rw [← congrArg List.length happend, List.length_append, Nat.add_sub_cancel_left]
  rw [paddedField, ← hlen, ← hspaces, happend]

theorem trimSpaces_length_le (f : List Byte) : (trimSpaces f).length ≤ f.length :=
  (List.rdropWhile_prefix _ f).length_le

theorem shortName_paddedField {b x : List Byte} (hb : b.length ≤ 8) (hx : x.length ≤ 3)
    (hbLast : b.getLast? ≠ some 0x20) (hxLast : x.getLast? ≠ some 0x20) (rest : List Byte) :
    shortName (paddedField b 8 ++ (paddedField x 3 ++ rest)) =
      (unescapeFirst b ++ if x = [] then [] else 0x2E :: x).map fun v => v.zeroExtend 16 := by
  have hblen := paddedField_length hb
  have hxlen := paddedField_length hx
  have hbase : entryBytes (paddedField b 8 ++ (paddedField x 3 ++ rest)) 0 8 = paddedField b 8 := by
    rw [entryBytes_eq (by simp [hblen]), List.drop_zero, List.take_left' hblen]
  have hext : entryBytes (paddedField b 8 ++ (paddedField x 3 ++ rest)) 8 3 = paddedField x 3 := by
    rw [entryBytes_eq (by simp [hblen, hxlen]; omega), List.drop_left' hblen, List.take_left' hxlen]
  rw [shortName, shortNameBytes, hbase, hext]
  simp only [paddedField, unescapeFirst_append_spaces,
    trimSpaces_append _ (unescapeFirst_getLast? hbLast), trimSpaces_append _ hxLast]
  split <;> simp

/-- The first 11 bytes of an entry are two padded fields. -/
theorem exists_paddedFields {e : List Byte} (h : 11 ≤ e.length) :
    e = paddedField (trimSpaces (e.take 8)) 8 ++
      (paddedField (trimSpaces ((e.drop 8).take 3)) 3 ++ e.drop 11) := by
  have hbase := paddedField_trimSpaces (e.take 8)
  have hext := paddedField_trimSpaces ((e.drop 8).take 3)
  rw [List.length_take_of_le (by omega)] at hbase
  rw [List.length_take_of_le (by rw [List.length_drop]; omega)] at hext
  rw [hbase, hext, show e.drop 11 = (e.drop 8).drop 3 from by rw [List.drop_drop],
    List.take_append_drop, List.take_append_drop]

/-! ### Times (R262, R263) -/

theorem timestamp_eq (t d : U16) :
    timestamp t d = if t = 0 ∧ d = 0 then none else
      some (fourDigits (1980 + d.toNat / 512) ++ '-' :: twoDigits (d.toNat / 32 % 16) ++
        '-' :: twoDigits (d.toNat % 32) ++ ' ' :: twoDigits (t.toNat / 2048) ++
        ':' :: twoDigits (t.toNat / 32 % 64) ++ ':' :: twoDigits (t.toNat % 32 * 2)) := by
  have ht := t.isLt
  have hd := d.isLt
  have hyear : yearOf d = 1980 + d.toNat / 512 := by
    simp [yearOf, Nat.shiftRight_eq_div_pow]; omega
  have hmonth : monthOf d = d.toNat / 32 % 16 := by simp [monthOf, Nat.shiftRight_eq_div_pow]
  have hday : dayOf d = d.toNat % 32 := by simp [dayOf]
  have hhour : hourOf t = t.toNat / 2048 := by simp [hourOf, Nat.shiftRight_eq_div_pow]; omega
  have hminute : minuteOf t = t.toNat / 32 % 64 := by simp [minuteOf, Nat.shiftRight_eq_div_pow]
  have hsecond : secondOf t = t.toNat % 32 * 2 := by simp [secondOf]
  rw [timestamp, hyear, hmonth, hday, hhour, hminute, hsecond]
  simp only [List.append_assoc, List.cons_append, List.nil_append]

end Sys2Proof.Machine

namespace Sys2Proof.Proofs

open Sys2Proof.Machine

/-- Settles O54: the resizing bit, then the units that `putUnits` writes up to the first stop. -/
theorem longNameFragmentFillsTheAccumulator : Obligations.LongNameFragmentFillsTheAccumulator := by
  intro acc acc0 e seq hseq hacc0
  obtain rfl : lfnResize acc e = acc0 := by rw [hacc0, hseq, lfnResize_eq]
  rw [← lfnSeq_eq] at hseq
  subst hseq
  refine ⟨lfnFragment_of_ignored, fun hpos hlen => ⟨lfnFragment_length acc e, ?_⟩, fun hbit => ?sized,
    fun hbit => ?kept⟩
  · rw [lfnFragment_of_taken hpos hlen]
    simp only [fragmentUnit_eq]
    have hunits : unitPositions.length = 13 := rfl
    refine ⟨fun i hi => putUnits_outside _ _ _ _ (by omega),
      fun j hj hwritten => putUnits_written _ _ _ _ hj (by omega) hwritten, ?_⟩
    rintro j hj ⟨k, hk, hstop⟩
    exact putUnits_stopped _ _ _ _ hk hj hstop
  case sized =>
    have hlen : (lfnFragment acc e).length = lfnSeq e * 13 := by
      rw [lfnFragment_length, lfnResize_eq, if_pos hbit, List.length_replicate, lfnSeq_eq]
    have hmax := lfnSeq_eq e
    exact ⟨hlen, by omega⟩
  case kept =>
    have hresize (a : List U16) : lfnResize a e = a := by rw [lfnResize_eq, if_neg (not_not.2 hbit)]
    exact ⟨by rw [lfnFragment_length, hresize],
      List.eq_nil_of_length_eq_zero (by rw [lfnFragment_length, hresize, List.length_nil])⟩

/-- Settles O58: the units before the NUL, the two padded fields, and every entry has them. -/
theorem namesAreReadFromTheirFields : Obligations.NamesAreReadFromTheirFields := by
  refine ⟨fun acc => ⟨List.takeWhile_prefix _, fun hnul => ?_, longName_ends acc⟩,
    fun b x rest hb hx hbLast hxLast => ?_, fun e he => ?_⟩
  · simpa using List.mem_takeWhile_imp hnul
  · rw [shortName_paddedField hb hx hbLast hxLast, unescapeFirst_eq]
  · exact ⟨_, _, _, (trimSpaces_length_le _).trans (List.length_take_le _ _),
      (trimSpaces_length_le _).trans (List.length_take_le _ _), trimSpaces_getLast? _,
      trimSpaces_getLast? _, exists_paddedFields he⟩

/-- Settles O53, by the fields as numbers; the example runs. -/
theorem timestampOnlyWhenNonZero : Obligations.TimestampOnlyWhenNonZero := by
  refine ⟨fun t d => ?_, fun t d text htext => ?_, by decide⟩
  · rw [timestamp_eq, ite_eq_left_iff]
    simp
  · rw [timestamp_eq] at htext
    exact (Option.some.inj (Option.ite_none_left_eq_some.1 htext).2).symm

end Sys2Proof.Proofs
end

section
/-! The scan of a directory (44_directory_parser.md R251 to R258, R261, R264, R265): one equation per kind of
entry, the children that a directory node gets, and the levels that the depth limit leaves. -/

namespace Sys2Proof.Machine

/-! ### The entry list (R251) -/

theorem directoryEntries_of_short {raw : List Byte} (h : raw.length < 32) : directoryEntries raw = [] := by
  simp [directoryEntries, Config.dirEntryBytes, Nat.div_eq_of_lt h]

/-! ### The scan, by the kind of its next entry (R252 to R258, R261) -/

theorem parseEntries_endMarker (sub : Nat → Forest) {e : List Byte} (h : byteAt e 0 = 0x00)
    (es : List (List Byte)) (acc : List U16) : parseEntries sub (e :: es) acc = .nil := if_pos h

/-- R253, R257, R261: a deleted, label or dot entry. -/
def IsSkippedEntry (e : List Byte) : Prop :=
  byteAt e 0 = 0xE5 ∨ (byteAt e 11 ≠ 0x0F ∧ byteAt e 11 &&& 0x08 ≠ 0) ∨
    (byteAt e 11 ≠ 0x0F ∧ (shortName e = [0x2E] ∨ shortName e = [0x2E, 0x2E]))

theorem parseEntries_skipped (sub : Nat → Forest) {e : List Byte} (h0 : byteAt e 0 ≠ 0x00)
    (h : IsSkippedEntry e) (es : List (List Byte)) (acc : List U16) :
    parseEntries sub (e :: es) acc = parseEntries sub es [] := by
  rw [parseEntries, if_neg h0]
  obtain hdeleted | ⟨hattr, hlabel⟩ | ⟨hattr, hdot⟩ := h
  · rw [if_pos hdeleted]
  · rw [if_neg (show attrOf e ≠ 0x0F from hattr), if_pos (show attrOf e &&& 0x08 ≠ 0 from hlabel),
      ite_self]
  · rw [if_neg (show attrOf e ≠ 0x0F from hattr), if_pos ((isDotName_iff _).2 hdot), ite_self,
      ite_self]

theorem parseEntries_normal (sub : Nat → Forest) {e : List Byte} (h : IsNormalEntry e)
    (es : List (List Byte)) (acc : List U16) :
    parseEntries sub (e :: es) acc = .node (entryInfo acc e)
      (if isDirectory e then sub (firstClusterOf e).toNat else .nil) (parseEntries sub es []) := by
  obtain ⟨-, h0, h5, hattr, hlabel, hdot, hdots⟩ := h
  have hname : ¬ isDotName (shortName e) = true := (isDotName_iff _).not.2 (not_or.2 ⟨hdot, hdots⟩)
  rw [parseEntries, if_neg h0, if_neg h5, if_neg (show attrOf e ≠ 0x0F from hattr),
    if_neg (not_not.2 (show attrOf e &&& 0x08 = 0 from hlabel)), if_neg hname]

/-- R258, R259: the fields of the node as numbers. -/
theorem entryInfo_eq (acc : List U16) (e : List Byte) :
    entryInfo acc e =
      { kind := if byteAt e 11 &&& 0x10 ≠ 0 then .directory else .file,
        name := if longName acc ≠ [] then longName acc else shortName e,
        size := leNat e 28 4, firstCluster := BitVec.ofNat 16 (leNat e 26 2),
        modified := timestamp (BitVec.ofNat 16 (leNat e 22 2)) (BitVec.ofNat 16 (leNat e 24 2)),
        capacity := none, free := none } := by
  simp only [entryInfo, isDirectory_iff, displayName, le32_toNat, firstClusterOf, le16_eq_ofNat]

/-! ### A directory and its children (R251, R264) -/

/-- R264: the nodes below a directory entry of first cluster `c`, in a directory at `depth`. -/
def subDirectory (p : Params) (m : MediaStore) (g : Geometry) (fat : List Byte) (depth c : Nat) :
    Forest :=
  if depth + 1 ≤ p.maxDirDepth then
    (readChain m g fat c).elim .nil fun r => parseDirectory p m g fat r (depth + 1)
  else .nil

theorem parseDirectory_eq (p : Params) (m : MediaStore) (g : Geometry) (fat raw : List Byte)
    (depth : Nat) : parseDirectory p m g fat raw depth =
      parseEntries (subDirectory p m g fat depth) (directoryEntries raw) [] := by
  obtain ⟨sub, hscan, hsub⟩ := parseLevels_sub m g fat (p.maxDirDepth - depth)
  have hchildren : sub = subDirectory p m g fat depth := by
    funext c
    rw [hsub c, subDirectory]
    by_cases hdeep : depth + 1 ≤ p.maxDirDepth
    · obtain ⟨n, hn⟩ : ∃ n, p.maxDirDepth - depth = n + 1 := ⟨p.maxDirDepth - depth - 1, by omega⟩
      have hbelow : p.maxDirDepth - (depth + 1) = n := by omega
      simp only [hn, if_pos hdeep, parseDirectory, hbelow]
    · rw [if_neg hdeep, show p.maxDirDepth - depth = 0 from by omega]
  rw [parseDirectory, hscan, hchildren]

/-- Fragments leave a pending name, and the scan goes on after them (R251, R254, R255). -/
theorem parseDirectory_fragments {fs : List (List Byte)} (h : ∀ f ∈ fs, IsFragment f) (p : Params)
    (m : MediaStore) (g : Geometry) (fat raw : List Byte) (depth : Nat) :
    parseDirectory p m g fat (fs.flatten ++ raw) depth =
      parseEntries (subDirectory p m g fat depth) (directoryEntries raw) (pendingName fs) := by
  rw [parseDirectory_eq, directoryEntries_flatten (fun f hf => (h f hf).1), parseEntries_fragments _ h]
  rfl

/-! ### The levels of a tree (R264) -/

/-- A scan adds one level to those of the children. -/
theorem parseEntries_height_le {sub : Nat → Forest} {n : Nat} (h : ∀ c, (sub c).height ≤ n)
    (es : List (List Byte)) (acc : List U16) : (parseEntries sub es acc).height ≤ n + 1 := by
  fun_induction parseEntries sub es acc with
  | case1 | case2 => exact Nat.zero_le _
  | case3 | case4 | case5 | case6 => assumption
  | case7 e rest acc _ _ _ _ _ ih =>
    have hkids : (if isDirectory e then sub (firstClusterOf e).toNat else .nil).height ≤ n := by
      split
      · exact h _
      · exact Nat.zero_le _
    exact max_le (Nat.succ_le_succ hkids) ih

theorem parseLevels_height_le (m : MediaStore) (g : Geometry) (fat : List Byte) (levels : Nat)
    (raw : List Byte) : (parseLevels m g fat levels raw).height ≤ levels + 1 := by
  induction levels generalizing raw with
  | zero => exact parseEntries_height_le (fun _ => Nat.le_refl _) _ _
  | succ n ih =>
    obtain ⟨sub, hscan, hsub⟩ := parseLevels_sub m g fat (n + 1)
    rw [hscan]
    refine parseEntries_height_le (fun c => ?_) _ _
    rw [hsub c]
    cases readChain m g fat c with
    | none => exact Nat.zero_le _
    | some r => exact ih r

/-! ### The disk root (R265) -/

theorem buildTree_eq (p : Params) (m : MediaStore) (name : List U16) :
    buildTree p m name = (loadGeometry m).bind fun g =>
      (rangeRead m (g.fatStart : Int) (g.spf * g.bps)).bind fun fat =>
        (rangeRead m (g.rootStart : Int) (g.rootDirSectors * g.bps)).map fun raw =>
          .node (diskInfo m g fat name) (parseDirectory p m g fat raw 0) .nil := by
  unfold buildTree fatBuffer
  cases loadGeometry m with
  | none => rfl
  | some g =>
    cases hfat : rangeRead m (g.fatStart : Int) (g.spf * g.bps) with
    | none => simp [hfat]
    | some fat =>
      cases hroot : rangeRead m (g.rootStart : Int) (g.rootDirSectors * g.bps) <;> simp [hfat, hroot]

end Sys2Proof.Machine

namespace Sys2Proof.Proofs

open Sys2Proof.Machine

/-- Settles O51: the fragments leave a pending name, which the next entry drops. -/
theorem directoryScanSkipsAndStops : Obligations.DirectoryScanSkipsAndStops := by
  intro p m g fat fs e rest depth hfs
  refine ⟨fun hshort => ?_, fun hlen hend => ?_, fun hlen h0 hskip => ?_⟩
  · rw [parseDirectory_fragments hfs, directoryEntries_of_short hshort]
    rfl
  · rw [parseDirectory_fragments hfs, directoryEntries_append hlen, parseEntries_endMarker _ hend]
  · rw [parseDirectory_fragments hfs, directoryEntries_append hlen, parseEntries_skipped _ h0 hskip,
      parseDirectory_eq]

/-- Settles O57: the fragments leave the name, the entry the other fields and the children. -/
theorem normalEntryGivesItsNode : Obligations.NormalEntryGivesItsNode := by
  intro p m g fat fs e rest depth hfs he
  rw [parseDirectory_fragments hfs, directoryEntries_append he.1, parseEntries_normal _ he,
    entryInfo_eq, ← parseDirectory_eq, firstClusterOf, le16_toNat]
  simp only [isDirectory_iff, subDirectory, ite_and]

/-- Settles O52: one level for each directory that the limit still allows, and one for the entries. -/
theorem directoryDepthIsCapped : Obligations.DirectoryDepthIsCapped := fun _ m g fat raw _ =>
  parseLevels_height_le m g fat _ raw

/-- Settles O55: the three reads, each of which can fail, and the node they give. -/
theorem treeNeedsGeometryFatAndRoot : Obligations.TreeNeedsGeometryFatAndRoot := by
  intro p m name
  refine ⟨?fails, fun g fat raw hg hfat hraw => ?gives⟩
  case fails =>
    rw [buildTree_eq, Option.bind_eq_none_iff]
    refine forall₂_congr fun g _ => ?_
    cases rangeRead m (g.fatStart : Int) (g.spf * g.bps) <;> simp
  case gives =>
    rw [buildTree_eq, hg, Option.bind_some, hfat, Option.bind_some, hraw, Option.map_some]
    rfl

end Sys2Proof.Proofs
end

section
/-! The interrupt latch and the activity report (60_exceptions.md R303 to R310): an access or host operation
keeps the latch, sets it by R304 or clears it by R305, and the activity rule alone reports activity; then
that no step ends in a fault (R300). -/

namespace Sys2Proof.Machine

/-! ### The latch, the activity report, and the events that tell of them -/

/-- What R303 to R310 speak of: the latch, the reported activity, and the count of each of their events. -/
def signals (s : State) : Bool × Bool × Nat × Nat × Nat :=
  (s.fdc.irq, s.fdc.activeReported, eventCount .irqRise s, eventCount .ioStarted s,
    eventCount .ioStopped s)

theorem signals_eq_iff (s t : State) :
    signals t = signals s ↔
      t.fdc.irq = s.fdc.irq ∧ t.fdc.activeReported = s.fdc.activeReported ∧
        eventCount .irqRise t = eventCount .irqRise s ∧
        eventCount .ioStarted t = eventCount .ioStarted s ∧
        eventCount .ioStopped t = eventCount .ioStopped s := by
  simp [signals]

/-- R304: setting the latch emits IrqRise exactly from a clear latch, and no activity event. -/
theorem signals_setIrq (s : State) :
    signals (setIrq s) =
      (true, s.fdc.activeReported, eventCount .irqRise s + (if s.fdc.irq then 0 else 1),
        eventCount .ioStarted s, eventCount .ioStopped s) := by
  cases h : s.fdc.irq <;> simp [signals, eventCount, h]

theorem signals_setIrq_congr {s t : State} (h : signals t = signals s) :
    signals (setIrq t) = signals (setIrq s) := by
  obtain ⟨hirq, hreported, hrise, hstarted, hstopped⟩ := (signals_eq_iff s t).1 h
  simp only [signals_setIrq, hirq, hreported, hrise, hstarted, hstopped]

theorem signals_clearIrq_congr {s t : State} (h : signals t = signals s) :
    signals (clearIrq t) = signals (clearIrq s) :=
  congrArg (Prod.map (fun _ => false) id) h

/-- The latch is kept or set (R304), and its events and the activity report tell just that. -/
def RaisesAtMost (s t : State) : Prop := signals t = signals s ∨ signals t = signals (setIrq s)

/-- The latch is cleared (R305), with no event. -/
def Clears (s t : State) : Prop := signals t = signals (clearIrq s)

theorem RaisesAtMost.of_signals_eq {s t u : State} (h : RaisesAtMost u t)
    (hu : signals u = signals s) : RaisesAtMost s t :=
  h.imp (·.trans hu) (·.trans (signals_setIrq_congr hu))

theorem RaisesAtMost.keeps_set_latch {s t : State} (h : RaisesAtMost s t) (hset : s.fdc.irq = true) :
    t.fdc.irq = true := by
  obtain h | h := h
  · exact ((signals_eq_iff _ _).1 h).1.trans hset
  · exact ((signals_eq_iff _ _).1 h).1

/-- What keeps, sets or clears the latch reports no activity (R310 leaves that to the activity rule). -/
theorem activity_kept {s t : State} (h : RaisesAtMost s t ∨ Clears s t) :
    t.fdc.activeReported = s.fdc.activeReported ∧
      eventCount .ioStarted t = eventCount .ioStarted s ∧
      eventCount .ioStopped t = eventCount .ioStopped s := by
  obtain (h | h) | h := h
  · obtain ⟨-, hreported, -, hactivity⟩ := (signals_eq_iff _ _).1 h
    exact ⟨hreported, hactivity⟩
  · rw [signals_setIrq] at h
    simp_all [signals]
  · obtain ⟨-, hreported, -, hactivity⟩ := (signals_eq_iff _ _).1 h
    exact ⟨hreported, hactivity⟩

/-- R307: IrqRise tells the rising edge of the latch, and nothing else. -/
theorem irqRise_count {s t : State} (h : RaisesAtMost s t ∨ Clears s t) :
    eventCount .irqRise t =
      eventCount .irqRise s + (if !s.fdc.irq && t.fdc.irq then 1 else 0) := by
  obtain (h | h) | h := h
  · obtain ⟨hirq, -, hrise, -⟩ := (signals_eq_iff _ _).1 h
    simp [hirq, hrise]
  · rw [signals_setIrq] at h
    cases hs : s.fdc.irq <;> simp_all [signals]
  · obtain ⟨hirq, -, hrise, -⟩ := (signals_eq_iff _ _).1 h
    have hclear : t.fdc.irq = false := hirq
    rw [hrise, hclear, Bool.and_false]
    rfl

/-! ### The shared operations -/

/-- `Flush` is no event of the latch or of the activity report. -/
theorem signals_flushMedium (s : State) : signals (flushMedium s) = signals s := by
  unfold flushMedium
  split
  · simp [signals, eventCount]
  · rfl

theorem signals_memWrite (off : Int) (v : Byte) (s : State) :
    signals (memWrite off v s) = signals s := by
  simp [signals, eventCount]

theorem signals_memFill (off : Int) (v : Byte) (n : Nat) (s : State) :
    signals (memFill off v n s) = signals s := by
  simp [signals, eventCount]

theorem signals_memReadState (s : State) : signals (memReadState s) = signals s := by
  simp [signals, eventCount]

/-- R141: concluding sets the latch where the command asks for it. -/
theorem conclude_raisesAtMost {s u : State} (next : Phase) (raise : Bool)
    (h : signals u = signals s) : RaisesAtMost s (conclude next raise u) := by
  cases raise
  · exact .inl h
  · exact .inr (signals_setIrq_congr h :)

/-- R118: ExecDone sets the latch. -/
theorem execDone_raisesAtMost {s u : State} (h : signals u = signals s) :
    RaisesAtMost s (execDone u) :=
  .inr (signals_setIrq_congr h :)

/-- R120: a transfer step sets the latch at most, by ExecDone at the end of its window. -/
theorem moveWindow_raisesAtMost {s u : State} (dir : XferDir) (h : signals u = signals s) :
    RaisesAtMost s (moveWindow dir u) := by
  have hends (v : State) (hv : signals v = signals s) :
      RaisesAtMost s (if v.fdc.phase = .execution then execDone v else v) := by
    split
    · exact execDone_raisesAtMost hv
    · exact .inl hv
  unfold moveWindow
  simp only []
  split
  · refine hends _ ?_
    split
    · exact (signals_flushMedium _).trans h
    · exact h
  · exact .inl h

theorem xferToHost_raisesAtMost (s : State) : RaisesAtMost s (xferToHost s) :=
  moveWindow_raisesAtMost .toHost (signals_memReadState s)

theorem xferFromHost_raisesAtMost (v : Byte) (s : State) : RaisesAtMost s (xferFromHost v s) :=
  moveWindow_raisesAtMost .fromHost (signals_memWrite s.fdc.off v s)

/-- R115, R116: the last result byte clears the latch, an earlier one keeps it. -/
theorem readResult_keeps_or_clears (s : State) :
    RaisesAtMost s (readResult s) ∨ (Clears s (readResult s) ∧ s.fdc.idx + 1 = s.fdc.resLen) := by
  simp only [readResult, answerResult_fdc]
  split
  · next hlast =>
    exact .inr ⟨by simp [Clears, signals, eventCount], hlast⟩
  · exact .inl (.inl (by simp [signals, eventCount]))

/-! ### Handlers and command bytes (R110, R111, R140 to R175) -/

/-- R87: storing status and results leaves the latch and the report alone. -/
theorem signals_sevenResults (c h r n : Byte) (s : State) :
    signals { s with fdc := withSevenResults c h r n (withNormalStatus s.fdc) } = signals s := rfl

theorem handle_raisesAtMost {hd : Handler} (h : hd ≠ .senseInterruptStatus) (s : State) :
    RaisesAtMost s (handle hd s) := by
  cases hd
  case senseInterruptStatus => exact absurd rfl h
  case readId =>
    simp only [handle, handleReadId]
    split <;> exact conclude_raisesAtMost _ _ rfl
  case formatTrack =>
    refine conclude_raisesAtMost _ _ ?_
    rw [signals_sevenResults, signals_flushMedium, signals_memFill]
  all_goals exact conclude_raisesAtMost _ _ rfl

/-- R143: Sense Interrupt Status clears the latch. -/
theorem handle_senseInterruptStatus_clears (s : State) :
    Clears s (handle .senseInterruptStatus s) := rfl

theorem executionWrite_raisesAtMost (v : Byte) (s : State) : RaisesAtMost s (executionWrite v s) := by
  unfold executionWrite
  split
  · exact execDone_raisesAtMost rfl
  · split
    · exact xferFromHost_raisesAtMost v s
    · exact .inl rfl

/-- A write of port 5 sets the latch at most, or it completes a command in this step and runs its handler
from a state with the same latch and report (R110 to R113). -/
theorem dataRegisterWrite_raises_or_completes (d : Byte) (s : State) :
    RaisesAtMost s (dataRegisterWrite d s) ∨
      ∃ hd u, dataRegisterWrite d s = handle hd u ∧ signals u = signals s ∧
        CompletesCommand s d hd := by
  unfold dataRegisterWrite
  split
  case h_1 hphase =>
    unfold commandByte
    split
    · next hlen =>
      have hcount : cmdCount (entryOf s.params d) = 1 := Nat.max_eq_right hlen
      exact .inr ⟨_, _, rfl, rfl, .inl ⟨hphase, hcount, by simp [opCmd]⟩⟩
    · exact .inl (.inl rfl)
  case h_2 hphase =>
    unfold parameterByte
    split
    · next hcomplete =>
      have hcount := of_decide_eq_true hcomplete
      exact .inr ⟨_, _, rfl, rfl, .inr ⟨hphase, _, opCmd_receiveParameter d s, hcount, rfl⟩⟩
    · exact .inl (.inl rfl)
  case h_3 => exact .inl (executionWrite_raisesAtMost d s)
  case h_4 => exact .inl (.inl rfl)

theorem dataRegisterWrite_raises_or_clears (d : Byte) (s : State) :
    RaisesAtMost s (dataRegisterWrite d s) ∨
      (Clears s (dataRegisterWrite d s) ∧ CompletesCommand s d .senseInterruptStatus) := by
  obtain hraises | ⟨hd, u, hrun, hu, hcompletes⟩ := dataRegisterWrite_raises_or_completes d s
  · exact .inl hraises
  rw [hrun]
  by_cases hsense : hd = .senseInterruptStatus
  · subst hsense
    exact .inr ⟨(handle_senseInterruptStatus_clears u).trans (signals_clearIrq_congr hu), hcompletes⟩
  · exact .inl ((handle_raisesAtMost hsense u).of_signals_eq hu)

/-! ### Port accesses and host operations -/

theorem dataPortRead_raisesAtMost (s : State) : RaisesAtMost s (dataPortRead s) := by
  unfold dataPortRead
  split
  · exact execDone_raisesAtMost rfl
  · split
    · exact xferToHost_raisesAtMost s
    · exact .inl rfl

theorem dataPortWrite_raisesAtMost (v : Byte) (s : State) : RaisesAtMost s (dataPortWrite v s) := by
  unfold dataPortWrite
  split
  · exact execDone_raisesAtMost rfl
  · split
    · exact xferFromHost_raisesAtMost v s
    · exact .inl rfl

theorem executionRead_raisesAtMost (s : State) : RaisesAtMost s (executionRead s) := by
  unfold executionRead
  split
  · exact execDone_raisesAtMost rfl
  · split
    · exact xferToHost_raisesAtMost s
    · exact .inl rfl

theorem dataRegisterRead_raises_or_clears (s : State) :
    RaisesAtMost s (dataRegisterRead s) ∨
      (Clears s (dataRegisterRead s) ∧ s.fdc.phase = .result ∧ s.fdc.idx + 1 = s.fdc.resLen) := by
  unfold dataRegisterRead
  split
  case h_1 | h_2 => exact .inl (.inl rfl)
  case h_3 => exact .inl (executionRead_raisesAtMost s)
  case h_4 hphase =>
    exact (readResult_keeps_or_clears s).imp_right fun ⟨hclears, hlast⟩ => ⟨hclears, hphase, hlast⟩

/-- R333: a soft reset keeps the latch, whichever port asks for it. -/
theorem signals_dorWrite (v : Byte) (s : State) : signals (dorWrite v s) = signals s := by
  unfold dorWrite; split <;> rfl

theorem signals_pinResetWrite (v : Byte) (s : State) : signals (pinResetWrite v s) = signals s := by
  unfold pinResetWrite; split <;> rfl

/-- The clear points of R306 in one step: the conclusion of `LatchIsClearedOnlyAtTheListedPoints`. -/
def IsClearPoint (r : Request) (s : State) : Prop :=
  r = .host .hardReset ∨
    (∃ d, r = .cpu (.bus (busWord 0x5#4 d)) ∧ s.fdc.phase = .result ∧
      s.fdc.idx + 1 = s.fdc.resLen) ∨
    (∃ d, r = .cpu (.bus (busWord 0xD#4 d)) ∧ CompletesCommand s d .senseInterruptStatus)

theorem portBody_raises_or_clears {i : Instr} {body : State → State} {code : Encoded}
    (hb : portBody i = some body) (hcode : encode i = code) (s : State) :
    RaisesAtMost s (body s) ∨ (Clears s (body s) ∧ IsClearPoint (.cpu code) s) := by
  subst hcode
  cases i <;> cases hb
  case in5 d =>
    exact (dataRegisterRead_raises_or_clears s).imp_right fun ⟨hclears, hlast⟩ =>
      ⟨hclears, .inr (.inl ⟨d, rfl, hlast⟩)⟩
  case out5 d =>
    exact (dataRegisterWrite_raises_or_clears d s).imp_right fun ⟨hclears, hcompletes⟩ =>
      ⟨hclears, .inr (.inr ⟨d, rfl, hcompletes⟩)⟩
  case in0 | in1 => exact .inl (dataPortRead_raisesAtMost s)
  case out0 d | out1 d => exact .inl (dataPortWrite_raisesAtMost d s)
  case out2 d => exact .inl (.inl (signals_dorWrite d s))
  case out4 d => exact .inl (.inl (signals_pinResetWrite d s))
  case in2 | in3 | in4 | in6 | in7 | out3 | out6 | out7 => exact .inl (.inl rfl)

/-- R330: of the host operations only a hard reset touches the latch; Load and Eject emit their own
events. -/
theorem hostBody_raises_or_clears (op : HostOp) (s : State) :
    RaisesAtMost s (hostBody op s) ∨ (Clears s (hostBody op s) ∧ IsClearPoint (.host op) s) := by
  cases op
  case hardReset => exact .inr ⟨rfl, .inl rfl⟩
  case load file => exact .inl (.inl (by simp [hostBody, loadImage, signals, eventCount]))
  case eject =>
    rw [hostBody, ejectImage]
    split
    · exact .inl (.inl (by simp [signals, eventCount]))
    · exact .inl (.inl rfl)
  case loadFailed | mutationGate | fat => exact .inl (.inl rfl)

/-- One access or host operation keeps the latch, sets it, or clears it at a clear point; then the activity
rule runs (R12, R310). -/
theorem step_of_singleStep {s t : State} {r : Request} {rest : List Request}
    (hin : s.inputs = r :: rest) (hsingle : isSingleStep r = true) (hstep : step s = .next t) :
    ∃ u, t = activityRule u ∧
      (RaisesAtMost (openStep s) u ∨ (Clears (openStep s) u ∧ IsClearPoint r s)) := by
  cases r with
  | host op =>
    rw [step_of_host hin] at hstep
    cases hstep
    exact ⟨_, rfl, hostBody_raises_or_clears op (openStep { s with inputs := rest })⟩
  | cpu code =>
    cases code with
    | command bytes => cases hsingle
    | bus w =>
      obtain ⟨body, hb⟩ := portBody_decodeBus w
      rw [step_of_decode_ok hin rfl, exec_of_portBody hb] at hstep
      cases hstep
      exact ⟨_, rfl,
        portBody_raises_or_clears hb (encode_decodeBus w) (openStep { s with inputs := rest })⟩

/-! ### The activity rule (R310) -/

theorem ioStarted_count_activityRule (s : State) :
    eventCount .ioStarted (activityRule s) =
      eventCount .ioStarted s + (if ioActive s && !s.fdc.activeReported then 1 else 0) := by
  rw [eventCount, activityRule_events, List.count_append]
  cases ioActive s <;> cases s.fdc.activeReported <;> rfl

theorem ioStopped_count_activityRule (s : State) :
    eventCount .ioStopped (activityRule s) =
      eventCount .ioStopped s + (if !ioActive s && s.fdc.activeReported then 1 else 0) := by
  rw [eventCount, activityRule_events, List.count_append]
  cases ioActive s <;> cases s.fdc.activeReported <;> rfl

end Sys2Proof.Machine

namespace Sys2Proof.Proofs

open Sys2Proof.Machine

/-- Settles O12: the access itself reports no activity, so the rule's report is the only one. -/
theorem activityIsReportedOncePerTransition : Obligations.ActivityIsReportedOncePerTransition := by
  intro s t r rest hin hsingle hstep
  obtain ⟨u, rfl, hu⟩ := step_of_singleStep hin hsingle hstep
  obtain ⟨hreported, hstarted, hstopped⟩ := activity_kept (hu.imp_right And.left)
  rw [ioActive_activityRule, ioStarted_count_activityRule, ioStopped_count_activityRule, hstarted,
    hstopped, hreported]
  exact ⟨by simp, Nat.zero_add _, Nat.zero_add _⟩

/-- Settles O13: keeping, setting and clearing the latch each count its rising edge. -/
theorem irqRiseOncePerRisingEdge : Obligations.IrqRiseOncePerRisingEdge := by
  intro s t r rest hin hsingle hstep
  obtain ⟨u, rfl, hu⟩ := step_of_singleStep hin hsingle hstep
  rw [eventCount_activityRule (by decide), irqRise_count (hu.imp_right And.left), activityRule_fdc]
  exact Nat.zero_add _

/-- Settles O14: elsewhere the latch is kept or set, and the activity rule does not touch it. -/
theorem latchIsClearedOnlyAtTheListedPoints : Obligations.LatchIsClearedOnlyAtTheListedPoints := by
  intro s t r rest hin hsingle hstep hset hclear
  obtain ⟨u, rfl, hraises | ⟨-, hpoint⟩⟩ := step_of_singleStep hin hsingle hstep
  · have hkept : (activityRule u).fdc.irq = true := by
      simpa using hraises.keeps_set_latch hset
    rw [hkept] at hclear
    cases hclear
  · exact hpoint

/-- Settles O8: each kind of step answers a next state. -/
theorem stepAlwaysCompletes : Obligations.StepAlwaysCompletes := by
  intro s
  obtain hs | ⟨rest, ⟨i, hs⟩ | ⟨bytes, hs⟩ | ⟨op, hs⟩⟩ := step_cases s
  · exact ⟨_, hs⟩
  · obtain ⟨t, ht⟩ := exec_next i { s with inputs := rest }
    exact ⟨t, hs.trans ht⟩
  · exact ⟨_, hs⟩
  · exact ⟨_, hs⟩

end Sys2Proof.Proofs
end

section
/-! Host operations that change the machine (70_reset_and_hazards.md R330, R331, R335 to R338): a hard reset,
and the media store that Load and Eject leave. A loaded file is read back byte by byte (log 10, log 11), and
with no transfer or no medium the activity rule can report only that I/O has stopped (R310). -/

namespace Sys2Proof.Machine

/-! ### The bytes of a loaded file (R40, R335) -/

/-- Writes to distinct offsets do not hide one another: each is read back. -/
theorem Memory.read_writes_mem {bytes : List (Nat × Byte)} {m : Memory} {c : Nat × Byte}
    (hw : m.wf = true) (hdistinct : (bytes.map Prod.fst).Nodup) (hc : c ∈ bytes) (hin : c.1 < m.size) :
    (bytes.foldl (fun m c => m.write c.1 c.2) m).read c.1 = c.2 := by
  induction bytes generalizing m with
  | nil => cases hc
  | cons d rest ih =>
    rw [List.map_cons, List.nodup_cons] at hdistinct
    obtain ⟨hfresh, hdistinct⟩ := hdistinct
    rw [List.foldl_cons]
    obtain rfl | hrest := List.mem_cons.1 hc
    · have hlater : ∀ e ∈ rest, e.1 ≠ c.1 := fun e he heq =>
        hfresh (heq ▸ List.mem_map_of_mem he)
      rw [Memory.read_writes_other rest _ hlater, Memory.read_write_self _ hw hin]
    · exact ih (Memory.write_wf _ _ hw) hdistinct hrest (by rwa [Memory.write_size])

@[simp] theorem ImageFile.ofBytes_size (bs : List Byte) : (ImageFile.ofBytes bs).size = bs.length := rfl

/-- A file lists each of its bytes under its own offset, once. -/
theorem ImageFile.ofBytes_distinct (bs : List Byte) :
    ((ImageFile.ofBytes bs).bytes.map Prod.fst).Nodup := by
  simpa [ImageFile.ofBytes, Function.comp_def] using List.nodup_zipIdx_map_snd bs

theorem ImageFile.mem_ofBytes {bs : List Byte} {i : Nat} (h : i < bs.length) :
    (i, bs[i]) ∈ (ImageFile.ofBytes bs).bytes :=
  List.mem_map.2 ⟨(bs[i], i), List.mk_mem_zipIdx_iff_getElem?.2 (List.getElem?_eq_getElem h), rfl⟩

theorem Memory.read_ofFile_ofBytes {bs : List Byte} {i : Nat} (h : i < bs.length) :
    (Memory.ofFile (ImageFile.ofBytes bs)).read i = bs[i] :=
  Memory.read_writes_mem (m := ⟨bs.length, []⟩) rfl (ImageFile.ofBytes_distinct bs)
    (ImageFile.mem_ofBytes h) h

theorem Memory.toBytes_ofFile_ofBytes (bs : List Byte) :
    (Memory.ofFile (ImageFile.ofBytes bs)).toBytes = bs := by
  refine List.ext_getElem (by simp [Memory.toBytes]) fun i _ hi => ?_
  simp [Memory.toBytes, Memory.read_ofFile_ofBytes hi]

/-! ### Activity after an operation that ends every transfer (R309, R310) -/

theorem ioActive_of_idle {s : State} (hphase : s.fdc.phase = .idle) (hpending : s.fdc.pending = 0) :
    ioActive s = false := by
  simp [ioActive, hphase, hpending]

/-- Where the body of a step leaves no I/O active, the rule reports its end if activity had been reported. -/
theorem atomically_events_of_inactive {body : State → State} {s : State}
    (h : ioActive (body (openStep s)) = false) :
    (atomically body s).events = (body (openStep s)).events ++
      (if (body (openStep s)).fdc.activeReported then [.ioStopped] else []) := by
  rw [atomically_events, h]
  cases (body (openStep s)).fdc.activeReported <;> rfl

@[simp] theorem ioActive_hardReset (s : State) : ioActive (hardReset s) = false :=
  ioActive_of_idle rfl rfl

/-! ### Eject (R336, R338) -/

theorem ejectImage_of_present {s : State} (h : s.media.present = true) :
    ejectImage s = answer (.bool true) (emit .mediaEjected
      { s with
        media := { present := false, img := Memory.empty, changed := true },
        fdc := { s.fdc with
          phase := .idle, idx := 0, resLen := 0, pending := 0, xferDir := .none, off := 0 } }) :=
  if_pos h

theorem ejectImage_of_absent {s : State} (h : s.media.present = false) :
    ejectImage s = answer (.bool false) s :=
  if_neg (by simp [h])

/-- With a medium an eject ends every transfer, and without one no I/O is active (R309). -/
theorem ioActive_ejectImage (s : State) : ioActive (ejectImage s) = false := by
  cases h : s.media.present
  · simp [ejectImage_of_absent h, ioActive, h]
  · rw [ejectImage_of_present h]
    exact ioActive_of_idle rfl rfl

theorem hostStep_eject_events {s : State} (h : s.media.present = true) :
    (hostStep .eject s).events =
      if s.fdc.activeReported then [.mediaEjected, .ioStopped] else [.mediaEjected] := by
  have hinactive : ioActive (hostBody .eject (openStep s)) = false := ioActive_ejectImage _
  rw [hostStep, atomically_events_of_inactive hinactive, hostBody,
    ejectImage_of_present (s := openStep s) h]
  cases hreported : s.fdc.activeReported <;> simp [hreported]

/-! ### Operations that fail (R336, R337) -/

theorem hostStep_eject_of_absent {s : State} (h : s.media.present = false) (hs : Settled s) :
    hostStep .eject s = answer (.bool false) (openStep s) :=
  atomically_of_answer hs (ejectImage_of_absent h)

theorem hostStep_loadFailed_of_settled {s : State} (hs : Settled s) :
    hostStep .loadFailed s = answer (.bool false) (openStep s) :=
  atomically_of_answer hs rfl

end Sys2Proof.Machine

namespace Sys2Proof.Proofs

open Sys2Proof.Machine

/-- Settles O43: the offsets of the file's bytes are distinct and inside the image, so each byte is read
back; the rule adds at most an activity event behind MediaLoaded. -/
theorem loadReplacesTheImage : Obligations.LoadReplacesTheImage := by
  intro bs s
  refine ⟨_, rfl, ?bytes, ?size, ?present, ?changed, ?result, ?fdc, ?params, ?draws, ?inputs, ?first,
    ?once⟩
  case bytes => simpa [hostStep, hostBody, loadImage] using Memory.toBytes_ofFile_ofBytes bs
  case first => simp [hostStep, hostBody, loadImage, atomically_events]
  case once => exact eventCount_activityRule (by decide) _
  all_goals simp [hostStep, hostBody, loadImage]

/-- Settles O42: power-on values leave no I/O active, so only its end can be left to report. -/
theorem hardResetKeepsTheMedia : Obligations.HardResetKeepsTheMedia := by
  intro s
  refine ⟨?fdc, ?outside, ?events⟩
  case fdc => simp [hostStep, hostBody, FdcState.powerOn]
  case outside => simp [hostStep, hostBody, SameOutsideFdc]
  case events => exact atomically_events_of_inactive (ioActive_hardReset (openStep s))

/-- Settles O44: an eject leaves no I/O active, and an operation that fails only answers. -/
theorem ejectClearsMediaAndPhase : Obligations.EjectClearsMediaAndPhase := by
  refine ⟨fun s hpresent => ⟨_, rfl, ?ejected⟩, fun s habsent hs => ?noMedium, fun s hs => ?loadFailed⟩
  case ejected =>
    have hbody := ejectImage_of_present (s := openStep s) hpresent
    refine ⟨?media, ?result, ?fdc, ?params, ?draws, ?inputs, hostStep_eject_events hpresent⟩
    case fdc =>
      rw [hostStep, atomically_fdc, hostBody, ioActive_ejectImage, hbody]
      rfl
    all_goals simp [hostStep, hostBody, hbody]
  case noMedium => simp [SameButOutputs, SameOutsideFdc, hostStep_eject_of_absent habsent hs]
  case loadFailed => simp [SameButOutputs, SameOutsideFdc, hostStep_loadFailed_of_settled hs]

end Sys2Proof.Proofs
end
